-- ==== Sys2Proof/Word.lean ====
section
/-! DEFINITION. The words of the bus and of the panel: a byte, a bus word, a pixel sample, a window coordinate, a canonical
cycle word, and the joining of a phase bit with a bus word (spec/30_encoding.md rules R70, R71, R75, R76). -/

namespace Sys2Proof

/-- An opcode, a parameter byte, a colour channel, a byte of program text. -/
abbrev Byte := BitVec 8

/-- One transport cycle's payload (R11 BusWord). It has BUS_WIDTH bits; on an 8-bit bus the model keeps it zero-extended
to 16 bits, as the canonical cycle word does (R71). -/
abbrev BusWord := BitVec 16

/-- A pixel in the panel's native encoding (R11 PixelSample), zero-extended to the widest format's 24 bits. -/
abbrev Sample := BitVec 24

/-- A window coordinate: a 16-bit unsigned number (R76). -/
abbrev Coord := BitVec 16

/-- The canonical cycle word `{P, zext_16(D)}` (R71). -/
abbrev CycleWord := BitVec 17

/-- A pin identifier; no rule reads its value (R7). -/
abbrev PinId := Nat

/-- A positive fraction: the domain of the timing-only parameters DIV and SYS_CLK_HZ (R7: positive rationals). Numerator and
denominator are held less one, so that no value of the type is zero or has a zero denominator. -/
structure Ratio where
  numLess1 : Nat
  denLess1 : Nat
deriving DecidableEq, Repr, Inhabited

/-- The numerator. -/
def Ratio.num (q : Ratio) : Nat := q.numLess1 + 1

/-- The denominator. -/
def Ratio.den (q : Ratio) : Nat := q.denLess1 + 1

end Sys2Proof
end

