-- ==== Sys2Proof/Config.lean ====
section
/-! DEFINITION. The implementation parameters of spec/00_scope.md rule R7, with the defaults the spec gives them, and the free
values of the environment. A machine's parameters stand in its State (field `cfg`), so that every statement over all states is a
statement over all parameter values; no step changes them. -/

namespace Sys2Proof

/-- BUS_WIDTH ∈ {8, 16} (R7). -/
inductive BusWidth where
  | w8
  | w16
deriving DecidableEq, Repr

/-- The number of data pins. -/
def BusWidth.bits : BusWidth → Nat
  | .w8 => 8
  | .w16 => 16

/-- ENGINE_KIND (R7, conflict C3): the FIFO-fed state machine, or the direct GPIO-group path. -/
inductive EngineKind where
  | fifo
  | direct
deriving DecidableEq, Repr

/-- BUS_WIDTH and ENGINE_KIND together: the three pairs R7 allows (Fifo when BUS_WIDTH = 8, Direct or Fifo when it is 16). -/
inductive Bus where
  | fifo8
  | fifo16
  | direct16
deriving DecidableEq, Repr

/-- BUS_WIDTH of the pair. -/
def Bus.width : Bus → BusWidth
  | .fifo8 => .w8
  | .fifo16 => .w16
  | .direct16 => .w16

/-- ENGINE_KIND of the pair. -/
def Bus.kind : Bus → EngineKind
  | .fifo8 => .fifo
  | .fifo16 => .fifo
  | .direct16 => .direct

/-- ROTATION ∈ {0, 90, 180, 270} (R7). -/
inductive Rotation where
  | r0
  | r90
  | r180
  | r270
deriving DecidableEq, Repr

/-- COLOR_ORDER ∈ {RGB, BGR} (R7). -/
inductive ColorOrder where
  | rgb
  | bgr
deriving DecidableEq, Repr

/-- PIXEL_FORMAT (R7, R12): 5-6-5, 6-6-6 and 8-8-8. -/
inductive PixelFormat where
  | pf16
  | pf18
  | pf24
deriving DecidableEq, Repr

/-- The width of a native sample (R78). -/
def PixelFormat.bits : PixelFormat → Nat
  | .pf16 => 16
  | .pf18 => 18
  | .pf24 => 24

/-- CLIP_POLICY ∈ {Skip, Error} (R7, R132). -/
inductive ClipPolicy where
  | skip
  | error
deriving DecidableEq, Repr

/-- The OPEN parameters OPC_* (R7, R80). -/
structure Opcodes where
  slpout : Byte
  colmod : Byte
  madctl : Byte
  caset  : Byte
  raset  : Byte
  ramwr  : Byte
  dispon : Byte
deriving DecidableEq, Repr

/-- The seven opcodes in the order of R80. -/
def Opcodes.all (o : Opcodes) : List Byte :=
  [o.slpout, o.colmod, o.madctl, o.caset, o.raset, o.ramwr, o.dispon]

/-- The seven opcodes are seven different bytes. -/
abbrev Opcodes.distinct (o : Opcodes) : Prop := o.all.Nodup

/-- The default opcode values of R80, which are also the `match` values of spec/opcode_table.json. -/
def Opcodes.default : Opcodes where
  slpout := 0x11
  colmod := 0x3A
  madctl := 0x36
  caset  := 0x2A
  raset  := 0x2B
  ramwr  := 0x2C
  dispon := 0x29

/-- COLMOD_OF as data: one byte a pixel format (R115). -/
structure ColmodTable where
  pf16 : Byte
  pf18 : Byte
  pf24 : Byte
deriving DecidableEq, Repr

/-- The default COLMOD_OF of R115. -/
def ColmodTable.default : ColmodTable := ⟨0x55, 0x66, 0x77⟩

/-- One rotation's row of MADCTL_OF, in the order of spec/95_test_vectors.md vector I8. -/
structure MadctlRow where
  rgb       : Byte
  rgbMirror : Byte
  bgr       : Byte
  bgrMirror : Byte
deriving DecidableEq, Repr

/-- MADCTL_OF as data: a total function of (rotation, mirror, colour order) to bytes (R116). -/
structure MadctlTable where
  r0   : MadctlRow
  r90  : MadctlRow
  r180 : MadctlRow
  r270 : MadctlRow
deriving DecidableEq, Repr

/-- The default row of R116 for one rotation's base value: XOR MX = 0x40 where mirrored, OR BGR = 0x08 where BGR. -/
def MadctlRow.ofBase (base : Byte) : MadctlRow where
  rgb       := base
  rgbMirror := base ^^^ 0x40
  bgr       := base ||| 0x08
  bgrMirror := (base ^^^ 0x40) ||| 0x08

/-- The default MADCTL_OF of R116: base(0) = 0, base(90) = MV|MX, base(180) = MY|MX, base(270) = MV|MY. -/
def MadctlTable.default : MadctlTable where
  r0   := MadctlRow.ofBase 0x00
  r90  := MadctlRow.ofBase (0x20 ||| 0x40)
  r180 := MadctlRow.ofBase (0x80 ||| 0x40)
  r270 := MadctlRow.ofBase (0x20 ||| 0x80)

/-- One entry of an initialization list: opcode, parameter bytes, delay in µs (R114). -/
structure InitEntry where
  opcode  : Byte
  params  : List Byte
  delayUs : Nat
deriving DecidableEq, Repr

/-- The parameters of rule R7 that no operation's operand gives. (WIDTH, HEIGHT, ROTATION, MIRROR, COLOR_ORDER, PIXEL_FORMAT,
HAS_RST, HAS_BL and the pin identifiers are operands of TRANSPORT_NEW and DRIVER_NEW and stand in State where these put them.)
Every value of this type is one R7 allows. -/
structure Params where
  /-- BUS_WIDTH and ENGINE_KIND. -/
  bus            : Bus
  /-- FIFO_DEPTH less one, so that FIFO_DEPTH ≥ 1 holds of every value. -/
  fifoDepthLess1 : Nat
  clipPolicy     : ClipPolicy
  opcodes        : Opcodes
  colmodOf       : ColmodTable
  madctlOf       : MadctlTable
  extraInit      : List InitEntry
  tRstLowUs      : Nat
  tRstSettleUs   : Nat
  tSlpoutUs      : Nat
  tDisponUs      : Nat
  /-- SYS_CLK_HZ, a positive rational: timing only (R169). -/
  sysClkHz       : Ratio
  /-- CYCLES_PER_WORD: timing only (R169). -/
  cyclesPerWord  : Nat
deriving DecidableEq, Repr

/-- FIFO_DEPTH ≥ 1 (R7). -/
def Params.fifoDepth (p : Params) : Nat := p.fifoDepthLess1 + 1

/-- BUS_WIDTH (R7). -/
def Params.busWidth (p : Params) : BusWidth := p.bus.width

/-- ENGINE_KIND (R7). -/
def Params.engineKind (p : Params) : EngineKind := p.bus.kind

/-! ## Free values: constants with no body, so that no proof can see what they are -/

/-- The ENV draw `pinFault` once the answers listed in State are used up, by the number of the draw (R138: free, under no law). -/
opaque Config.pinFault : Nat → Bool

/-- The ENV draw `installFault` once the answers listed in State are used up (R98, R7). -/
opaque Config.installFault : Nat → Bool

/-- How many ENGINE steps fall before a push of HOST inside an operation, once State lists no more (R6, R96). -/
opaque Config.engineTurns : Nat → Nat

/-- Whether ENGINE rather than HOST takes the next step when both can, once State lists no more (R6). -/
opaque Config.engineFirst : Nat → Bool

/-- The level of D[] that a construction leaves (R98: `DATA_OUT <- any`), once State lists no more. -/
opaque Config.dataOut : Nat → BusWord

/-- T_RST_LOW_US: OPEN, no value in the spec (R7, D18). -/
opaque Config.tRstLowUs : Nat

/-- T_RST_SETTLE_US: OPEN, no value in the spec (R7, D18). -/
opaque Config.tRstSettleUs : Nat

/-- T_SLPOUT_US: OPEN, no value in the spec (R7, D18). -/
opaque Config.tSlpoutUs : Nat

/-- T_DISPON_US: OPEN, no value in the spec (R7, D18). -/
opaque Config.tDisponUs : Nat

/-- SYS_CLK_HZ: OPEN, timing only (R7, R169). -/
opaque Config.sysClkHz : Ratio

/-- CYCLES_PER_WORD: OPEN, timing only (R7, R169). -/
opaque Config.cyclesPerWord : Nat

/-- The parameter values that State.reset takes: the default configuration of spec/95_test_vectors.md section 0, with the
parameters that have no default there left free. -/
def Params.default : Params where
  bus            := .fifo8
  fifoDepthLess1 := 3
  clipPolicy     := .skip
  opcodes        := Opcodes.default
  colmodOf       := ColmodTable.default
  madctlOf       := MadctlTable.default
  extraInit      := []
  tRstLowUs      := Config.tRstLowUs
  tRstSettleUs   := Config.tRstSettleUs
  tSlpoutUs      := Config.tSlpoutUs
  tDisponUs      := Config.tDisponUs
  sysClkHz       := Config.sysClkHz
  cyclesPerWord  := Config.cyclesPerWord

end Sys2Proof
end

