-- ==== Sys2Proof/Syntax.lean ====
section
/-! DEFINITION. The instruction type: one constructor per row of spec/opcode_table.json, operands as fields
(spec/30_encoding.md rules R69 to R79, R89). Operands the spec lets a caller spell too wide (a bus word, a sample) are natural
numbers, so that the refusal of R140 has something to refuse; the others have the type R74 gives them. -/

namespace Sys2Proof

/-- SelectPhase (R11). -/
inductive Phase where
  | command
  | data
deriving DecidableEq, Repr

/-- A colour operand (R78): truecolor, or a sample in the configured format. -/
inductive Color where
  | rgb888 (r g b : Byte)
  | native (s : Nat)
deriving DecidableEq, Repr

/-- One (coordinate, colour) pair of the draw contract; coordinates are integers (R79). -/
structure Pixel where
  x     : Int
  y     : Int
  color : Color
deriving DecidableEq, Repr

/-- The instructions: one per row of spec/opcode_table.json. -/
inductive Instr where
  /-- SLPOUT: the Command-phase bus cycle that carries OPC_SLPOUT (R81). -/
  | slpout
  /-- COLMOD: the Command-phase bus cycle that carries OPC_COLMOD (R82). -/
  | colmod
  /-- CASET: the Command-phase bus cycle that carries OPC_CASET (R83). -/
  | caset
  /-- RASET: the Command-phase bus cycle that carries OPC_RASET (R84). -/
  | raset
  /-- RAMWR: the Command-phase bus cycle that carries OPC_RAMWR (R85). -/
  | ramwr
  /-- MADCTL: the Command-phase bus cycle that carries OPC_MADCTL (R86). -/
  | madctl
  /-- DISPON: the Command-phase bus cycle that carries OPC_DISPON (R87). -/
  | dispon
  /-- BUS_CMD: a generic Command-phase bus cycle (R89). -/
  | busCmd (w : BusWord)
  /-- BUS_DATA: a generic Data-phase bus cycle, a parameter byte or a pixel data word (R89). -/
  | busData (w : BusWord)
  /-- TAKE (R97). -/
  | take
  /-- TRANSPORT_NEW (R98); the handle operand is the one HOST holds (State.handle). -/
  | transportNew (width : Nat) (pinBase strobePin dcPin : PinId) (div : Ratio)
  /-- SELECT (R99). -/
  | select (p : Phase)
  /-- WRITE (R100, R101). -/
  | write (w : Nat)
  /-- BURST (R104). -/
  | burst (ws : List Nat)
  /-- DRIVER_NEW (R109). -/
  | driverNew (rst bl : Option PinId) (width height : Nat) (rot : Rotation) (mirror : Bool) (order : ColorOrder)
      (pf : PixelFormat)
  /-- INIT (R117). -/
  | init
  /-- BACKLIGHT (R119). -/
  | backlight (on : Bool)
  /-- SET_WINDOW (R127). -/
  | setWindow (x0 y0 x1 y1 : Coord)
  /-- STREAM (R128). -/
  | stream (ss : List Nat)
  /-- FILL (R129). -/
  | fill (x0 y0 x1 y1 : Coord) (c : Color)
  /-- CLEAR (R130). -/
  | clear (c : Color)
  /-- DRAW (R131). -/
  | draw (ps : List Pixel)
  /-- BBOX (R133). -/
  | bbox
  /-- ENGINE_PULL: an ENGINE step (R102). -/
  | enginePull
  /-- ENGINE_EMIT: an ENGINE step (R103). -/
  | engineEmit
  /-- CMD: a sequencer-internal step, also a pseudo-operation of test programs (R94, R111). -/
  | cmd (op : Byte) (ps : List Byte)
  /-- DELAY: a sequencer-internal step (R112). -/
  | delay (us : Nat)
  /-- RESET_PULSE: a sequencer-internal step (R113). -/
  | resetPulse
deriving DecidableEq, Repr

end Sys2Proof
end

