-- ==== Sys2Proof/WellFormed.lean ====
section
/-! DEFINITION. Which spellings of an instruction are ones the spec allows (spec/30_encoding.md rules R75, R78, R90):
a bus word fits the bus, a native sample fits the pixel format, and a Command cycle
that carries one of the seven named opcodes is the named row (spec/opcode_table.json's note on BUS_CMD). The checks on single
operands are also the ones the machine makes before it refuses WordTooWide or SampleTooWide. -/

namespace Sys2Proof

/-- R75: the number is one of BUS_WIDTH bits. -/
def wordFits (bw : BusWidth) (w : Nat) : Bool := decide (w < 2 ^ bw.bits)

/-- R78: the number is a sample of the pixel format. -/
def sampleFits (pf : PixelFormat) (s : Nat) : Bool := decide (s < 2 ^ pf.bits)

/-- R78: a truecolor always fits; a native colour is a sample of the pixel format. -/
def Color.fits (pf : PixelFormat) : Color → Bool
  | .rgb888 _ _ _ => true
  | .native s => sampleFits pf s

/-- The word carries one of the seven named opcodes, zero-extended (R71, R80). -/
def namedWord (o : Opcodes) (w : BusWord) : Bool := o.all.any (fun b => b.setWidth 16 == w)

/-- The instruction is a spelling the spec allows, under the parameters `p` and the pixel format `pf`. -/
def Instr.wellFormed (p : Params) (pf : PixelFormat) : Instr → Bool
  | .slpout => true
  | .colmod => true
  | .caset => true
  | .raset => true
  | .ramwr => true
  | .madctl => true
  | .dispon => true
  | .busCmd w => wordFits p.busWidth w.toNat && !namedWord p.opcodes w
  | .busData w => wordFits p.busWidth w.toNat
  | .take => true
  | .transportNew _ _ _ _ _ => true
  | .select _ => true
  | .write w => wordFits p.busWidth w
  | .burst ws => ws.all (wordFits p.busWidth)
  | .driverNew _ _ _ _ _ _ _ _ => true
  | .init => true
  | .backlight _ => true
  | .setWindow _ _ _ _ => true
  | .stream ss => ss.all (sampleFits pf)
  | .fill _ _ _ _ c => c.fits pf
  | .clear c => c.fits pf
  | .draw ps => ps.all (fun q => q.color.fits pf)
  | .bbox => true
  | .enginePull => true
  | .engineEmit => true
  | .cmd _ _ => true
  | .delay _ => true
  | .resetPulse => true

end Sys2Proof
end

