-- ==== Sys2Proof/Decode.lean ====
section
/-! DEFINITION. Decoding and encoding. The spec has two encodings and an instruction line is written in one of them:
a bus cycle is the 17-bit canonical cycle word of spec/30_encoding.md rule R71 (three bytes, least significant first), and every
other row is a line of the text syntax of rule R93 (the `encoding` column of spec/opcode_table.json). `decode` is total on any
bytes and rejects by name; `encode` is written after it from the same tables. Last stands the panel-side decoding of a trace
into frames (R91). -/

namespace Sys2Proof

/-- A line of a program: the bytes of one instruction. -/
abbrev Line := List Byte

/-- The bytes of an ASCII text. -/
def ascii (s : String) : List Byte := s.toList.map (fun c => BitVec.ofNat 8 c.toNat)

/-- Why a line is no instruction. -/
inductive DecodeError where
  /-- The line holds no operation (blank, or a comment alone). -/
  | noOperation
  /-- A byte that no line of R93 holds. -/
  | badCharacter
  /-- A word that is no mnemonic and no operand of R93. -/
  | unknownWord
  /-- A number that is neither decimal nor `0x` hexadecimal (R93). -/
  | badNumber
  /-- The line does not begin with a mnemonic. -/
  | notAnOperation
  /-- The operands are not the ones the mnemonic takes. -/
  | badOperands
  /-- A window coordinate outside 16 bits (R90). -/
  | coordTooWide
  /-- A colour channel, an opcode or a parameter byte outside 8 bits (R78, R111). -/
  | byteTooWide
  /-- A divisor that is no positive fraction (R7). -/
  | badDivisor
  /-- An operand list of STREAM or DRAW without an end, spelled with a literal `...` as its last element (R140 InfiniteSequence). -/
  | infiniteSequence
deriving DecidableEq, Repr

/-- The words of the text syntax of R93. -/
inductive Kw where
  | take | newTransport | select | cmd | data | write | burst | newDriver | rst | bl | none | true | false
  | orderRgb | orderBgr | pf16 | pf18 | pf24 | init | setWindow | stream | fill | clear | draw | bbox | backlight
  | on | off | rgb | native | internal | engine | step | delay | resetPulse | enginePull | engineEmit
deriving DecidableEq, Repr

/-- How a word is spelled (R93, and the `encoding` column of the table for the internal rows). -/
def Kw.spelling : Kw → List Byte
  | .take => ascii "TAKE"
  | .newTransport => ascii "NEW_TRANSPORT"
  | .select => ascii "SELECT"
  | .cmd => ascii "CMD"
  | .data => ascii "DATA"
  | .write => ascii "WRITE"
  | .burst => ascii "BURST"
  | .newDriver => ascii "NEW_DRIVER"
  | .rst => ascii "rst"
  | .bl => ascii "bl"
  | .none => ascii "none"
  | .true => ascii "true"
  | .false => ascii "false"
  | .orderRgb => ascii "RGB"
  | .orderBgr => ascii "BGR"
  | .pf16 => ascii "PF16"
  | .pf18 => ascii "PF18"
  | .pf24 => ascii "PF24"
  | .init => ascii "INIT"
  | .setWindow => ascii "SET_WINDOW"
  | .stream => ascii "STREAM"
  | .fill => ascii "FILL"
  | .clear => ascii "CLEAR"
  | .draw => ascii "DRAW"
  | .bbox => ascii "BBOX"
  | .backlight => ascii "BACKLIGHT"
  | .on => ascii "ON"
  | .off => ascii "OFF"
  | .rgb => ascii "rgb"
  | .native => ascii "native"
  | .internal => ascii "internal"
  | .engine => ascii "engine"
  | .step => ascii "step"
  | .delay => ascii "DELAY"
  | .resetPulse => ascii "RESET_PULSE"
  | .enginePull => ascii "ENGINE_PULL"
  | .engineEmit => ascii "ENGINE_EMIT"

/-- All the words. -/
def Kw.all : List Kw :=
  [.take, .newTransport, .select, .cmd, .data, .write, .burst, .newDriver, .rst, .bl, .none, .true, .false,
   .orderRgb, .orderBgr, .pf16, .pf18, .pf24, .init, .setWindow, .stream, .fill, .clear, .draw, .bbox, .backlight,
   .on, .off, .rgb, .native, .internal, .engine, .step, .delay, .resetPulse, .enginePull, .engineEmit]

/-- The word a run of letters spells, if any. -/
def Kw.ofBytes? (bs : List Byte) : Option Kw := Kw.all.find? (fun k => k.spelling == bs)

/-- The signs of the text syntax. -/
inductive Punct where
  | comma
  | lparen
  | rparen
  | eq
  | star
  | minus
  | slash
  | dot
deriving DecidableEq, Repr

/-- The byte that spells a sign. -/
def Punct.byte : Punct → Byte
  | .comma => 0x2C
  | .lparen => 0x28
  | .rparen => 0x29
  | .eq => 0x3D
  | .star => 0x2A
  | .minus => 0x2D
  | .slash => 0x2F
  | .dot => 0x2E

/-- The sign a byte spells, if any. -/
def Punct.ofByte? (b : Byte) : Option Punct :=
  [Punct.comma, .lparen, .rparen, .eq, .star, .minus, .slash, .dot].find? (fun p => p.byte == b)

/-- A token of a line. -/
inductive Tok where
  | kw (k : Kw)
  | num (n : Nat)
  | punct (p : Punct)
deriving DecidableEq, Repr

/-! ## From bytes to tokens -/

/-- `0` to `9`. -/
def isDigit (b : Byte) : Bool := decide (0x30 ≤ b.toNat) && decide (b.toNat ≤ 0x39)

/-- A byte of a word or a number: a digit, a letter or `_`. -/
def isWordByte (b : Byte) : Bool :=
  isDigit b || (decide (0x41 ≤ b.toNat) && decide (b.toNat ≤ 0x5A)) ||
    (decide (0x61 ≤ b.toNat) && decide (b.toNat ≤ 0x7A)) || b == 0x5F

/-- A space or a tab. -/
def isBlank (b : Byte) : Bool := b == 0x20 || b == 0x09

/-- The value of a decimal digit. -/
def decDigit (b : Byte) : Option Nat := if isDigit b then some (b.toNat - 0x30) else none

/-- The value of a hexadecimal digit, in either case. -/
def hexDigit (b : Byte) : Option Nat :=
  if isDigit b then some (b.toNat - 0x30)
  else if 0x41 ≤ b.toNat ∧ b.toNat ≤ 0x46 then some (b.toNat - 0x41 + 10)
  else if 0x61 ≤ b.toNat ∧ b.toNat ≤ 0x66 then some (b.toNat - 0x61 + 10)
  else none

/-- The number that digits spell in a base, most significant first, continuing from `acc`. -/
def numberFrom (base : Nat) (digit : Byte → Option Nat) : List Byte → Nat → Option Nat
  | [], acc => some acc
  | b :: bs, acc =>
    match digit b with
    | some d => numberFrom base digit bs (base * acc + d)
    | none => none

/-- A number: `0x` and hexadecimal digits, or decimal digits (R93). -/
def number? (bs : List Byte) : Option Nat :=
  if bs.take 2 = ascii "0x" ∧ 2 < bs.length then numberFrom 16 hexDigit (bs.drop 2) 0 else numberFrom 10 decDigit bs 0

/-- The token a run of word bytes spells: a number where it begins with a digit, else a word. -/
def lexeme (bs : List Byte) : Except DecodeError Tok :=
  if bs.head?.any isDigit then
    match number? bs with
    | some n => .ok (.num n)
    | none => .error .badNumber
  else
    match Kw.ofBytes? bs with
    | some k => .ok (.kw k)
    | none => .error .unknownWord

/-- Puts the token of a finished run, if there is one, before the tokens of the rest of the line. -/
def closeRun (run : List Byte) (rest : Except DecodeError (List Tok)) : Except DecodeError (List Tok) :=
  match run with
  | [] => rest
  | b :: bs =>
    match lexeme (b :: bs) with
    | .ok t => rest.map (t :: ·)
    | .error e => .error e

/-- The tokens of a line, `run` being the word bytes read since the last separator. A `;` begins a comment (R93). -/
def tokensFrom : List Byte → List Byte → Except DecodeError (List Tok)
  | [], run => closeRun run (.ok [])
  | b :: bs, run =>
    if isWordByte b then tokensFrom bs (run ++ [b])
    else if isBlank b then closeRun run (tokensFrom bs [])
    else if b = 0x3B then closeRun run (.ok [])
    else
      match Punct.ofByte? b with
      | some p => closeRun run ((tokensFrom bs []).map (Tok.punct p :: ·))
      | none => .error .badCharacter

/-- The tokens of a line. -/
def tokens (bs : List Byte) : Except DecodeError (List Tok) := tokensFrom bs []

/-! ## From tokens to an instruction -/

/-- A result of reading operands: what was read and the tokens that are left. -/
abbrev Read (α : Type) := Except DecodeError (α × List Tok)

/-- One or more numbers separated by commas, to the end of the line. -/
def readNumbers1 : List Tok → Except DecodeError (List Nat)
  | [.num n] => .ok [n]
  | .num n :: .punct .comma :: ts => (readNumbers1 ts).map (n :: ·)
  | _ => .error .badOperands

/-- Numbers separated by commas, none of them too, to the end of the line. -/
def readNumbers (ts : List Tok) : Except DecodeError (List Nat) := if ts = [] then .ok [] else readNumbers1 ts

/-- `k` numbers, each followed by a comma. -/
def takeNumbers : Nat → List Tok → Read (List Nat)
  | 0, ts => .ok ([], ts)
  | k + 1, .num n :: .punct .comma :: ts => (takeNumbers k ts).map (fun r => (n :: r.1, r.2))
  | _ + 1, _ => .error .badOperands

/-- The instruction, where the mnemonic takes no operand. -/
def noOperands (i : Instr) (ts : List Tok) : Except DecodeError Instr :=
  if ts = [] then .ok i else .error .badOperands

/-- A coordinate of 16 bits (R76, R90). -/
def readCoord (n : Nat) : Except DecodeError Coord :=
  if n < 2 ^ 16 then .ok (BitVec.ofNat 16 n) else .error .coordTooWide

/-- A byte. -/
def readByte (n : Nat) : Except DecodeError Byte :=
  if n < 2 ^ 8 then .ok (BitVec.ofNat 8 n) else .error .byteTooWide

/-- All of them bytes. -/
def readBytes : List Nat → Except DecodeError (List Byte)
  | [] => .ok []
  | n :: ns => (readByte n).bind (fun b => (readBytes ns).map (b :: ·))

/-- A window operand (R76). -/
def readWindow : List Nat → Except DecodeError (Coord × Coord × Coord × Coord)
  | [a, b, c, d] =>
    (readCoord a).bind fun x0 => (readCoord b).bind fun y0 => (readCoord c).bind fun x1 => (readCoord d).map fun y1 => (x0, y0, x1, y1)
  | _ => .error .badOperands

/-- A colour: `rgb(r, g, b)` or `native(s)` (R93). -/
def readColor : List Tok → Read Color
  | .kw .rgb :: .punct .lparen :: .num r :: .punct .comma :: .num g :: .punct .comma :: .num b :: .punct .rparen :: ts =>
    (readByte r).bind fun r => (readByte g).bind fun g => (readByte b).map fun b => (.rgb888 r g b, ts)
  | .kw .native :: .punct .lparen :: .num s :: .punct .rparen :: ts => .ok (.native s, ts)
  | _ => .error .badOperands

/-- A colour and nothing after it. -/
def readLastColor (ts : List Tok) : Except DecodeError Color :=
  (readColor ts).bind fun r => if r.2 = [] then .ok r.1 else .error .badOperands

/-- A sample operand of STREAM: a number, or `native(s)` as the spec's vectors write it. -/
def readSample : List Tok → Read Nat
  | .num s :: ts => .ok (s, ts)
  | .kw .native :: .punct .lparen :: .num s :: .punct .rparen :: ts => .ok (s, ts)
  | _ => .error .badOperands

/-- The count of `s * n`; 1 where it is left out (R93). -/
def repeats : List Tok → Nat × List Tok
  | .punct .star :: .num n :: ts => (n, ts)
  | ts => (1, ts)

/-- The tokens of a literal `...`, which spells that an operand list goes on without end (notes/assumptions/16.md: the spelling is the
model's choice). It stands last in the line, in the place of an element; a dot anywhere else is no operand. -/
def endless : List Tok := [.punct .dot, .punct .dot, .punct .dot]

/-- One or more sample operands to the end of the line; each takes a token at least, so `fuel` is the line's length. That an endless
list is refused here, before any check of an element's width or of ownership, is the model's choice (notes/assumptions/10.md). -/
def readSamples1 : Nat → List Tok → Except DecodeError (List Nat)
  | 0, _ => .error .badOperands
  | fuel + 1, ts =>
    if ts = endless then .error .infiniteSequence
    else
      (readSample ts).bind fun r =>
        let q := repeats r.2
        match q.2 with
        | [] => .ok (List.replicate q.1 r.1)
        | .punct .comma :: ts' => (readSamples1 fuel ts').map (List.replicate q.1 r.1 ++ ·)
        | _ => .error .badOperands

/-- The operands of STREAM. -/
def readSamples (ts : List Tok) : Except DecodeError (List Nat) := if ts = [] then .ok [] else readSamples1 ts.length ts

/-- An integer coordinate of the draw contract (R79). -/
def readInteger : List Tok → Read Int
  | .num n :: ts => .ok ((n : Int), ts)
  | .punct .minus :: .num n :: ts => .ok (-(n : Int), ts)
  | _ => .error .badOperands

/-- One sign. -/
def readSign (p : Punct) : List Tok → Read Unit
  | .punct q :: ts => if p = q then .ok ((), ts) else .error .badOperands
  | _ => .error .badOperands

/-- `(x, y, color)` (R93). -/
def readPixel (ts : List Tok) : Read Pixel :=
  (readSign .lparen ts).bind fun r => (readInteger r.2).bind fun x => (readSign .comma x.2).bind fun r => (readInteger r.2).bind fun y =>
    (readSign .comma y.2).bind fun r => (readColor r.2).bind fun c => (readSign .rparen c.2).map fun r => (⟨x.1, y.1, c.1⟩, r.2)

/-- One or more pixels to the end of the line; `fuel` is the line's length. An endless list is refused as in `readSamples1`. -/
def readPixels1 : Nat → List Tok → Except DecodeError (List Pixel)
  | 0, _ => .error .badOperands
  | fuel + 1, ts =>
    if ts = endless then .error .infiniteSequence
    else
      (readPixel ts).bind fun r =>
        match r.2 with
        | [] => .ok [r.1]
        | .punct .comma :: ts' => (readPixels1 fuel ts').map (r.1 :: ·)
        | _ => .error .badOperands

/-- The operands of DRAW. -/
def readPixels (ts : List Tok) : Except DecodeError (List Pixel) := if ts = [] then .ok [] else readPixels1 ts.length ts

/-- `rst=<pin|none>,` or `bl=<pin|none>,` (R93). -/
def readPin (name : Kw) : List Tok → Read (Option PinId)
  | .kw k :: .punct .eq :: .num p :: .punct .comma :: ts =>
    if k = name then .ok (some p, ts) else .error .badOperands
  | .kw k :: .punct .eq :: .kw .none :: .punct .comma :: ts =>
    if k = name then .ok (none, ts) else .error .badOperands
  | _ => .error .badOperands

/-- 0, 90, 180 or 270 (R7). -/
def readRotation : Nat → Except DecodeError Rotation
  | 0 => .ok .r0
  | 90 => .ok .r90
  | 180 => .ok .r180
  | 270 => .ok .r270
  | _ => .error .badOperands

/-- `true` or `false`. -/
def readBool : Kw → Except DecodeError Bool
  | .true => .ok true
  | .false => .ok false
  | _ => .error .badOperands

/-- `RGB` or `BGR`. -/
def readColorOrder : Kw → Except DecodeError ColorOrder
  | .orderRgb => .ok .rgb
  | .orderBgr => .ok .bgr
  | _ => .error .badOperands

/-- `PF16`, `PF18` or `PF24`. -/
def readPixelFormat : Kw → Except DecodeError PixelFormat
  | .pf16 => .ok .pf16
  | .pf18 => .ok .pf18
  | .pf24 => .ok .pf24
  | _ => .error .badOperands

/-- `mirror, RGB|BGR, PF16|PF18|PF24`. -/
def readImageOptions : List Tok → Except DecodeError (Bool × ColorOrder × PixelFormat)
  | [.kw m, .punct .comma, .kw o, .punct .comma, .kw f] =>
    (readBool m).bind fun m => (readColorOrder o).bind fun o => (readPixelFormat f).map fun f => (m, o, f)
  | _ => .error .badOperands

/-- The fraction `n / d`, where it is a positive one (R7). -/
def ratio? : Nat → Nat → Except DecodeError Ratio
  | n + 1, d + 1 => .ok ⟨n, d⟩
  | _, _ => .error .badDivisor

/-- A divisor: a number, or a fraction `n / d` (notes/assumptions/7.md). -/
def readDivisor : List Tok → Except DecodeError Ratio
  | [.num n] => ratio? n 1
  | [.num n, .punct .slash, .num d] => ratio? n d
  | _ => .error .badOperands

/-- The operands of NEW_TRANSPORT. -/
def transportOperands (ts : List Tok) : Except DecodeError Instr :=
  (takeNumbers 4 ts).bind fun r =>
    match r.1 with
    | [w, b, s, d] => (readDivisor r.2).map fun q => .transportNew w b s d q
    | _ => .error .badOperands

/-- The operands of NEW_DRIVER. -/
def driverOperands (ts : List Tok) : Except DecodeError Instr :=
  (readPin .rst ts).bind fun rst => (readPin .bl rst.2).bind fun bl => (takeNumbers 3 bl.2).bind fun r =>
    match r.1 with
    | [w, h, a] =>
      (readRotation a).bind fun a => (readImageOptions r.2).map fun o => .driverNew rst.1 bl.1 w h a o.1 o.2.1 o.2.2
    | _ => .error .badOperands

/-- The operand of SELECT. -/
def phaseOperand : List Tok → Except DecodeError Instr
  | [.kw .cmd] => .ok (.select .command)
  | [.kw .data] => .ok (.select .data)
  | _ => .error .badOperands

/-- The operand of BACKLIGHT. -/
def lightOperand : List Tok → Except DecodeError Instr
  | [.kw .on] => .ok (.backlight true)
  | [.kw .off] => .ok (.backlight false)
  | _ => .error .badOperands

/-- The operand of WRITE. -/
def wordOperand : List Tok → Except DecodeError Instr
  | [.num w] => .ok (.write w)
  | _ => .error .badOperands

/-- The operands of FILL. -/
def fillOperands (ts : List Tok) : Except DecodeError Instr :=
  (takeNumbers 4 ts).bind fun r => (readWindow r.1).bind fun w => (readLastColor r.2).map fun c =>
    .fill w.1 w.2.1 w.2.2.1 w.2.2.2 c

/-- The operands of CMD: the opcode, then the parameters. -/
def cmdOperands (ts : List Tok) : Except DecodeError Instr :=
  (readNumbers ts).bind fun ns => (readBytes ns).bind fun bs =>
    match bs with
    | op :: ps => .ok (.cmd op ps)
    | [] => .error .badOperands

/-- A line that begins with a mnemonic. -/
def operation (k : Kw) (ts : List Tok) : Except DecodeError Instr :=
  match k with
  | .take => noOperands .take ts
  | .newTransport => transportOperands ts
  | .select => phaseOperand ts
  | .write => wordOperand ts
  | .burst => (readNumbers ts).map .burst
  | .newDriver => driverOperands ts
  | .init => noOperands .init ts
  | .setWindow => (readNumbers ts).bind fun ns => (readWindow ns).map fun w => .setWindow w.1 w.2.1 w.2.2.1 w.2.2.2
  | .stream => (readSamples ts).map .stream
  | .fill => fillOperands ts
  | .clear => (readLastColor ts).map .clear
  | .draw => (readPixels ts).map .draw
  | .bbox => noOperands .bbox ts
  | .backlight => lightOperand ts
  | .cmd => cmdOperands ts
  | _ => .error .notAnOperation

/-- A line that begins as the table's `encoding` column spells the internal rows: `(internal) DELAY us`,
`(internal) RESET_PULSE`, and `(engine step)` followed by the row's mnemonic (notes/assumptions/6.md). -/
def internalStep : List Tok → Except DecodeError Instr
  | [.kw .internal, .punct .rparen, .kw .delay, .num us] => .ok (.delay us)
  | [.kw .internal, .punct .rparen, .kw .resetPulse] => .ok .resetPulse
  | [.kw .engine, .kw .step, .punct .rparen, .kw .enginePull] => .ok .enginePull
  | [.kw .engine, .kw .step, .punct .rparen, .kw .engineEmit] => .ok .engineEmit
  | _ => .error .notAnOperation

/-- The instruction a line's tokens spell. -/
def parse : List Tok → Except DecodeError Instr
  | [] => .error .noOperation
  | .kw k :: ts => operation k ts
  | .punct .lparen :: ts => internalStep ts
  | _ => .error .notAnOperation

/-- The instruction a text line spells (R93). -/
def decodeText (bs : List Byte) : Except DecodeError Instr := (tokens bs).bind parse

/-! ## Bus cycles -/

/-- The row a bus cycle is: a Command cycle with one of the seven opcodes is the named row, which takes priority over
BUS_CMD (the table's note). The opcodes are the parameters OPC_* of R80. -/
def decodeCycle (o : Opcodes) (p : Phase) (w : BusWord) : Instr :=
  match p with
  | .data => .busData w
  | .command =>
    if w = o.slpout.setWidth 16 then .slpout
    else if w = o.colmod.setWidth 16 then .colmod
    else if w = o.madctl.setWidth 16 then .madctl
    else if w = o.caset.setWidth 16 then .caset
    else if w = o.raset.setWidth 16 then .raset
    else if w = o.ramwr.setWidth 16 then .ramwr
    else if w = o.dispon.setWidth 16 then .dispon
    else .busCmd w

/-- The phase that bit 16 of a canonical cycle word encodes: 0 = Command, 1 = Data (R70, R71). -/
def phaseOfBit (b : Bool) : Phase := if b then .data else .command

/-- Decode a line: three bytes with the third 0 or 1 are a canonical cycle word, least significant byte first (no byte of a
text line is 0 or 1); everything else is text. -/
def decode (o : Opcodes) (bs : List Byte) : Except DecodeError Instr :=
  match bs with
  | [b0, b1, b2] =>
    if b2 = 0 ∨ b2 = 1 then .ok (decodeCycle o (phaseOfBit (b2 == 1)) (b1 ++ b0)) else decodeText bs
  | _ => decodeText bs

/-! ## The encoder -/

/-- The canonical cycle word `{P, zext_16(D)}` of a bus cycle (R71). -/
def canonicalWord (p : Phase) (w : BusWord) : CycleWord :=
  match p with
  | .command => 0#1 ++ w
  | .data => 1#1 ++ w

/-- The three bytes of a canonical cycle word, least significant first. -/
def cycleLine (c : CycleWord) : Line := [c.extractLsb' 0 8, c.extractLsb' 8 8, (c.extractLsb' 16 1).setWidth 8]

/-- The decimal digits of a number, least significant first; `fuel` is more than the number of digits. -/
def decDigits : Nat → Nat → List Nat
  | 0, _ => []
  | fuel + 1, n => if n < 10 then [n] else n % 10 :: decDigits fuel (n / 10)

/-- The byte of a decimal digit. -/
def digitByte (d : Nat) : Byte := BitVec.ofNat 8 (0x30 + d)

/-- The bytes a token is spelled with; a number is spelled in decimal. -/
def Tok.spelling : Tok → List Byte
  | .kw k => k.spelling
  | .num n => ((decDigits (n + 1) n).reverse).map digitByte
  | .punct p => [p.byte]

/-- The text of tokens: each followed by a space. -/
def render (ts : List Tok) : List Byte := ts.flatMap (fun t => t.spelling ++ [0x20])

/-- Token lists with a comma between each two. -/
def joinCommas : List (List Tok) → List Tok
  | [] => []
  | [x] => x
  | x :: y :: r => x ++ .punct .comma :: joinCommas (y :: r)

/-- Numbers with commas between. -/
def numberToks (ns : List Nat) : List Tok := joinCommas (ns.map (fun n => [.num n]))

/-- Numbers each followed by a comma. -/
def numbersThen (ns : List Nat) (rest : List Tok) : List Tok :=
  ns.flatMap (fun n => [.num n, .punct .comma]) ++ rest

/-- The tokens of a colour. -/
def Color.toks : Color → List Tok
  | .rgb888 r g b =>
    [.kw .rgb, .punct .lparen, .num r.toNat, .punct .comma, .num g.toNat, .punct .comma, .num b.toNat, .punct .rparen]
  | .native s => [.kw .native, .punct .lparen, .num s, .punct .rparen]

/-- The tokens of an integer. -/
def integerToks : Int → List Tok
  | .ofNat n => [.num n]
  | .negSucc n => [.punct .minus, .num (n + 1)]

/-- The tokens of a pixel. -/
def Pixel.toks (q : Pixel) : List Tok :=
  .punct .lparen :: integerToks q.x ++ .punct .comma :: integerToks q.y ++ .punct .comma :: q.color.toks ++ [.punct .rparen]

/-- The tokens of an optional pin operand. -/
def pinToks (name : Kw) : Option PinId → List Tok
  | some p => [.kw name, .punct .eq, .num p, .punct .comma]
  | none => [.kw name, .punct .eq, .kw .none, .punct .comma]

/-- The number of a rotation. -/
def Rotation.degrees : Rotation → Nat
  | .r0 => 0
  | .r90 => 90
  | .r180 => 180
  | .r270 => 270

/-- The word of a truth value. -/
def boolKw (b : Bool) : Kw := if b then .true else .false

/-- The word of a colour order. -/
def ColorOrder.kw : ColorOrder → Kw
  | .rgb => .orderRgb
  | .bgr => .orderBgr

/-- The word of a pixel format. -/
def PixelFormat.kw : PixelFormat → Kw
  | .pf16 => .pf16
  | .pf18 => .pf18
  | .pf24 => .pf24

/-- The tokens of a divisor. -/
def Ratio.toks (q : Ratio) : List Tok := if q.den = 1 then [.num q.num] else [.num q.num, .punct .slash, .num q.den]

/-- The encoding of an instruction: a cycle word for the bus rows, else the tokens of its line. -/
def Instr.spelled (o : Opcodes) : Instr → CycleWord ⊕ List Tok
  | .slpout => .inl (canonicalWord .command (o.slpout.setWidth 16))
  | .colmod => .inl (canonicalWord .command (o.colmod.setWidth 16))
  | .caset => .inl (canonicalWord .command (o.caset.setWidth 16))
  | .raset => .inl (canonicalWord .command (o.raset.setWidth 16))
  | .ramwr => .inl (canonicalWord .command (o.ramwr.setWidth 16))
  | .madctl => .inl (canonicalWord .command (o.madctl.setWidth 16))
  | .dispon => .inl (canonicalWord .command (o.dispon.setWidth 16))
  | .busCmd w => .inl (canonicalWord .command w)
  | .busData w => .inl (canonicalWord .data w)
  | .take => .inr [.kw .take]
  | .transportNew w b s d q => .inr (.kw .newTransport :: numbersThen [w, b, s, d] q.toks)
  | .select .command => .inr [.kw .select, .kw .cmd]
  | .select .data => .inr [.kw .select, .kw .data]
  | .write w => .inr [.kw .write, .num w]
  | .burst ws => .inr (.kw .burst :: numberToks ws)
  | .driverNew rst bl w h a m c f =>
    .inr (.kw .newDriver :: pinToks .rst rst ++ pinToks .bl bl ++
      numbersThen [w, h, a.degrees] [.kw (boolKw m), .punct .comma, .kw c.kw, .punct .comma, .kw f.kw])
  | .init => .inr [.kw .init]
  | .backlight true => .inr [.kw .backlight, .kw .on]
  | .backlight false => .inr [.kw .backlight, .kw .off]
  | .setWindow x0 y0 x1 y1 => .inr (.kw .setWindow :: numberToks [x0.toNat, y0.toNat, x1.toNat, y1.toNat])
  | .stream ss => .inr (.kw .stream :: numberToks ss)
  | .fill x0 y0 x1 y1 c => .inr (.kw .fill :: numbersThen [x0.toNat, y0.toNat, x1.toNat, y1.toNat] c.toks)
  | .clear c => .inr (.kw .clear :: c.toks)
  | .draw ps => .inr (.kw .draw :: joinCommas (ps.map Pixel.toks))
  | .bbox => .inr [.kw .bbox]
  | .enginePull => .inr [.punct .lparen, .kw .engine, .kw .step, .punct .rparen, .kw .enginePull]
  | .engineEmit => .inr [.punct .lparen, .kw .engine, .kw .step, .punct .rparen, .kw .engineEmit]
  | .cmd op ps => .inr (.kw .cmd :: numberToks (op.toNat :: ps.map BitVec.toNat))
  | .delay us => .inr [.punct .lparen, .kw .internal, .punct .rparen, .kw .delay, .num us]
  | .resetPulse => .inr [.punct .lparen, .kw .internal, .punct .rparen, .kw .resetPulse]

/-- The line of an instruction. -/
def encode (o : Opcodes) (i : Instr) : Line :=
  match i.spelled o with
  | .inl c => cycleLine c
  | .inr ts => render ts

/-! ## The opcode table's words -/

/-- `n` bytes of a number, least significant first. -/
def leBytes : Nat → Nat → List Byte
  | 0, _ => []
  | n + 1, w => BitVec.ofNat 8 w :: leBytes n (w / 256)

/-- The line of an instruction whose bits, as spec/opcode_table.json numbers them, are `w`: the bus cycles are the table's only
rows with bits, so a line is three bytes, or more where `nbits` is more. -/
def tableLine (nbits w : Nat) : Line := leBytes (max 3 ((nbits + 7) / 8)) w

/-- The instruction the decoder reads from a word of spec/opcode_table.json, under the table's own opcode values. -/
def decodeTableWord (nbits w : Nat) : Option Instr :=
  match decode Opcodes.default (tableLine nbits w) with
  | .ok i => some i
  | .error _ => none

/-! ## Panel-side decoding of a trace into frames (R72, R91) -/

/-- A frame: the opcode word of a Command-phase cycle (none for the data words before the first one, which are orphans) and
the Data-phase words after it. -/
structure Frame where
  opcode : Option BusWord
  data   : List BusWord
deriving DecidableEq, Repr

/-- The cycles of a frame. -/
def Frame.cycles (f : Frame) : List (Phase × BusWord) :=
  f.opcode.toList.map (fun w => (Phase.command, w)) ++ f.data.map (fun w => (Phase.data, w))

/-- Splits cycles into frames at each Command-phase cycle; total on every list of cycles (R91). -/
def splitFrames : List (Phase × BusWord) → List Frame
  | [] => []
  | (.command, w) :: cs =>
    match splitFrames cs with
    | ⟨none, ds⟩ :: fs => ⟨some w, ds⟩ :: fs
    | fs => ⟨some w, []⟩ :: fs
  | (.data, w) :: cs =>
    match splitFrames cs with
    | ⟨none, ds⟩ :: fs => ⟨none, w :: ds⟩ :: fs
    | fs => ⟨none, [w]⟩ :: fs

/-- How many parameters the command with this opcode word takes, where the spec knows it (R80); RAMWR's data are pixel data,
not parameters (R85). Where two OPC_* hold one byte, a count of 0 comes before 1, 1 before 4, and each before RAMWR's pixel data: the
model's choice (notes/assumptions/19.md). -/
def knownParameters (o : Opcodes) (w : BusWord) : Option Nat :=
  if w.setWidth 8 = o.slpout ∨ w.setWidth 8 = o.dispon then some 0
  else if w.setWidth 8 = o.colmod ∨ w.setWidth 8 = o.madctl then some 1
  else if w.setWidth 8 = o.caset ∨ w.setWidth 8 = o.raset then some 4
  else none

/-- The orphan words of a frame: all data before the first command, and the data after the known parameter count (R91). -/
def Frame.orphans (o : Opcodes) (f : Frame) : List BusWord :=
  match f.opcode with
  | none => f.data
  | some w =>
    match knownParameters o w with
    | some n => f.data.drop n
    | none => []

end Sys2Proof
end

