-- ==== Sys2Proof/Machine/State.lean ====
section
/-! DEFINITION. The state of the machine as plain data: every piece of state of spec/10_state.md (rules R13 to R31), the panel
reference model's state (spec/20_memory.md rule R58), HOST's program and statement index (spec/70_reset_and_hazards.md
rule R157), the answers ENV will give (R138, R98, R6), the faults and refusals (R139, R140), and the state right after reset
(R32, R154). -/

namespace Sys2Proof.Machine

/-- A driven pin level. -/
inductive Level where
  | low
  | high
deriving DecidableEq, Repr

/-- The level of an output pin as the model knows it (R21 to R23): `unset` means the level is not known. -/
inductive PinLevel where
  | unset
  | low
  | high
deriving DecidableEq, Repr

/-- A level as a known pin level. -/
def Level.pin : Level → PinLevel
  | .low => .low
  | .high => .high

/-- The pins whose drive can fail (R136, R138). -/
inductive Pin where
  | dc
  | rst
  | bl
deriving DecidableEq, Repr

/-- The level of WR (R20). -/
inductive Strobe where
  | asserted
  | released
deriving DecidableEq, Repr

/-- OWNER: who may call the PBE operations (R26). -/
inductive Owner where
  | none
  | transport
  | driver
deriving DecidableEq, Repr

/-- ControllerState (R27). -/
inductive Ctrl where
  | uninitialized
  | resetting
  | configuring
  | ready
  | faulted
deriving DecidableEq, Repr

/-- The engine phase, derived and not stored (R18). -/
inductive EnginePhase where
  | stalled
  | readyToPull
  | busy
deriving DecidableEq, Repr

/-- An observable event of TRACE (R30). -/
inductive Event where
  /-- A successful `select(p)`. -/
  | sel (p : Phase)
  /-- One bus cycle: phase and word. -/
  | cyc (p : Phase) (w : BusWord)
  /-- RST driven to a level. -/
  | rst (l : Level)
  /-- BL driven to a level. -/
  | bl (l : Level)
  /-- The delay collaborator blocked HOST for so many µs. -/
  | delay (us : Nat)
  /-- A pin primitive reported failure. -/
  | pinFault (p : Pin)
deriving DecidableEq, Repr

/-- TCFG: the transport configuration (R15). -/
structure TransportConfig where
  width     : Nat
  pinBase   : PinId
  strobePin : PinId
  dcPin     : PinId
  div       : Ratio
  kind      : EngineKind
  /-- FIFO_DEPTH in the Fifo kind, 0 in the Direct kind (R16). -/
  depth     : Nat
deriving DecidableEq, Repr

/-- GEOM: PanelGeometry (R28). Its rotation is also ICFG's: the two are the same field (R29). -/
structure PanelGeometry where
  width    : Nat
  height   : Nat
  rotation : Rotation
deriving DecidableEq, Repr

/-- ICFG without the rotation, which stands in GEOM (R29). -/
structure InitConfig where
  mirror      : Bool
  colorOrder  : ColorOrder
  pixelFormat : PixelFormat
deriving DecidableEq, Repr

/-! ## The panel reference model (R58) -/

/-- The known pixels of FRAME by key (`pixelKey`), keys strictly rising; a pixel that is not listed is unknown (`none`). -/
abbrev Memory := List (Nat × Sample)

/-- The canonical form of a memory: keys strictly rising. No listed entry equals what an unlisted key reads as, because that
is `none` and every entry is a sample. -/
def Memory.wf : Memory → Bool
  | [] => true
  | [_] => true
  | a :: b :: r => decide (a.1 < b.1) && Memory.wf (b :: r)

/-- MODE of the panel model: what the next Data-phase word is (R58). -/
inductive PanelMode where
  | idle
  /-- CASET with so many parameter bytes collected. -/
  | caset (k : Fin 4)
  /-- RASET with so many parameter bytes collected. -/
  | raset (k : Fin 4)
  | colmod
  | madctl
  | ramWrite
  | other
deriving DecidableEq, Repr

/-- The state of the panel reference model (R58). -/
structure Panel where
  /-- FRAME. -/
  frame   : Memory
  /-- WINC: the column range. -/
  winc    : Option (Nat × Nat)
  /-- WINR: the row range. -/
  winr    : Option (Nat × Nat)
  /-- CX. -/
  cx      : Nat
  /-- CY. -/
  cy      : Nat
  /-- COUNT. -/
  count   : Nat
  /-- MODE. -/
  mode    : PanelMode
  /-- PBUF: parameter bytes collected. -/
  pbuf    : List Byte
  /-- BBUF: words of a partial sample. -/
  bbuf    : List BusWord
  /-- AWAKE. -/
  awake   : Bool
  /-- DISP_ON. -/
  dispOn  : Bool
  /-- COLMOD_V. -/
  colmodV : Option Byte
  /-- MADCTL_V. -/
  madctlV : Option Byte
deriving DecidableEq, Repr

/-- The panel model's power-on values (R58). CX and CY have none there and are not read before RAMWR sets them. -/
def Panel.initial : Panel where
  frame   := []
  winc    := none
  winr    := none
  cx      := 0
  cy      := 0
  count   := 0
  mode    := .idle
  pbuf    := []
  bbuf    := []
  awake   := false
  dispOn  := false
  colmodV := none
  madctlV := none

/-! ## Results (R10, R136) -/

/-- The reasons of a ConfigurationError; their numbers are `ConfigReason.code` (R136). -/
inductive ConfigReason where
  | widthMismatch
  | installFailed
  | badGeometry
  | unsupportedFormat
deriving DecidableEq, Repr

/-- The errors an operation returns, with the recorded information; OutOfBounds records a window or a point. Their numeric codes
are `Error.code` (R136). -/
inductive Error where
  | configuration (r : ConfigReason)
  | notInitialized
  | outOfBoundsWindow (x0 y0 x1 y1 : Coord)
  | outOfBoundsPoint (x y : Int)
  | busFault (p : Pin)
deriving DecidableEq, Repr

/-- The value a successful operation returns. -/
inductive Value where
  | unit
  /-- TAKE's `some h` (true) or `none` (false). -/
  | handle (given : Bool)
  /-- BBOX's rectangle: top-left corner and size. -/
  | rect (x y width height : Nat)
deriving DecidableEq, Repr

/-- What an operation returned (R10). Its numeric code is `Result.code` (R136). -/
inductive Result where
  | ok (v : Value)
  | err (e : Error)
deriving DecidableEq, Repr

/-! ## The environment -/

/-- The agents that take steps (R6). -/
inductive Agent where
  | host
  | engine
deriving DecidableEq, Repr

/-- A source of free draws: the answers that are to come, first first, and how many were drawn past their end. An answer past
the end is an opaque constant of Config at its number, so no law is assumed of it. -/
structure Draws (α : Type) where
  coming : List α
  used   : Nat
deriving DecidableEq, Repr

/-- A source with no answer listed. -/
def Draws.none {α : Type} : Draws α := ⟨[], 0⟩

/-- What ENV will answer. This is the model's own state: it makes the one step function admit every behaviour of R6 and R138. -/
structure Env where
  /-- The answers of `pinFault`, in the order of the pin drives (R138). -/
  pin      : Draws Bool
  /-- The answers of `installFault` (R98). -/
  install  : Draws Bool
  /-- How many ENGINE steps fall before each push of HOST at which ENGINE can move (R96). -/
  turns    : Draws Nat
  /-- Whether ENGINE takes the next step, each time HOST and ENGINE both can (R6). -/
  schedule : Draws Bool
  /-- The level of D[] that a construction leaves (R98). -/
  data     : Draws BusWord
deriving DecidableEq, Repr

/-! ## The state -/

/-- The machine's state. -/
structure State where
  /-- The parameters of R7 that no operand gives; no step changes them. -/
  cfg          : Params
  /-- HOST's program: a finite list of operations (R157). -/
  prog         : List Line
  /-- HOST's statement index (R157). -/
  idx          : Nat
  /-- The model's own field: a line that stands outside HOST's program, a bus cycle or an internal step that a test bench places
  (R74: HOST cannot call those). The next step takes it; no step puts one here (notes/assumptions/12.md). -/
  probe        : Option Line
  /-- TAKEN (R25). -/
  taken        : Bool
  /-- HOST holds the unique handle: TAKE gave it and TRANSPORT_NEW has not consumed it (R97, R98). -/
  handle       : Bool
  /-- TCFG, once a transport is constructed (R15). -/
  tcfg         : Option TransportConfig
  /-- FIFO, oldest first (R16). -/
  fifo         : List BusWord
  /-- OSR: the word in flight (R17). -/
  osr          : Option BusWord
  /-- DATA_OUT: the level of D[] (R19). -/
  dataOut      : BusWord
  /-- STROBE: the level of WR (R20). -/
  strobe       : Strobe
  /-- DC (R21). -/
  dc           : PinLevel
  /-- RST (R22). -/
  rst          : PinLevel
  /-- BL (R23). -/
  bl           : PinLevel
  /-- OWNER (R26). -/
  owner        : Owner
  /-- CTRL (R27). -/
  ctrl         : Ctrl
  /-- GEOM (R28), fixed by DRIVER_NEW; until then a stand-in for WIDTH and HEIGHT (notes/assumptions/3.md). -/
  geom         : PanelGeometry
  /-- ICFG (R29), fixed by DRIVER_NEW; until then a stand-in for PIXEL_FORMAT (notes/assumptions/3.md). -/
  icfg         : InitConfig
  /-- The reset pin: present iff HAS_RST (R22, R109). -/
  rstPin       : Option PinId
  /-- The backlight pin: present iff HAS_BL (R23, R109). -/
  blPin        : Option PinId
  /-- TRACE (R30). -/
  trace        : List Event
  /-- FAULTED_MODEL (R31). -/
  faultedModel : Bool
  /-- REFUSED (R31). -/
  refused      : Bool
  /-- The panel reference model (R58): what it is after reading the whole of TRACE, in order (R57). -/
  panel        : Panel
  /-- What the last operation that returned has returned (R10). -/
  result       : Option Result
  /-- What ENV will answer. -/
  env          : Env
deriving DecidableEq, Repr

/-- The state at power-on, before any operation (R154, R32): TAKEN = false, OWNER = None, nothing queued or in flight, pins
Unset, TRACE empty, both marks false, the panel model at its initial values, and no program loaded. DATA_OUT and STROBE
have no value in the spec at power-on: 0 and Released are notes/assumptions/2.md's. GEOM, ICFG, CTRL have none before DRIVER_NEW:
the values here are the default configuration's (notes/assumptions/3.md). -/
def State.reset : State where
  cfg          := Params.default
  prog         := []
  idx          := 0
  probe        := none
  taken        := false
  handle       := false
  tcfg         := none
  fifo         := []
  osr          := none
  dataOut      := 0
  strobe       := .released
  dc           := .unset
  rst          := .unset
  bl           := .unset
  owner        := .none
  ctrl         := .uninitialized
  geom         := ⟨480, 320, .r0⟩
  icfg         := ⟨false, .rgb, .pf16⟩
  rstPin       := none
  blPin        := none
  trace        := []
  faultedModel := false
  refused      := false
  panel        := Panel.initial
  result       := none
  env          := ⟨.none, .none, .none, .none, .none⟩

/-! ## Faults and refusals -/

/-- The model faults (R139). Each carries the state it leaves, with FAULTED_MODEL set. -/
inductive Fault where
  /-- Raised by ENGINE_EMIT and by Direct WRITE (so by every operation that pushes or drains) when a word is strobed while DC
  is Unset (R101, R103, R139), and by a step from a state that already carries the mark, because it is never cleared.
  Safe: the spec gives the strobe no phase. -/
  | phaseUnset (s : State)
deriving DecidableEq, Repr

/-- The refusals (R140): the model has no meaning for the spelling. Each (but the first) carries the state it leaves, with
REFUSED set and nothing else changed. All are safe: the machine stops where the spec gives no effect. -/
inductive Refusal where
  /-- Raised by exec's arm of an instruction that has no meaning yet; no arm is left so. -/
  | notModelled (mnemonic : String)
  /-- A BusWord ≥ 2^BUS_WIDTH, raised by WRITE, BURST, BUS_CMD and BUS_DATA (R75, R140). -/
  | wordTooWide (s : State)
  /-- A native sample or colour wider than PIXEL_FORMAT, raised by STREAM, FILL, CLEAR and DRAW (R78, R140). -/
  | sampleTooWide (s : State)
  /-- A STREAM or DRAW operand list that has no end, raised when a line is fetched (R128, R140). -/
  | infiniteSequence (s : State)
  /-- A PBE operation with OWNER = None, or DRIVER_NEW with OWNER ≠ Transport (R140); raised also by CMD with OWNER = None, whose
  expansion begins with a PBE operation (R94). -/
  | noTransport (s : State)
  /-- A HOST call of SELECT, WRITE or BURST with OWNER = Driver (R140), so also a HOST line CMD, whose expansion begins with SELECT
  (R94). -/
  | rawAfterDriver (s : State)
  /-- A PSQ operation with OWNER ≠ Driver (R140). -/
  | noDriver (s : State)
  /-- BACKLIGHT with HAS_BL = false (R119, R140). -/
  | noBacklightPin (s : State)
  /-- TRANSPORT_NEW without the handle: it cannot be written (R97). -/
  | noHandle (s : State)
  /-- RESET_PULSE with HAS_RST = false: the step exists only if HAS_RST (R113). -/
  | noResetPin (s : State)
  /-- A line that spells no operation, raised when it is fetched (R90, R93). -/
  | undecodable (e : DecodeError) (s : State)
  /-- A HOST line that names a step HOST cannot call (R74: "no host syntax", "not callable by HOST") or a bus cycle, which is no
  call (R69, R89); raised when the line is fetched. -/
  | notCallable (s : State)
  /-- Raised by a step from a state that already carries REFUSED, because it is never cleared (R140). -/
  | refusedBefore (s : State)
deriving DecidableEq, Repr

end Sys2Proof.Machine
end

