-- ==== Sys2Proof/Machine/Panel.lean ====
section
/-! DEFINITION. The panel reference model of spec/20_memory.md rules R57 to R67: how each event of TRACE changes the panel, and
the reading of one pixel of FRAME. -/

namespace Sys2Proof.Machine

/-! ## FRAME as a memory -/

/-- The key of pixel (x, y): rows of 65536, the most a 16-bit coordinate spans (R35, R76). -/
def pixelKey (x y : Nat) : Nat := y * 65536 + x

/-- FRAME at a key: `none` is unknown. -/
def Memory.read (m : Memory) (k : Nat) : Option Sample :=
  match m with
  | [] => none
  | (a, v) :: r => if a = k then some v else Memory.read r k

/-- FRAME with one pixel known, in canonical form. -/
def Memory.write (m : Memory) (k : Nat) (v : Sample) : Memory :=
  match m with
  | [] => [(k, v)]
  | (a, u) :: r => if k < a then (k, v) :: (a, u) :: r else if k = a then (k, v) :: r else (a, u) :: Memory.write r k v

/-- Whether the key is a pixel of the window. -/
def inWindow (xs ys xe ye k : Nat) : Bool :=
  decide (xs ≤ k % 65536) && decide (k % 65536 ≤ xe) && decide (ys ≤ k / 65536) && decide (k / 65536 ≤ ye)

/-- FRAME with every pixel of a window unknown (R64). -/
def Memory.forget (m : Memory) (xs ys xe ye : Nat) : Memory := m.filter (fun c => !inWindow xs ys xe ye c.1)

/-- One pixel of the panel's frame. -/
def Panel.pixel (p : Panel) (x y : Nat) : Option Sample := p.frame.read (pixelKey x y)

/-! ## Samples on the bus -/

/-- The low byte `w[7:0]` of a bus word. -/
def lowByte (w : BusWord) : Byte := w.extractLsb' 0 8

/-- `zext_BUS_WIDTH(b)`: the byte in `D[7:0]`, `D[15:8] = 0` (R38, R72). -/
def byteWord (b : Byte) : BusWord := b.setWidth 16

/-- SERIALIZE (R123): the bus words of one sample. PF18 and PF24 have no layout on a 16-bit bus. -/
def serialize (bw : BusWidth) (pf : PixelFormat) (s : Sample) : List BusWord :=
  match pf, bw with
  | .pf16, .w16 => [s.setWidth 16]
  | .pf16, .w8 => [byteWord (s.extractLsb' 8 8), byteWord (s.extractLsb' 0 8)]
  | .pf18, .w8 =>
    [byteWord (s.extractLsb' 12 6 ++ 0#2), byteWord (s.extractLsb' 6 6 ++ 0#2), byteWord (s.extractLsb' 0 6 ++ 0#2)]
  | .pf24, .w8 => [byteWord (s.extractLsb' 16 8), byteWord (s.extractLsb' 8 8), byteWord (s.extractLsb' 0 8)]
  | .pf18, .w16 => []
  | .pf24, .w16 => []

/-- WPS: words per sample (R124). -/
def wordsPerSample (bw : BusWidth) (pf : PixelFormat) : Nat := (serialize bw pf 0).length

/-- DESERIALIZE (R62): the inverse of SERIALIZE on the words of one whole sample. -/
def deserialize (bw : BusWidth) (pf : PixelFormat) (ws : List BusWord) : Sample :=
  let b (n : Nat) : Byte := lowByte (ws.getD n 0)
  match pf, bw with
  | .pf16, .w16 => (ws.getD 0 0).setWidth 24
  | .pf16, .w8 => (b 0 ++ b 1).setWidth 24
  | .pf18, _ => ((b 0).extractLsb' 2 6 ++ (b 1).extractLsb' 2 6 ++ (b 2).extractLsb' 2 6).setWidth 24
  | .pf24, _ => b 0 ++ b 1 ++ b 2

/-! ## The panel's reaction to an event -/

/-- WIN: defined when both ranges are (R58). The order is (xs, ys, xe, ye). -/
def Panel.win (p : Panel) : Option (Nat × Nat × Nat × Nat) :=
  match p.winc, p.winr with
  | some (xs, xe), some (ys, ye) => some (xs, ys, xe, ye)
  | _, _ => none

/-- A big-endian pair of parameter bytes (R37, R60). -/
def pairValue (hi lo : Byte) : Nat := 256 * hi.toNat + lo.toNat

/-- The column range just received is complete (R60). -/
def Panel.setColumns (p : Panel) (width : Nat) : Panel :=
  let s := pairValue (p.pbuf.getD 0 0) (p.pbuf.getD 1 0)
  let e := pairValue (p.pbuf.getD 2 0) (p.pbuf.getD 3 0)
  if e < s ∨ width ≤ e then { p with frame := [], winc := none, mode := .other }
  else { p with winc := some (s, e), mode := .other }

/-- The row range just received is complete (R60). -/
def Panel.setRows (p : Panel) (height : Nat) : Panel :=
  let s := pairValue (p.pbuf.getD 0 0) (p.pbuf.getD 1 0)
  let e := pairValue (p.pbuf.getD 2 0) (p.pbuf.getD 3 0)
  if e < s ∨ height ≤ e then { p with frame := [], winr := none, mode := .other }
  else { p with winr := some (s, e), mode := .other }

/-- The cursor one sample on, in raster order inside the window (R63). -/
def nextCursor (xs ys xe ye cx cy : Nat) : Nat × Nat :=
  if xe < cx + 1 then (xs, if ye < cy + 1 then ys else cy + 1) else (cx + 1, if ye < cy then ys else cy)

/-- A whole sample is written at the cursor (R63), or overruns the window (R64). -/
def Panel.writeSample (p : Panel) (s : Sample) : Panel :=
  match p.win with
  | none => { p with frame := [] }
  | some (xs, ys, xe, ye) =>
    if p.count < (xe - xs + 1) * (ye - ys + 1) then
      { p with
        frame := p.frame.write (pixelKey p.cx p.cy) s
        count := p.count + 1
        cx := (nextCursor xs ys xe ye p.cx p.cy).1
        cy := (nextCursor xs ys xe ye p.cx p.cy).2 }
    else { p with frame := p.frame.forget xs ys xe ye, count := p.count + 1 }

/-- The mode a command word selects (R59). -/
def modeOf (o : Opcodes) (op : Byte) : PanelMode :=
  if op = o.caset then .caset 0
  else if op = o.raset then .raset 0
  else if op = o.colmod then .colmod
  else if op = o.madctl then .madctl
  else if op = o.ramwr then .ramWrite
  else .other

/-- A memory-write command returns the cursor to the window's origin and counts samples from 0 (R61). -/
def Panel.arm (p : Panel) : Panel :=
  match p.win with
  | some (xs, ys, _, _) => { p with cx := xs, cy := ys, count := 0 }
  | none => { p with count := 0 }

/-- A Command-phase cycle (R59, R61); a partial sample is discarded (R67). -/
def Panel.command (o : Opcodes) (w : BusWord) (p : Panel) : Panel :=
  let op := lowByte w
  let q : Panel :=
    { p with
      mode := modeOf o op
      pbuf := []
      bbuf := []
      awake := p.awake || op == o.slpout
      dispOn := p.dispOn || op == o.dispon }
  if q.mode = .ramWrite then q.arm else q

/-- A Data-phase cycle (R60, R62, R65). -/
def Panel.data (bw : BusWidth) (pf : PixelFormat) (width height : Nat) (w : BusWord) (p : Panel) : Panel :=
  match p.mode with
  | .caset k =>
    let q := { p with pbuf := p.pbuf ++ [lowByte w] }
    if k = 3 then q.setColumns width else { q with mode := .caset (k + 1) }
  | .raset k =>
    let q := { p with pbuf := p.pbuf ++ [lowByte w] }
    if k = 3 then q.setRows height else { q with mode := .raset (k + 1) }
  | .colmod => { p with colmodV := some (lowByte w), mode := .other }
  | .madctl => { p with madctlV := some (lowByte w), mode := .other }
  | .ramWrite =>
    let ws := p.bbuf ++ [w]
    if ws.length = wordsPerSample bw pf then Panel.writeSample { p with bbuf := [] } (deserialize bw pf ws)
    else { p with bbuf := ws }
  | .idle => { p with frame := [] }
  | .other => { p with frame := [] }

/-- A hardware reset of the panel (R66); the cursor is left as it is (R61: unread while WIN = none). -/
def Panel.hardReset (p : Panel) : Panel := { Panel.initial with cx := p.cx, cy := p.cy }

/-- The panel reads one event of TRACE (R57, R66). -/
def Panel.take (cfg : Params) (geom : PanelGeometry) (icfg : InitConfig) (p : Panel) (e : Event) : Panel :=
  match e with
  | .cyc .command w => p.command cfg.opcodes w
  | .cyc .data w => p.data cfg.busWidth icfg.pixelFormat geom.width geom.height w
  | .rst .low => p.hardReset
  | .rst .high => p
  | .sel _ => p
  | .bl _ => p
  | .delay _ => p
  | .pinFault _ => p

/-- The panel after reading a trace from the power-on values (R57, R58), under one geometry and one pixel format. -/
def readTrace (cfg : Params) (geom : PanelGeometry) (icfg : InitConfig) (es : List Event) : Panel :=
  es.foldl (Panel.take cfg geom icfg) Panel.initial

end Sys2Proof.Machine
end

