-- ==== Sys2Proof/Machine/Operands.lean ====
section
/-! DEFINITION. Operand forms: the big-endian split of window boundaries (spec/30_encoding.md R77), colour conversion
(spec/42_sequencer_draw.md R122), window legality and areas (R76, R126), the phase and level of DC (spec/10_state.md R21), the
parameter bytes of COLMOD and MADCTL and the initialization list (spec/41_sequencer_init.md R114 to R116), and the width checks
of a whole instruction (R75, R78). -/

namespace Sys2Proof.Machine

/-! ## DC -/

/-- The level of DC that selects a phase: Command ↦ Low, Data ↦ High (R21). -/
def phaseLevel : Phase → Level
  | .command => .low
  | .data => .high

/-- The phase a level of DC selects; `none` where the level is not known (R21). -/
def pinPhase : PinLevel → Option Phase
  | .low => some .command
  | .high => some .data
  | .unset => none

/-! ## Windows -/

/-- `v[15:8]` of a boundary, as a parameter byte (R77). -/
def hiByte (v : Coord) : Byte := v.extractLsb' 8 8

/-- `v[7:0]` of a boundary, as a parameter byte (R77). -/
def loByte (v : Coord) : Byte := v.extractLsb' 0 8

/-- The parameters of CASET (or of RASET) for a range, as big-endian pairs (R77, R83, R84). -/
def rangeParams (a b : Coord) : List Byte := [hiByte a, loByte a, hiByte b, loByte b]

/-- OOB (R126). -/
def outOfBounds (g : PanelGeometry) (x0 y0 x1 y1 : Coord) : Bool :=
  decide (g.width ≤ x1.toNat) || decide (g.height ≤ y1.toNat) || decide (x1.toNat < x0.toNat) || decide (y1.toNat < y0.toNat)

/-- The area of a window, an exact natural (R76). -/
def windowArea (x0 y0 x1 y1 : Coord) : Nat := (x1.toNat - x0.toNat + 1) * (y1.toNat - y0.toNat + 1)

/-- A draw-contract coordinate lies on the panel (R131). -/
def onPanel (g : PanelGeometry) (x y : Int) : Bool :=
  decide (0 ≤ x) && decide (x < g.width) && decide (0 ≤ y) && decide (y < g.height)

/-- A coordinate that lies on the panel, as a window boundary (R131). -/
def panelCoord (x : Int) : Coord := BitVec.ofNat 16 x.toNat

/-! ## Colours -/

/-- CONVERT (R122): truncation to the pixel format, red in the high bits; a native colour is already in it. -/
def convert (pf : PixelFormat) : Color → Sample
  | .native s => BitVec.ofNat 24 s
  | .rgb888 r g b =>
    match pf with
    | .pf16 => (r.extractLsb' 3 5 ++ g.extractLsb' 2 6 ++ b.extractLsb' 3 5).setWidth 24
    | .pf18 => (r.extractLsb' 2 6 ++ g.extractLsb' 2 6 ++ b.extractLsb' 2 6).setWidth 24
    | .pf24 => r ++ g ++ b

/-! ## The initialization list -/

/-- COLMOD_OF (R115). -/
def colmodByte (t : ColmodTable) : PixelFormat → Byte
  | .pf16 => t.pf16
  | .pf18 => t.pf18
  | .pf24 => t.pf24

/-- One rotation's row of MADCTL_OF. -/
def madctlRow (t : MadctlTable) : Rotation → MadctlRow
  | .r0 => t.r0
  | .r90 => t.r90
  | .r180 => t.r180
  | .r270 => t.r270

/-- MADCTL_OF (R116). -/
def madctlByte (t : MadctlTable) (rot : Rotation) (mirror : Bool) (order : ColorOrder) : Byte :=
  match mirror, order with
  | false, .rgb => (madctlRow t rot).rgb
  | true, .rgb => (madctlRow t rot).rgbMirror
  | false, .bgr => (madctlRow t rot).bgr
  | true, .bgr => (madctlRow t rot).bgrMirror

/-- INIT_SEQ (R114). -/
def initSeq (cfg : Params) (geom : PanelGeometry) (icfg : InitConfig) : List InitEntry :=
  cfg.extraInit ++
    [⟨cfg.opcodes.slpout, [], cfg.tSlpoutUs⟩,
     ⟨cfg.opcodes.colmod, [colmodByte cfg.colmodOf icfg.pixelFormat], 0⟩,
     ⟨cfg.opcodes.madctl, [madctlByte cfg.madctlOf geom.rotation icfg.mirror icfg.colorOrder], 0⟩,
     ⟨cfg.opcodes.dispon, [], cfg.tDisponUs⟩]

/-! ## Width checks before a step (R140, R143) -/

/-- No bus word operand of the instruction is too wide for the bus (R75). -/
def wordsFit (bw : BusWidth) : Instr → Bool
  | .busCmd w => wordFits bw w.toNat
  | .busData w => wordFits bw w.toNat
  | .write w => wordFits bw w
  | .burst ws => ws.all (wordFits bw)
  | _ => true

/-- No sample or native colour of the instruction is too wide for the pixel format (R78). -/
def samplesFit (pf : PixelFormat) : Instr → Bool
  | .stream ss => ss.all (sampleFits pf)
  | .fill _ _ _ _ c => c.fits pf
  | .clear c => c.fits pf
  | .draw ps => ps.all (fun q => q.color.fits pf)
  | _ => true

/-! ## Timing (no rule depends on it) -/

/-- T_WORD = CYCLES_PER_WORD × DIV / SYS_CLK_HZ seconds, as numerator and denominator (R169: timing only). -/
def wordPeriod (cfg : Params) (div : Ratio) : Nat × Nat :=
  (cfg.cyclesPerWord * div.num * cfg.sysClkHz.den, div.den * cfg.sysClkHz.num)

end Sys2Proof.Machine
end

