-- ==== Sys2Proof/Machine/Flags.lean ====
section
/-! DEFINITION. The combinational status flags (spec/10_state.md R24), the derived engine phase (R18), and what is queued or in
flight. In the Direct kind there is no FIFO, and the flags read TXEMPTY = 1, TXFULL = 0, IDLE = 1 (R16, R24). -/

namespace Sys2Proof.Machine

/-- TXFULL (R24). -/
def State.txFull (s : State) : Bool :=
  match s.cfg.engineKind with
  | .fifo => s.fifo.length == s.cfg.fifoDepth
  | .direct => false

/-- TXEMPTY (R24). -/
def State.txEmpty (s : State) : Bool :=
  match s.cfg.engineKind with
  | .fifo => s.fifo.isEmpty
  | .direct => true

/-- IDLE = TXEMPTY ∧ OSR = none (R24). -/
def State.idle (s : State) : Bool :=
  match s.cfg.engineKind with
  | .fifo => s.fifo.isEmpty && s.osr.isNone
  | .direct => true

/-- The engine phase (R18); the Direct kind has no engine step (R102, R103: Fifo kind). -/
def State.enginePhase (s : State) : EnginePhase :=
  match s.cfg.engineKind with
  | .direct => .stalled
  | .fifo =>
    match s.osr, s.fifo with
    | some _, _ => .busy
    | none, _ :: _ => .readyToPull
    | none, [] => .stalled

/-- An ENGINE step is enabled (R102, R103, R105). -/
def State.engineEnabled (s : State) : Bool := !s.idle

/-- The words pushed and not yet strobed, in the order in which they will be; in the Direct kind there are none (R16). -/
def State.pending (s : State) : List BusWord :=
  match s.cfg.engineKind with
  | .fifo => s.osr.toList ++ s.fifo
  | .direct => []

/-- The phase of DC, where it is known (R21). -/
def State.phase? (s : State) : Option Phase := pinPhase s.dc

end Sys2Proof.Machine
end

