-- ==== Sys2Proof/Machine/Ops.lean ====
section
/-! DEFINITION. The named operations every meaning is made of: the primitives of spec/00_scope.md R9 (Emit, SetPin, Push, Drain,
raise, refuse, fault), one complete bus cycle (spec/40_transport.md R101, R103), the ENGINE steps (R102, R103) and their
interleaving with HOST's steps (R6, R96), and the one operation of raising an error (spec/60_exceptions.md R144). -/

namespace Sys2Proof.Machine

/-! ## How an operation goes on -/

/-- Where an operation stands: it goes on, it has returned an error (R144), or the model has faulted (R139). -/
inductive Flow where
  | ok (s : State)
  | err (e : Error) (s : State)
  | fault (f : Fault)
deriving DecidableEq, Repr

/-- What comes next is done only where the operation goes on: an error or a fault ends it at the point where it was raised. -/
def Flow.andThen (f : Flow) (k : State → Flow) : Flow :=
  match f with
  | .ok s => k s
  | .err e s => .err e s
  | .fault x => .fault x

/-- What an error does to state beside ending the operation (R145). -/
def Flow.onError (f : Flow) (k : State → State) : Flow :=
  match f with
  | .ok s => .ok s
  | .err e s => .err e (k s)
  | .fault x => .fault x

/-- The number of a ConfigurationError's reason (R136). -/
def ConfigReason.code : ConfigReason → Nat
  | .widthMismatch => 1
  | .installFailed => 2
  | .badGeometry => 3
  | .unsupportedFormat => 4

/-- The numeric code of an error (R136); OutOfBounds has one code, whether a window or a point is recorded. -/
def Error.code : Error → Nat
  | .configuration _ => 1
  | .notInitialized => 2
  | .outOfBoundsWindow _ _ _ _ => 3
  | .outOfBoundsPoint _ _ => 3
  | .busFault _ => 4

/-- The numeric code of what an operation returned: 0 is Ok (R136). -/
def Result.code : Result → Nat
  | .ok _ => 0
  | .err e => e.code

/-- The operation returns: `Ok` with a value, or the error (R10). -/
def Flow.finish (v : Value) (f : Flow) : Host.Outcome State Fault Refusal :=
  match f with
  | .ok s => .next { s with result := some (.ok v) }
  | .err e s => .next { s with result := some (.err e) }
  | .fault x => .fault x

/-- A step that is no call and returns nothing. -/
def Flow.silent (f : Flow) : Host.Outcome State Fault Refusal :=
  match f with
  | .ok s => .next s
  | .err _ s => .next s
  | .fault x => .fault x

/-- `raise E(info)`: the one way an error is taken. It ends the operation and returns the error; there is no vector, no saved
context and no mode change, and every effect already produced stays (R144). -/
def raise (e : Error) (s : State) : Flow := .err e s

/-- `fault(PhaseUnset)`: the model fault mark is set (R139). -/
def phaseUnset (s : State) : Flow := .fault (.phaseUnset { s with faultedModel := true })

/-- `refuse(reason)`: the refusal mark is set and nothing else changes (R140). -/
def refuse (r : State → Refusal) (s : State) : Host.Outcome State Fault Refusal := .refused (r { s with refused := true })

/-! ## Free draws of the environment -/

/-- The k-th answer that is to come from a source of draws. -/
def Draws.answer {α : Type} (d : Draws α) (free : Nat → α) (k : Nat) : α :=
  (d.coming[k]?).getD (free (d.used + k - d.coming.length))

/-- The source after one draw. -/
def Draws.rest {α : Type} (d : Draws α) : Draws α :=
  match d.coming with
  | _ :: r => { d with coming := r }
  | [] => { d with used := d.used + 1 }

/-- The k-th answer of `pinFault` that is to come (R138). -/
def State.pinAnswer (s : State) (k : Nat) : Bool := s.env.pin.answer Config.pinFault k

/-- A `pinFault` draw was made. -/
def State.pinDrawn (s : State) : State := { s with env := { s.env with pin := s.env.pin.rest } }

/-- The next answer of `installFault` (R98). -/
def State.installAnswer (s : State) : Bool := s.env.install.answer Config.installFault 0

/-- An `installFault` draw was made. -/
def State.installDrawn (s : State) : State := { s with env := { s.env with install := s.env.install.rest } }

/-- How many ENGINE steps fall before the next push. -/
def State.turnsAnswer (s : State) : Nat := s.env.turns.answer Config.engineTurns 0

/-- A draw of ENGINE steps was made. -/
def State.turnsDrawn (s : State) : State := { s with env := { s.env with turns := s.env.turns.rest } }

/-- The bits of a bus word that the bus has. -/
def onBus (bw : BusWidth) (w : BusWord) : BusWord := (w.setWidth bw.bits).setWidth 16

/-- The level of D[] that a construction leaves: any value of BUS_WIDTH bits (R98). -/
def State.dataAnswer (s : State) : BusWord := onBus s.cfg.busWidth (s.env.data.answer Config.dataOut 0)

/-- A draw of the level of D[] was made. -/
def State.dataDrawn (s : State) : State := { s with env := { s.env with data := s.env.data.rest } }

/-! ## Emit, pins, the bus cycle -/

/-- `Emit(e)`: append to TRACE (R30); the panel reads TRACE in order (R57). -/
def State.emit (s : State) (e : Event) : State :=
  { s with trace := s.trace ++ [e], panel := s.panel.take s.cfg s.geom s.icfg e }

/-- A pin at a level. -/
def State.withPin (s : State) (p : Pin) (l : PinLevel) : State :=
  match p with
  | .dc => { s with dc := l }
  | .rst => { s with rst := l }
  | .bl => { s with bl := l }

/-- `SetPin(p, level)`: consults `pinFault`; on failure the pin becomes Unset, the failure is emitted and BusFault is raised;
otherwise the pin is driven and the event emitted (R9, R138). -/
def setPin (p : Pin) (l : Level) (e : Event) (s : State) : Flow :=
  if s.pinAnswer 0 then raise (.busFault p) ((s.pinDrawn.withPin p .unset).emit (.pinFault p))
  else .ok ((s.pinDrawn.withPin p l.pin).emit e)

/-- CTRL moved to a controller state (R110). -/
def State.withCtrl (s : State) (c : Ctrl) : State := { s with ctrl := c }

/-- One complete bus cycle of the phase DC has: D[] carries the word, the strobe is asserted and released within the step, and
the cycle is an event of TRACE (R42, R70, R101, R103). DC is read and not written: only SELECT writes it (R21). -/
def busCycle (p : Phase) (w : BusWord) (s : State) : State :=
  { s with dataOut := w, strobe := .released }.emit (.cyc p w)

/-- A word is strobed with the phase DC has at this step (R46); the model faults where DC is Unset (R101, R103). -/
def strobeWord (w : BusWord) (s : State) : Flow :=
  match s.phase? with
  | some p => .ok (busCycle p w s)
  | none => phaseUnset s

/-! ## The engine -/

/-- ENGINE_PULL: the head of FIFO into OSR (R102). -/
def pull (s : State) : State :=
  match s.fifo with
  | w :: ws => { s with osr := some w, fifo := ws }
  | [] => s

/-- ENGINE_EMIT: the word in flight is strobed (R103). -/
def emitWord (s : State) : Flow :=
  match s.osr with
  | some w => (strobeWord w s).andThen (fun t => .ok { t with osr := none })
  | none => .ok s

/-- The enabled ENGINE step, if there is one; a stalled engine has none and nothing changes (R18, R102, R103, R105). -/
def engineStep (s : State) : Flow :=
  match s.enginePhase with
  | .stalled => .ok s
  | .readyToPull => .ok (pull s)
  | .busy => emitWord s

/-- `n` ENGINE steps, as far as they are enabled. -/
def runEngine : Nat → State → Flow
  | 0, s => .ok s
  | n + 1, s => (engineStep s).andThen (runEngine n)

/-- `Drain()`: HOST is held until IDLE; only ENGINE steps happen meanwhile (R51). Each queued word takes two of them and the
word in flight one. -/
def drain (s : State) : Flow := runEngine (2 * s.fifo.length + 1) s

/-- Before a push, where ENGINE can move, any number of its steps may fall (R6, R96). -/
def engineTurns (s : State) : Flow :=
  if s.engineEnabled then runEngine s.turnsAnswer s.turnsDrawn else .ok s

/-- `hold until not TXFULL` (R100): while FIFO is full HOST cannot move, so ENGINE does, first strobing the word in flight where
there is one and then pulling. -/
def holdWhileFull (s : State) : Flow :=
  if s.txFull then
    (engineStep s).andThen fun t => if t.txFull then engineStep t else .ok t
  else .ok s

/-- WRITE of a word that fits (R100, R101): the Fifo kind holds while FIFO is full and pushes; the Direct kind strobes at once. -/
def writeWord (w : BusWord) (s : State) : Flow :=
  match s.cfg.engineKind with
  | .fifo => ((engineTurns s).andThen holdWhileFull).andThen fun t => .ok { t with fifo := t.fifo ++ [w] }
  | .direct => strobeWord w s

/-- BURST of words that fit: each is written in order (R104). -/
def writeWords : List BusWord → State → Flow
  | [], s => .ok s
  | w :: ws, s => (writeWord w s).andThen (writeWords ws)

/-- SELECT (R99): drain, then drive DC. -/
def selectPhase (p : Phase) (s : State) : Flow := (drain s).andThen (setPin .dc (phaseLevel p) (.sel p))

/-! ## The sequencer's own steps -/

/-- CMD (R111): the opcode in Command phase, then, where there are parameters, these in Data phase. -/
def sendCommand (op : Byte) (ps : List Byte) (s : State) : Flow :=
  (selectPhase .command s).andThen fun s => (writeWord (byteWord op) s).andThen fun s =>
    if ps = [] then .ok s else (selectPhase .data s).andThen (writeWords (ps.map byteWord))

/-- DELAY (R112): drain, then record the delay; `DELAY(0)` records nothing. -/
def waitUs (us : Nat) (s : State) : Flow :=
  (drain s).andThen fun s => .ok (if 0 < us then s.emit (.delay us) else s)

/-- RESET_PULSE (R113). -/
def pulseReset (s : State) : Flow :=
  ((drain s).andThen (setPin .rst .low (.rst .low))).andThen fun s => (waitUs s.cfg.tRstLowUs s).andThen fun s =>
    (setPin .rst .high (.rst .high) s).andThen fun s => waitUs s.cfg.tRstSettleUs s

end Sys2Proof.Machine
end

