-- ==== Sys2Proof/Machine/BusCycles.lean ====
section
/-! DEFINITION. The nine bus-cycle rows of spec/opcode_table.json (spec/30_encoding.md R70, R80 to R89): each is one complete
bus cycle, whose effect on the panel is the panel reference model's (spec/20_memory.md R59 to R65). HOST cannot call one (R69,
R89); a row placed on its own is brought about as the PBE brings every cycle about, by SELECT of its phase, WRITE of its word and
the engine's strobe (notes/assumptions/5.md), so that DC is written by SELECT alone (R21) and every `Cyc` is a pushed word's
(R107). -/

namespace Sys2Proof.Machine

/-- One bus cycle on its own: `SELECT p; WRITE w; Drain()` (R99, R100, R101, R51). -/
def cycleInstruction (p : Phase) (w : BusWord) (s : State) : Host.Outcome State Fault Refusal :=
  (((selectPhase p s).andThen (writeWord w)).andThen drain).finish .unit

/-- SLPOUT (R81). -/
def execSlpout (s : State) : Host.Outcome State Fault Refusal :=
  cycleInstruction .command (byteWord s.cfg.opcodes.slpout) s

/-- COLMOD (R82): the command cycle of the frame; its parameter is a BUS_DATA cycle. -/
def execColmod (s : State) : Host.Outcome State Fault Refusal :=
  cycleInstruction .command (byteWord s.cfg.opcodes.colmod) s

/-- CASET (R83): the command cycle of the frame; its four parameters are BUS_DATA cycles. -/
def execCaset (s : State) : Host.Outcome State Fault Refusal :=
  cycleInstruction .command (byteWord s.cfg.opcodes.caset) s

/-- RASET (R84): the command cycle of the frame; its four parameters are BUS_DATA cycles. -/
def execRaset (s : State) : Host.Outcome State Fault Refusal :=
  cycleInstruction .command (byteWord s.cfg.opcodes.raset) s

/-- RAMWR (R85): the command cycle; the pixel data that follow are BUS_DATA cycles. -/
def execRamwr (s : State) : Host.Outcome State Fault Refusal :=
  cycleInstruction .command (byteWord s.cfg.opcodes.ramwr) s

/-- MADCTL (R86): the command cycle of the frame; its parameter is a BUS_DATA cycle. -/
def execMadctl (s : State) : Host.Outcome State Fault Refusal :=
  cycleInstruction .command (byteWord s.cfg.opcodes.madctl) s

/-- DISPON (R87). -/
def execDispon (s : State) : Host.Outcome State Fault Refusal :=
  cycleInstruction .command (byteWord s.cfg.opcodes.dispon) s

/-- BUS_CMD (R89): any bus word in Command phase. -/
def execBusCmd (w : BusWord) (s : State) : Host.Outcome State Fault Refusal :=
  if wordsFit s.cfg.busWidth (.busCmd w) then cycleInstruction .command w s else refuse .wordTooWide s

/-- BUS_DATA (R89): any bus word in Data phase. -/
def execBusData (w : BusWord) (s : State) : Host.Outcome State Fault Refusal :=
  if wordsFit s.cfg.busWidth (.busData w) then cycleInstruction .data w s else refuse .wordTooWide s

end Sys2Proof.Machine
end

