-- ==== Sys2Proof/Machine/SequencerInit.lean ====
section
/-! DEFINITION. The Panel Sequencer's construction and initialization (spec/41_sequencer_init.md R109 to R119): DRIVER_NEW, INIT,
BACKLIGHT, and the sequencer-internal steps CMD, DELAY and RESET_PULSE. -/

namespace Sys2Proof.Machine

/-- R109: 1 ≤ WIDTH ≤ 65535 and 1 ≤ HEIGHT ≤ 65535. -/
def geometryOk (width height : Nat) : Bool :=
  decide (1 ≤ width) && decide (width ≤ 65535) && decide (1 ≤ height) && decide (height ≤ 65535)

/-- R109: PF18 and PF24 have no layout on a 16-bit bus. -/
def formatOk (bw : BusWidth) (pf : PixelFormat) : Bool :=
  match bw, pf with
  | .w16, .pf18 => false
  | .w16, .pf24 => false
  | _, _ => true

/-- What the construction of a driver leaves (R109). WIDTH, HEIGHT and PIXEL_FORMAT have one value each (R7), so the panel model is
the reading of the whole of TRACE, from its first event, under the geometry and the format given here (R57, D27;
notes/assumptions/3.md). -/
def newDriver (rst bl : Option PinId) (geom : PanelGeometry) (icfg : InitConfig) (s : State) : State :=
  { s with
    rstPin := rst
    blPin := bl
    rst := if rst.isSome then .unset else s.rst
    bl := if bl.isSome then .unset else s.bl
    geom := geom
    icfg := icfg
    panel := readTrace s.cfg geom icfg s.trace
    ctrl := .uninitialized
    owner := .driver }

/-- The construction of a driver, the transport consumed: the geometry check, then the format check (R109). -/
def buildDriver (rst bl : Option PinId) (geom : PanelGeometry) (icfg : InitConfig) (s : State) : Flow :=
  if !geometryOk geom.width geom.height then raise (.configuration .badGeometry) s
  else if !formatOk s.cfg.busWidth icfg.pixelFormat then raise (.configuration .unsupportedFormat) s
  else .ok (newDriver rst bl geom icfg s)

/-- DRIVER_NEW (R109). -/
def execDriverNew (rst bl : Option PinId) (width height : Nat) (rot : Rotation) (mirror : Bool) (order : ColorOrder)
    (pf : PixelFormat) (s : State) : Host.Outcome State Fault Refusal :=
  match s.owner with
  | .transport => (buildDriver rst bl ⟨width, height, rot⟩ ⟨mirror, order, pf⟩ { s with owner := .none }).finish .unit
  | .none => refuse .noTransport s
  | .driver => refuse .noTransport s

/-- A PSQ operation that HOST calls: only while OWNER = Driver (R140). -/
def asDriver (v : Value) (f : State → Flow) (s : State) : Host.Outcome State Fault Refusal :=
  match s.owner with
  | .driver => (f s).finish v
  | .none => refuse .noDriver s
  | .transport => refuse .noDriver s

/-- The entries of the initialization list, in order: the command and its delay (R117). -/
def sendInitList : List InitEntry → State → Flow
  | [], s => .ok s
  | e :: es, s => ((sendCommand e.opcode e.params s).andThen (waitUs e.delayUs)).andThen (sendInitList es)

/-- The reset phase of INIT: the pulse where there is a pin, else the settle delay alone (R117). -/
def resetPhase (s : State) : Flow := if s.rstPin.isSome then pulseReset s else waitUs s.cfg.tRstSettleUs s

/-- The sequence of INIT from Uninitialized or Ready (R117, R118); a BusFault in it leaves CTRL = Faulted. -/
def runInit (s : State) : Flow :=
  ((resetPhase (s.withCtrl .resetting)).andThen fun t =>
    (sendInitList (initSeq t.cfg t.geom t.icfg) (t.withCtrl .configuring)).andThen fun u =>
      .ok (u.withCtrl .ready)).onError fun t => t.withCtrl .faulted

/-- INIT once a driver exists (R117). -/
def initPanel (s : State) : Flow := if s.ctrl = .faulted then raise .notInitialized s else runInit s

/-- INIT (R117). -/
def execInit (s : State) : Host.Outcome State Fault Refusal := asDriver .unit initPanel s

/-- BACKLIGHT (R119): no drain; accepted in every CTRL state. -/
def execBacklight (on : Bool) (s : State) : Host.Outcome State Fault Refusal :=
  match s.owner with
  | .driver =>
    if s.blPin.isSome then
      (setPin .bl (if on then .high else .low) (.bl (if on then .high else .low)) s).finish .unit
    else refuse .noBacklightPin s
  | .none => refuse .noDriver s
  | .transport => refuse .noDriver s

/-- CMD (R94, R111): a step of the sequencer under a driver, and a pseudo-operation over a transport; without a transport the PBE
operations it is made of are refused (R140). That a HOST line CMD under a driver is refused is `hostCall`'s. -/
def execCmd (op : Byte) (ps : List Byte) (s : State) : Host.Outcome State Fault Refusal :=
  match s.owner with
  | .none => refuse .noTransport s
  | .transport => (sendCommand op ps s).finish .unit
  | .driver => (sendCommand op ps s).finish .unit

/-- DELAY (R112). -/
def execDelay (us : Nat) (s : State) : Host.Outcome State Fault Refusal := (waitUs us s).finish .unit

/-- RESET_PULSE (R113): only if HAS_RST. -/
def execResetPulse (s : State) : Host.Outcome State Fault Refusal :=
  match s.owner with
  | .driver => if s.rstPin.isSome then (pulseReset s).finish .unit else refuse .noResetPin s
  | .none => refuse .noDriver s
  | .transport => refuse .noDriver s

end Sys2Proof.Machine
end

