-- ==== Sys2Proof/Machine/SequencerDraw.lean ====
section
/-! DEFINITION. The Panel Sequencer's addressing and pixel streaming (spec/42_sequencer_draw.md R121 to R133): SET_WINDOW, STREAM,
FILL, CLEAR, DRAW and BBOX. -/

namespace Sys2Proof.Machine

/-- The first action of every drawing operation: CTRL must be Ready, else NotInitialized and nothing changes (R121). -/
def whenReady (f : State → Flow) (s : State) : Flow := if s.ctrl = .ready then f s else raise .notInitialized s

/-- The three commands that address a window (R127). -/
def addressWindow (x0 y0 x1 y1 : Coord) (s : State) : Flow :=
  (sendCommand s.cfg.opcodes.caset (rangeParams x0 x1) s).andThen fun s =>
    (sendCommand s.cfg.opcodes.raset (rangeParams y0 y1) s).andThen fun s =>
      sendCommand s.cfg.opcodes.ramwr [] s

/-- SET_WINDOW (R127): the geometry check comes before any bus write. -/
def setWindow (x0 y0 x1 y1 : Coord) : State → Flow :=
  whenReady fun s =>
    if outOfBounds s.geom x0 y0 x1 y1 then raise (.outOfBoundsWindow x0 y0 x1 y1) s else addressWindow x0 y0 x1 y1 s

/-- The bus words of samples, in order (R123, R128). -/
def streamWords (bw : BusWidth) (pf : PixelFormat) (ss : List Sample) : List BusWord := ss.flatMap (serialize bw pf)

/-- STREAM (R128): Data is selected once, then every sample's words are written in order. -/
def streamSamples (ss : List Sample) : State → Flow :=
  whenReady fun s =>
    (selectPhase .data s).andThen fun t => writeWords (streamWords t.cfg.busWidth t.icfg.pixelFormat ss) t

/-- FILL (R129). -/
def fillWindow (x0 y0 x1 y1 : Coord) (c : Color) : State → Flow :=
  whenReady fun s =>
    (setWindow x0 y0 x1 y1 s).andThen fun t =>
      streamSamples (List.replicate (windowArea x0 y0 x1 y1) (convert t.icfg.pixelFormat c)) t

/-- CLEAR (R130): FILL of the full panel. -/
def clearPanel (c : Color) (s : State) : Flow :=
  fillWindow 0 0 (BitVec.ofNat 16 (s.geom.width - 1)) (BitVec.ofNat 16 (s.geom.height - 1)) c s

/-- One pixel of DRAW that lies on the panel: a 1×1 window and its converted sample (R131). -/
def drawPixel (q : Pixel) (s : State) : Flow :=
  (setWindow (panelCoord q.x) (panelCoord q.y) (panelCoord q.x) (panelCoord q.y) s).andThen fun t =>
    streamSamples [convert t.icfg.pixelFormat q.color] t

/-- The pixels of DRAW in list order; one off the panel is dropped, or an error, as CLIP_POLICY says (R131, R132). -/
def drawPixels : List Pixel → State → Flow
  | [], s => .ok s
  | q :: qs, s =>
    if onPanel s.geom q.x q.y then (drawPixel q s).andThen (drawPixels qs)
    else
      match s.cfg.clipPolicy with
      | .skip => drawPixels qs s
      | .error => raise (.outOfBoundsPoint q.x q.y) s

/-- SET_WINDOW (R127). -/
def execSetWindow (x0 y0 x1 y1 : Coord) (s : State) : Host.Outcome State Fault Refusal :=
  asDriver .unit (setWindow x0 y0 x1 y1) s

/-- STREAM (R128). -/
def execStream (ss : List Nat) (s : State) : Host.Outcome State Fault Refusal :=
  if samplesFit s.icfg.pixelFormat (.stream ss) then asDriver .unit (streamSamples (ss.map (BitVec.ofNat 24))) s
  else refuse .sampleTooWide s

/-- FILL (R129). -/
def execFill (x0 y0 x1 y1 : Coord) (c : Color) (s : State) : Host.Outcome State Fault Refusal :=
  if samplesFit s.icfg.pixelFormat (.fill x0 y0 x1 y1 c) then asDriver .unit (fillWindow x0 y0 x1 y1 c) s
  else refuse .sampleTooWide s

/-- CLEAR (R130). -/
def execClear (c : Color) (s : State) : Host.Outcome State Fault Refusal :=
  if samplesFit s.icfg.pixelFormat (.clear c) then asDriver .unit (clearPanel c) s else refuse .sampleTooWide s

/-- DRAW (R131). -/
def execDraw (ps : List Pixel) (s : State) : Host.Outcome State Fault Refusal :=
  if samplesFit s.icfg.pixelFormat (.draw ps) then asDriver .unit (whenReady (drawPixels ps)) s
  else refuse .sampleTooWide s

/-- BBOX (R133): the panel's rectangle; nothing changes. -/
def execBbox (s : State) : Host.Outcome State Fault Refusal :=
  asDriver (.rect 0 0 s.geom.width s.geom.height) (fun t => .ok t) s

end Sys2Proof.Machine
end

