-- ==== Sys2Proof/Machine/Transport.lean ====
section
/-! DEFINITION. The Parallel Bus Engine's operations (spec/40_transport.md R97 to R104): TAKE, TRANSPORT_NEW, SELECT, WRITE,
BURST, and the ENGINE steps ENGINE_PULL and ENGINE_EMIT. Refusals come before any step (spec/60_exceptions.md R140, R143). -/

namespace Sys2Proof.Machine

/-- TAKE (R97): the unique handle, once. -/
def execTake (s : State) : Host.Outcome State Fault Refusal :=
  if s.taken then .next { s with result := some (.ok (.handle false)) }
  else .next { s with taken := true, handle := true, result := some (.ok (.handle true)) }

/-- What the construction of a transport leaves (R98). TRACE is emptied, and the panel model is then the reading of an empty TRACE,
everything unknown (R58): what it read from cycles before the construction, which only lines placed outside HOST's program can
have made, is forgotten, as R32's row for the panel ("unknown") allows. That is the model's choice (notes/assumptions/3.md). -/
def newTransport (width : Nat) (pinBase strobePin dcPin : PinId) (div : Ratio) (s : State) : State :=
  { s.dataDrawn with
    tcfg := some
      { width := width, pinBase := pinBase, strobePin := strobePin, dcPin := dcPin, div := div, kind := s.cfg.engineKind
        depth := match s.cfg.engineKind with
          | .fifo => s.cfg.fifoDepth
          | .direct => 0 }
    fifo := []
    osr := none
    strobe := .released
    dc := .unset
    dataOut := s.dataAnswer
    trace := []
    panel := Panel.initial
    owner := .transport }

/-- The construction of a transport, the handle consumed: the width check, then the install draw (R98). -/
def buildTransport (width : Nat) (pinBase strobePin dcPin : PinId) (div : Ratio) (s : State) : Flow :=
  if width ≠ s.cfg.busWidth.bits then raise (.configuration .widthMismatch) s
  else if s.installAnswer then raise (.configuration .installFailed) s.installDrawn
  else .ok (newTransport width pinBase strobePin dcPin div s.installDrawn)

/-- TRANSPORT_NEW (R98). The handle is gone whatever the outcome; without it the operation cannot be written (R97). -/
def execTransportNew (width : Nat) (pinBase strobePin dcPin : PinId) (div : Ratio) (s : State) :
    Host.Outcome State Fault Refusal :=
  if s.handle then (buildTransport width pinBase strobePin dcPin div { s with handle := false }).finish .unit
  else refuse .noHandle s

/-- A PBE operation that HOST calls: only while OWNER = Transport (R26, R96, R140). -/
def asTransport (f : State → Flow) (s : State) : Host.Outcome State Fault Refusal :=
  match s.owner with
  | .none => refuse .noTransport s
  | .driver => refuse .rawAfterDriver s
  | .transport => (f s).finish .unit

/-- SELECT (R99). -/
def execSelect (p : Phase) (s : State) : Host.Outcome State Fault Refusal := asTransport (selectPhase p) s

/-- WRITE (R100, R101). -/
def execWrite (w : Nat) (s : State) : Host.Outcome State Fault Refusal :=
  if wordsFit s.cfg.busWidth (.write w) then asTransport (writeWord (BitVec.ofNat 16 w)) s else refuse .wordTooWide s

/-- BURST (R104): the whole list is checked before any push. -/
def execBurst (ws : List Nat) (s : State) : Host.Outcome State Fault Refusal :=
  if wordsFit s.cfg.busWidth (.burst ws) then asTransport (writeWords (ws.map (BitVec.ofNat 16))) s
  else refuse .wordTooWide s

/-- ENGINE_PULL (R102): enabled iff OSR = none ∧ FIFO ≠ []; where it is not enabled it is not taken and nothing changes. -/
def execEnginePull (s : State) : Host.Outcome State Fault Refusal :=
  match s.enginePhase with
  | .readyToPull => .next (pull s)
  | .stalled => .next s
  | .busy => .next s

/-- ENGINE_EMIT (R103): enabled iff OSR = some w; where it is not enabled it is not taken and nothing changes. -/
def execEngineEmit (s : State) : Host.Outcome State Fault Refusal :=
  match s.enginePhase with
  | .busy => (emitWord s).silent
  | .stalled => .next s
  | .readyToPull => .next s

end Sys2Proof.Machine
end

