-- ==== Sys2Proof/Machine/Dispatch.lean ====
section
/-! DEFINITION. The dispatch: one arm per instruction of spec/opcode_table.json, each one direct call of its meaning. -/

namespace Sys2Proof.Machine

/-- What an instruction does in a state. -/
def exec (i : Instr) (s : State) : Host.Outcome State Fault Refusal :=
  match i with
  | .slpout => Sys2Proof.Machine.execSlpout s
  | .colmod => Sys2Proof.Machine.execColmod s
  | .caset => Sys2Proof.Machine.execCaset s
  | .raset => Sys2Proof.Machine.execRaset s
  | .ramwr => Sys2Proof.Machine.execRamwr s
  | .madctl => Sys2Proof.Machine.execMadctl s
  | .dispon => Sys2Proof.Machine.execDispon s
  | .busCmd w => Sys2Proof.Machine.execBusCmd w s
  | .busData w => Sys2Proof.Machine.execBusData w s
  | .take => Sys2Proof.Machine.execTake s
  | .transportNew width pinBase strobePin dcPin div => Sys2Proof.Machine.execTransportNew width pinBase strobePin dcPin div s
  | .select p => Sys2Proof.Machine.execSelect p s
  | .write w => Sys2Proof.Machine.execWrite w s
  | .burst ws => Sys2Proof.Machine.execBurst ws s
  | .driverNew rst bl width height rot mirror order pf => Sys2Proof.Machine.execDriverNew rst bl width height rot mirror order pf s
  | .init => Sys2Proof.Machine.execInit s
  | .backlight on => Sys2Proof.Machine.execBacklight on s
  | .setWindow x0 y0 x1 y1 => Sys2Proof.Machine.execSetWindow x0 y0 x1 y1 s
  | .stream ss => Sys2Proof.Machine.execStream ss s
  | .fill x0 y0 x1 y1 c => Sys2Proof.Machine.execFill x0 y0 x1 y1 c s
  | .clear c => Sys2Proof.Machine.execClear c s
  | .draw ps => Sys2Proof.Machine.execDraw ps s
  | .bbox => Sys2Proof.Machine.execBbox s
  | .enginePull => Sys2Proof.Machine.execEnginePull s
  | .engineEmit => Sys2Proof.Machine.execEngineEmit s
  | .cmd op ps => Sys2Proof.Machine.execCmd op ps s
  | .delay us => Sys2Proof.Machine.execDelay us s
  | .resetPulse => Sys2Proof.Machine.execResetPulse s

end Sys2Proof.Machine
end

