-- ==== Sys2Proof/Machine/Fetch.lean ====
section
/-! DEFINITION. Which agent takes the next step, the line it takes, and what HOST may call (spec/00_scope.md R5, R6,
spec/30_encoding.md R74, R94, spec/40_transport.md R105, R106, spec/70_reset_and_hazards.md R157). `Machine/Step.lean` only calls
what stands here. -/

namespace Sys2Proof.Machine

/-- HOST has an operation left (R157). -/
def State.hostEnabled (s : State) : Bool := decide (s.idx < s.prog.length)

/-- Whether ENGINE takes the next step, where both agents can (R6: any enabled step may be taken next). -/
def State.scheduleAnswer (s : State) : Bool := s.env.schedule.answer Config.engineFirst 0

/-- A scheduling draw was made. -/
def State.scheduleDrawn (s : State) : State := { s with env := { s.env with schedule := s.env.schedule.rest } }

/-- The agent that takes the next step, and the state with the scheduling draw made; `none` where no step is enabled. A draw
is made only where both agents can move. -/
def nextAgent (s : State) : Option Agent × State :=
  if s.hostEnabled then
    if s.engineEnabled then
      if s.scheduleAnswer then (some .engine, s.scheduleDrawn) else (some .host, s.scheduleDrawn)
    else (some .host, s)
  else if s.engineEnabled then (some .engine, s)
  else (none, s)

/-- The instruction that is ENGINE's enabled step (R102, R103). -/
def engineInstr (s : State) : Instr :=
  match s.enginePhase with
  | .busy => .engineEmit
  | .readyToPull => .enginePull
  | .stalled => .enginePull

/-- The line that is taken next where HOST moves: the placed one, where there is one, else the line of HOST's next operation. -/
def State.line? (s : State) : Option Line :=
  match s.probe with
  | some l => some l
  | none => s.prog[s.idx]?

/-- The refusal of a line that spells no instruction (R90, R140). -/
def lineRefusal (e : DecodeError) (s : State) : Refusal :=
  match e with
  | .infiniteSequence => .infiniteSequence s
  | e => .undecodable e s

/-- The instruction of the line that is taken next. -/
def fetch (s : State) : Except DecodeError Instr :=
  match s.line? with
  | some l => decode s.cfg.opcodes l
  | none => .error .noOperation

/-- HOST goes on to the next statement, whatever the operation returned (R157). -/
def advance (o : Host.Outcome State Fault Refusal) : Host.Outcome State Fault Refusal :=
  match o with
  | .next s => .next { s with idx := s.idx + 1 }
  | .fault f => .fault f
  | .refused r => .refused r

/-- HOST can write the instruction in its program: the operations of R74, and the pseudo-operation CMD of R94. The bus cycles are
formats on the bus and no calls (R69, R89), the engine steps have "no host syntax" and DELAY and RESET_PULSE are "not callable by
HOST" (R74). -/
def hostMayCall : Instr → Bool
  | .slpout => false
  | .colmod => false
  | .caset => false
  | .raset => false
  | .ramwr => false
  | .madctl => false
  | .dispon => false
  | .busCmd _ => false
  | .busData _ => false
  | .take => true
  | .transportNew _ _ _ _ _ => true
  | .select _ => true
  | .write _ => true
  | .burst _ => true
  | .driverNew _ _ _ _ _ _ _ _ => true
  | .init => true
  | .backlight _ => true
  | .setWindow _ _ _ _ => true
  | .stream _ => true
  | .fill _ _ _ _ _ => true
  | .clear _ => true
  | .draw _ => true
  | .bbox => true
  | .enginePull => false
  | .engineEmit => false
  | .cmd _ _ => true
  | .delay _ => false
  | .resetPulse => false

/-- The instruction is the pseudo-operation CMD. -/
def isCmd : Instr → Bool
  | .cmd _ _ => true
  | _ => false

/-- HOST's call of an instruction. CMD is its expansion (R94), whose first call, SELECT, is refused under a driver (R140). -/
def hostCall (i : Instr) (s : State) : Host.Outcome State Fault Refusal :=
  if !hostMayCall i then refuse .notCallable s
  else if isCmd i && s.owner == .driver then refuse .rawAfterDriver s
  else advance (exec i s)

/-- HOST's step: the line is refused, or the call it spells is made. Refusals the line alone gives come before those the call gives,
the spec ordering no refusal against another (R143): the model's choice (notes/assumptions/10.md). -/
def hostStep (s : State) : Host.Outcome State Fault Refusal :=
  match fetch s with
  | .ok i => hostCall i s
  | .error e => refuse (lineRefusal e) s

/-- The step of a placed line: it is no statement of HOST's program, so the index stays, and what may call it is not asked. -/
def probeStep (s : State) : Host.Outcome State Fault Refusal :=
  match fetch s with
  | .ok i => exec i { s with probe := none }
  | .error e => refuse (lineRefusal e) s

/-- The state with a line placed for the next step. Where the line needs a pin drive first, as a bus cycle needs its SELECT, that
drive is one that does not fail: the placed step is one that happens. -/
def State.withLine (s : State) (l : Line) : State :=
  { s with probe := some l, env := { s.env with pin := { s.env.pin with coming := false :: s.env.pin.coming } } }

end Sys2Proof.Machine
end

