-- ==== Sys2Proof/Machine/Step.lean ====
section
/-! DEFINITION. One step of the machine (spec/00_scope.md R5): a placed line where there is one, else one operation of HOST's program
or one ENGINE step. A state that carries a model fault or a refusal takes no step (spec/40_transport.md R106), and a state in which
no agent can move (the normal end of a run) stays as it is. -/

namespace Sys2Proof.Machine

/-- One step. -/
def step (s : State) : Host.Outcome State Fault Refusal :=
  if s.faultedModel then .fault (.phaseUnset s)
  else if s.refused then .refused (.refusedBefore s)
  else
    match s.probe with
    | some _ => probeStep s
    | none =>
      match nextAgent s with
      | (none, t) => .next t
      | (some .engine, t) => exec (engineInstr t) t
      | (some .host, t) => hostStep t

/-- The state with a word of spec/opcode_table.json placed where the next step fetches. -/
def State.withFetchWord (s : State) (nbits w : Nat) : State := s.withLine (tableLine nbits w)

end Sys2Proof.Machine
end

