-- ==== Sys2Proof/Safety.lean ====
section
/-! DEFINITION. The terms claims are stated in: the traces the spec's rules give each operation (spec/30_encoding.md R81 to R88,
spec/41_sequencer_init.md R111 to R117, spec/42_sequencer_draw.md R127 to R131), the trace and the panel once ENGINE has run to
IDLE, what an operation may change, a run's normal end (spec/40_transport.md R106), and the machine's invariant. -/

namespace Sys2Proof.Machine

/-! ## The events each operation is to produce -/

/-- CMD's trace (R111): `Sel(C), Cyc(C, op)`, then, where there are parameters, `Sel(D)` and one Data cycle each. -/
def commandEvents (op : Byte) (ps : List Byte) : List Event :=
  [.sel .command, .cyc .command (byteWord op)] ++
    (if ps = [] then [] else .sel .data :: ps.map (fun b => .cyc .data (byteWord b)))

/-- DELAY's trace (R112). -/
def delayEvents (us : Nat) : List Event := if us = 0 then [] else [.delay us]

/-- RESET_PULSE's trace (R113). -/
def resetPulseEvents (cfg : Params) : List Event :=
  .rst .low :: delayEvents cfg.tRstLowUs ++ .rst .high :: delayEvents cfg.tRstSettleUs

/-- The trace of a list of initialization entries: each one's command frame and then its delay (R117, R120). -/
def initListEvents : List InitEntry → List Event
  | [] => []
  | e :: es => commandEvents e.opcode e.params ++ delayEvents e.delayUs ++ initListEvents es

/-- INIT's trace (R114, R117): the reset pulse or the settle delay, then every entry of EXTRA_INIT in order, SLPOUT, COLMOD with
the byte of the format, MADCTL with the byte of rotation, mirror and colour order, and DISPON. -/
def initEvents (cfg : Params) (geom : PanelGeometry) (icfg : InitConfig) (hasRst : Bool) : List Event :=
  (if hasRst then resetPulseEvents cfg else delayEvents cfg.tRstSettleUs) ++
    initListEvents cfg.extraInit ++
    [.sel .command, .cyc .command (byteWord cfg.opcodes.slpout)] ++ delayEvents cfg.tSlpoutUs ++
    [.sel .command, .cyc .command (byteWord cfg.opcodes.colmod), .sel .data,
     .cyc .data (byteWord (match icfg.pixelFormat with
       | .pf16 => cfg.colmodOf.pf16
       | .pf18 => cfg.colmodOf.pf18
       | .pf24 => cfg.colmodOf.pf24)),
     .sel .command, .cyc .command (byteWord cfg.opcodes.madctl), .sel .data,
     .cyc .data (byteWord (match geom.rotation, icfg.mirror, icfg.colorOrder with
       | .r0, false, .rgb => cfg.madctlOf.r0.rgb
       | .r0, true, .rgb => cfg.madctlOf.r0.rgbMirror
       | .r0, false, .bgr => cfg.madctlOf.r0.bgr
       | .r0, true, .bgr => cfg.madctlOf.r0.bgrMirror
       | .r90, false, .rgb => cfg.madctlOf.r90.rgb
       | .r90, true, .rgb => cfg.madctlOf.r90.rgbMirror
       | .r90, false, .bgr => cfg.madctlOf.r90.bgr
       | .r90, true, .bgr => cfg.madctlOf.r90.bgrMirror
       | .r180, false, .rgb => cfg.madctlOf.r180.rgb
       | .r180, true, .rgb => cfg.madctlOf.r180.rgbMirror
       | .r180, false, .bgr => cfg.madctlOf.r180.bgr
       | .r180, true, .bgr => cfg.madctlOf.r180.bgrMirror
       | .r270, false, .rgb => cfg.madctlOf.r270.rgb
       | .r270, true, .rgb => cfg.madctlOf.r270.rgbMirror
       | .r270, false, .bgr => cfg.madctlOf.r270.bgr
       | .r270, true, .bgr => cfg.madctlOf.r270.bgrMirror)),
     .sel .command, .cyc .command (byteWord cfg.opcodes.dispon)] ++ delayEvents cfg.tDisponUs

/-- WIN(x0, y0, x1, y1): SET_WINDOW's trace (R127). -/
def windowEvents (o : Opcodes) (x0 y0 x1 y1 : Coord) : List Event :=
  commandEvents o.caset [hiByte x0, loByte x0, hiByte x1, loByte x1] ++
    commandEvents o.raset [hiByte y0, loByte y0, hiByte y1, loByte y1] ++ commandEvents o.ramwr []

/-- STREAM's trace (R128). -/
def streamEvents (bw : BusWidth) (pf : PixelFormat) (ss : List Sample) : List Event :=
  .sel .data :: (ss.flatMap (serialize bw pf)).map (fun w => .cyc .data w)

/-- FILL's trace (R129): the window, then the converted colour as often as the window has pixels. -/
def fillEvents (s : State) (x0 y0 x1 y1 : Coord) (c : Color) : List Event :=
  windowEvents s.cfg.opcodes x0 y0 x1 y1 ++
    streamEvents s.cfg.busWidth s.icfg.pixelFormat
      (List.replicate ((x1.toNat - x0.toNat + 1) * (y1.toNat - y0.toNat + 1)) (convert s.icfg.pixelFormat c))

/-- DRAW's trace for one pixel on the panel (R131). -/
def pixelEvents (s : State) (q : Pixel) : List Event :=
  windowEvents s.cfg.opcodes (panelCoord q.x) (panelCoord q.y) (panelCoord q.x) (panelCoord q.y) ++
    streamEvents s.cfg.busWidth s.icfg.pixelFormat [convert s.icfg.pixelFormat q.color]

/-- DRAW's trace under CLIP_POLICY = Skip: the pixels on the panel, in list order (R131, R132). -/
def drawEvents (s : State) (ps : List Pixel) : List Event :=
  (ps.filter (fun q => onPanel s.geom q.x q.y)).flatMap (pixelEvents s)

/-- How often SELECT drives DC for a command (R111). -/
def commandDrives (ps : List Byte) : Nat := if ps = [] then 1 else 2

/-- How many pin drives INIT makes: two of RST where there is a reset pin, then one of DC a command and one more where it has
parameters (R113, R117, R120). -/
def initDrives (s : State) : Nat :=
  (if s.rstPin.isSome then 2 else 0) + (s.cfg.extraInit.map (fun e => commandDrives e.params)).sum + 6

/-- How many pin drives DRAW makes under CLIP_POLICY = Skip: six a pixel on the panel (R131, R134). -/
def drawDrives (s : State) (ps : List Pixel) : Nat := 6 * (ps.filter (fun q => onPanel s.geom q.x q.y)).length

/-! ## Hypotheses on a state -/

/-- No word would be strobed with an unknown phase: nothing is queued or in flight, or the level of DC is known (R161). -/
abbrev State.phaseKnown (s : State) : Prop := s.pending = [] ∨ s.dc ≠ .unset

/-- The next `n` pin drives do not fail (R138). -/
abbrev State.pinsHold (s : State) (n : Nat) : Prop := ∀ k < n, s.pinAnswer k = false

/-! ## What the bus will have carried once ENGINE is idle -/

/-- TRACE as it will be once every pushed word has its cycle (R45, R106). -/
def State.settledTrace (s : State) : List Event :=
  match s.phase? with
  | some p => s.trace ++ s.pending.map (fun w => .cyc p w)
  | none => s.trace

/-- The panel as it will be once every pushed word has its cycle. -/
def State.settledPanel (s : State) : Panel :=
  match s.phase? with
  | some p => (s.pending.map (fun w => Event.cyc p w)).foldl (Panel.take s.cfg s.geom s.icfg) s.panel
  | none => s.panel

/-- From `s` to `t` the bus carries exactly the events `es` more (counting what is queued as carried), and the panel has read
them. How many of them are still queued in `t` is free (R52). -/
def Emits (s : State) (es : List Event) (t : State) : Prop :=
  t.settledTrace = s.settledTrace ++ es ∧
    t.settledPanel = es.foldl (Panel.take s.cfg s.geom s.icfg) s.settledPanel

/-! ## What an operation may change -/

/-- Only the bus side has changed: FIFO, OSR, D[], WR, DC, TRACE, the panel, and the draws made. -/
def BusOnly (s t : State) : Prop :=
  t = { s with
    fifo := t.fifo, osr := t.osr, dataOut := t.dataOut, strobe := t.strobe, dc := t.dc, trace := t.trace
    panel := t.panel, env := t.env }

/-- Only the bus side and the returned result have changed. -/
def BusAndResult (s t : State) : Prop :=
  t = { s with
    fifo := t.fifo, osr := t.osr, dataOut := t.dataOut, strobe := t.strobe, dc := t.dc, trace := t.trace
    panel := t.panel, env := t.env, result := t.result }

/-- Only the bus side, the reset pin's level, CTRL and the returned result have changed. -/
def SequencerOnly (s t : State) : Prop :=
  t = { s with
    fifo := t.fifo, osr := t.osr, dataOut := t.dataOut, strobe := t.strobe, dc := t.dc, trace := t.trace
    panel := t.panel, env := t.env, rst := t.rst, ctrl := t.ctrl, result := t.result }

/-- Only ENGINE's own state has changed: DC, the draws and everything HOST writes are as before. -/
def EngineOnly (s t : State) : Prop :=
  t = { s with
    fifo := t.fifo, osr := t.osr, dataOut := t.dataOut, strobe := t.strobe, trace := t.trace, panel := t.panel }

/-! ## The end of a run -/

/-- The normal end of a run: HOST has returned from its last operation (and no line is placed), IDLE holds, and no mark is set
(R106). -/
abbrev State.normalEnd (s : State) : Prop :=
  s.probe = none ∧ s.prog.length ≤ s.idx ∧ s.idle = true ∧ s.faultedModel = false ∧ s.refused = false

/-! ## The phases of a trace (R107 c) -/

/-- The phase that is selected after an event: a `Sel` selects its phase, a drive of DC that fails leaves none (R21, R138). -/
def Event.phaseAfter (q : Option Phase) : Event → Option Phase
  | .sel p => some p
  | .pinFault .dc => none
  | .pinFault .rst => q
  | .pinFault .bl => q
  | .cyc _ _ => q
  | .rst _ => q
  | .bl _ => q
  | .delay _ => q

/-- The phase that is selected after a trace. -/
def selectedPhase (es : List Event) : Option Phase := es.foldl Event.phaseAfter none

/-- Every `Cyc` has the phase of the last `Sel` before it, and none stands where no phase is selected (R107 c, d). -/
def phasesHeld : Option Phase → List Event → Bool
  | _, [] => true
  | q, .cyc p w :: es => q == some p && phasesHeld ((Event.cyc p w).phaseAfter q) es
  | q, e :: es => phasesHeld (e.phaseAfter q) es

/-! ## The invariant -/

/-- What holds at every step boundary of every run. -/
structure State.Inv (s : State) : Prop where
  /-- len(FIFO) ≤ FIFO_DEPTH (R16, R107 b). -/
  fifoBounded : s.cfg.engineKind = .fifo → s.fifo.length ≤ s.cfg.fifoDepth
  /-- In the Direct kind there is no FIFO and no word in flight (R16, R24). -/
  directEmpty : s.cfg.engineKind = .direct → s.fifo = [] ∧ s.osr = none
  /-- Every queued word, the word in flight and the level of D[] have BUS_WIDTH bits (R16, R41). -/
  fifoFits    : ∀ w ∈ s.fifo, wordFits s.cfg.busWidth w.toNat = true
  osrFits     : ∀ w ∈ s.osr, wordFits s.cfg.busWidth w.toNat = true
  dataFits    : wordFits s.cfg.busWidth s.dataOut.toNat = true
  /-- No step boundary observes the strobe asserted (R20). -/
  strobeIdle  : s.strobe = .released
  /-- At every HOST step boundary CTRL ∈ {Uninitialized, Ready, Faulted} (R27). -/
  ctrlSettled : s.ctrl = .uninitialized ∨ s.ctrl = .ready ∨ s.ctrl = .faulted
  /-- The handle was given by TAKE and not yet consumed: there is no transport yet (R97, R98). -/
  handleFresh : s.handle = true → s.taken = true ∧ s.owner = .none ∧ s.tcfg = none
  /-- A transport or a driver exists only over a taken state machine with its configuration (R25, R26). -/
  ownerTaken  : s.owner ≠ .none → s.taken = true ∧ s.tcfg ≠ none
  /-- A configuration stands only over a taken state machine (R97, R98). -/
  tcfgTaken   : s.tcfg ≠ none → s.taken = true
  /-- TCFG holds the parameters of the instance (R15). -/
  tcfgMatches : ∀ c ∈ s.tcfg, c.width = s.cfg.busWidth.bits ∧ c.kind = s.cfg.engineKind ∧
    (c.kind = .fifo → c.depth = s.cfg.fifoDepth) ∧ (c.kind = .direct → c.depth = 0)
  /-- The geometry and the pixel format are ones DRIVER_NEW accepts (R109). -/
  geometryOk  : geometryOk s.geom.width s.geom.height = true
  formatOk    : formatOk s.cfg.busWidth s.icfg.pixelFormat = true
  /-- FRAME is in canonical form. -/
  frameWf     : s.panel.frame.wf = true
  /-- The panel model is the reading of the whole of TRACE under the one geometry and format there are (R57). -/
  panelReads  : s.panel = readTrace s.cfg s.geom s.icfg s.trace
  /-- Between two `Sel` events every `Cyc` has the phase of the earlier one, and none has an unknown phase (R107 c, d). -/
  phasesHeld  : phasesHeld none s.trace = true
  /-- DC is at the level of the phase TRACE shows as selected: only SELECT writes it (R21). -/
  phaseShown  : s.phase? = selectedPhase s.trace

/-- The panel's driver exists over a claimed state machine: TAKE has no handle left to give, and none is held (R25, R26). -/
abbrev State.driven (s : State) : Prop := s.owner = .driver ∧ s.taken = true ∧ s.handle = false

/-- The five drawing operations (R121). -/
def drawsPanel : Instr → Bool
  | .setWindow _ _ _ _ => true
  | .stream _ => true
  | .fill _ _ _ _ _ => true
  | .clear _ => true
  | .draw _ => true
  | _ => false

end Sys2Proof.Machine
end

