-- ==== Sys2Proof/Certificates/Slice0/Obligations.lean ====
section
/-! DEFINITION. The statements for the provers. Throughout, `s.phaseKnown` says that no queued word lacks a phase, `s.pinsHold n`
that the environment fails none of the next `n` pin drives, `Emits s es t` that the bus carries exactly the events `es` more (what
is still queued counted as carried), and `BusOnly`, `BusAndResult`, `SequencerOnly` say which fields alone may have changed
(Sys2Proof/Safety.lean). The parameters of R7 stand in the state, so every statement is about all their values. -/

open Sys2Proof Sys2Proof.Machine

/-! ## Encoding -/

/-- Words written out from spec/opcode_table.json (match, mask) and lines written out from the text syntax of R93 decode to the
instructions they stand for. -/
def Obligations.TableWordsDecode : Prop :=
  decodeTableWord 24 0x00011 = some .slpout ∧ decodeTableWord 24 0x0003A = some .colmod ∧
  decodeTableWord 24 0x00036 = some .madctl ∧ decodeTableWord 24 0x0002A = some .caset ∧
  decodeTableWord 24 0x0002B = some .raset ∧ decodeTableWord 24 0x0002C = some .ramwr ∧
  decodeTableWord 24 0x00029 = some .dispon ∧ decodeTableWord 24 0x000E0 = some (.busCmd 0xE0) ∧
  decodeTableWord 24 0x1F800 = some (.busData 0xF800) ∧
  decode Opcodes.default (ascii "SELECT CMD") = .ok (.select .command) ∧
  decode Opcodes.default (ascii "SET_WINDOW 10, 20, 0x1DF, 319") = .ok (.setWindow 10 20 479 319) ∧
  decode Opcodes.default (ascii "STREAM native(0x1234) * 3") = .ok (.stream [0x1234, 0x1234, 0x1234]) ∧
  decode Opcodes.default (ascii "BACKLIGHT ON ; light") = .ok (.backlight true)

/-- Decoding the encoding of any well-formed instruction gives it back, with every operand. -/
def Obligations.DecodeInvertsEncode : Prop :=
  ∀ (p : Params) (pf : PixelFormat) (i : Instr), p.opcodes.distinct → i.wellFormed p pf = true →
    decode p.opcodes (encode p.opcodes i) = .ok i

/-- Every bus word in either phase is an instruction (R90: no illegal or reserved cycle), and encoding that instruction gives the
cycle word back, whatever the opcode values. -/
def Obligations.EveryCycleIsAnInstruction : Prop :=
  ∀ (o : Opcodes) (p : Phase) (w : BusWord), ∃ i, decode o (cycleLine (canonicalWord p w)) = .ok i ∧
    encode o i = cycleLine (canonicalWord p w)

/-- Trace decoding (R91): the split into frames is total and loses nothing, a frame after the first begins with a Command cycle. -/
def Obligations.TraceSplitsIntoFrames : Prop :=
  ∀ cs : List (Phase × BusWord), (splitFrames cs).flatMap Frame.cycles = cs ∧
    ∀ f ∈ (splitFrames cs).tail, f.opcode ≠ none

/-! ## The step -/

/-- A step runs the decoded instruction. Where HOST moves next, no line is placed, and HOST's line decodes to an `i` that it may call
(CMD only where no driver is), the step is exec of `i`, after which the statement index is one on, whatever was returned (R157);
where only HOST can move, no scheduling draw is made. A placed line (notes/assumptions/12.md) that decodes to `i` is exec of `i`,
whatever `i` is, and the index stays. -/
def Obligations.StepRunsDecodedInstruction : Prop :=
  ∀ (s : State) (l : Line) (i : Instr), s.faultedModel = false → s.refused = false → decode s.cfg.opcodes l = .ok i →
    (s.probe = none → s.prog[s.idx]? = some l → hostMayCall i = true → (∀ op ps, i = .cmd op ps → s.owner ≠ .driver) →
      (∀ t, nextAgent s = (some .host, t) →
        step s = advance (exec i t) ∧ ∀ u, step s = .next u → u.idx = s.idx + 1) ∧
      (s.pending = [] → step s = advance (exec i s) ∧ ∀ u, step s = .next u → u.idx = s.idx + 1) ∧
      (s.pending ≠ [] → s.env.schedule.coming.head? = some false →
        step s = advance (exec i { s with env := { s.env with
          schedule := { s.env.schedule with coming := s.env.schedule.coming.tail } } }) ∧
        ∀ u, step s = .next u → u.idx = s.idx + 1)) ∧
    (s.probe = some l →
      step s = exec i { s with probe := none } ∧ ∀ u, step s = .next u → u.idx = s.idx ∧ u.probe = none)

/-- A step of ENGINE runs the enabled engine step: ENGINE_EMIT where a word is in flight, else ENGINE_PULL; after HOST's last
operation ENGINE alone moves. -/
def Obligations.StepRunsEngineInstruction : Prop :=
  ∀ s t : State, s.faultedModel = false → s.refused = false → s.probe = none →
    (nextAgent s = (some .engine, t) →
      step s = exec (match t.osr with | some _ => .engineEmit | none => .enginePull) t) ∧
    (s.prog.length ≤ s.idx → s.pending ≠ [] →
      step s = exec (match s.osr with | some _ => .engineEmit | none => .enginePull) s)

/-- The marks are never cleared: a state that carries one takes no step (R139, R140). -/
def Obligations.MarkedStateTakesNoStep : Prop :=
  ∀ s : State, (s.faultedModel = true → step s = .fault (.phaseUnset s)) ∧
    (s.faultedModel = false → s.refused = true → step s = .refused (.refusedBefore s))

/-- After HOST's last operation the engine alone brings the run to its normal end, in two steps a queued word and one for the
word in flight, and TRACE then holds every pushed word's cycle, in order (R106, R45). -/
def Obligations.RunReachesNormalEnd : Prop :=
  ∀ s : State, s.probe = none → s.prog.length ≤ s.idx → s.faultedModel = false → s.refused = false → s.phaseKnown →
    ∃ t, Sys2Proof.core.run (2 * s.fifo.length + s.osr.toList.length) s = .next t ∧ t.normalEnd ∧
      t.trace = s.settledTrace ∧ t.panel = s.settledPanel ∧ step t = .next t

/-- Every step keeps the machine's invariant (`State.Inv`): the FIFO within its depth and its words within the bus, no strobe left
asserted, CTRL settled, one owner over a taken state machine, a legal geometry and format, FRAME in canonical form, the panel model
the reading of the whole of TRACE, every `Cyc` of the phase of the last `Sel` before it, and DC at the level of that phase (R107,
R20, R21, R27, R57). -/
def Obligations.StepKeepsInvariant : Prop :=
  ∀ s t : State, s.Inv → step s = .next t → t.Inv

/-- The invariant holds at reset. -/
def Obligations.ResetMeetsInvariant : Prop := State.reset.Inv

/-- No step changes the parameters or the program, clears TAKEN, or (where the invariant holds) rewrites TCFG or takes OWNER away
from a driver; and once a driver exists no step changes the geometry, the initialization configuration or which pins there are (R7:
one value of each per instance; R15, R25, R28, R29). -/
def Obligations.StepKeepsConfiguration : Prop :=
  ∀ s t : State, step s = .next t → t.cfg = s.cfg ∧ t.prog = s.prog ∧ (s.taken = true → t.taken = true) ∧
    (s.Inv → ∀ c, s.tcfg = some c → t.tcfg = some c) ∧
    (s.Inv → s.owner = .driver → t.owner = .driver) ∧
    (s.owner = .driver → t.geom = s.geom ∧ t.icfg = s.icfg ∧ t.rstPin = s.rstPin ∧ t.blPin = s.blPin)

/-- Once a driver exists, no step ever strobes a word with an unknown phase: no step faults, and this stays so (R161). -/
def Obligations.DriverNeverFaults : Prop :=
  ∀ s : State, s.driven → s.phaseKnown → s.faultedModel = false →
    (∀ f, step s ≠ .fault f) ∧ ∀ t, step s = .next t → t.driven ∧ t.phaseKnown ∧ t.faultedModel = false

/-- The controller's transitions seen from step to step once a driver exists (R110): Ready and Faulted are entered only by INIT,
Faulted is never left, and Uninitialized is never entered again. -/
def Obligations.ControllerTransitions : Prop :=
  ∀ s t : State, s.driven → step s = .next t →
    (s.ctrl = .faulted → t.ctrl = .faulted) ∧
    (t.ctrl ≠ s.ctrl → fetch s = .ok .init ∧ (t.ctrl = .ready ∨ t.ctrl = .faulted))

/-- The state at power-on (R154, R32). DATA_OUT, STROBE, GEOM, ICFG and CTRL have no value there in the spec and are left out. -/
def Obligations.PowerOnState : Prop :=
  State.reset.taken = false ∧ State.reset.owner = .none ∧ State.reset.tcfg = none ∧ State.reset.fifo = [] ∧
  State.reset.osr = none ∧ State.reset.dc = .unset ∧ State.reset.rst = .unset ∧ State.reset.bl = .unset ∧
  State.reset.trace = [] ∧ State.reset.idx = 0 ∧ State.reset.faultedModel = false ∧ State.reset.refused = false ∧
  State.reset.panel.frame = [] ∧ State.reset.panel.winc = none ∧ State.reset.panel.winr = none ∧
  State.reset.panel.mode = .idle ∧ State.reset.panel.pbuf = [] ∧ State.reset.panel.bbuf = [] ∧
  State.reset.panel.count = 0 ∧ State.reset.panel.awake = false ∧ State.reset.panel.dispOn = false ∧
  State.reset.panel.colmodV = none ∧ State.reset.panel.madctlV = none

/-! ## The Parallel Bus Engine -/

/-- TAKE gives the handle once; a second call returns `none` (R97). -/
def Obligations.TakeGivesHandleOnce : Prop :=
  ∀ s : State,
    (s.taken = false →
      exec .take s = .next { s with taken := true, handle := true, result := some (.ok (.handle true)) }) ∧
    (s.taken = true → exec .take s = .next { s with result := some (.ok (.handle false)) })

/-- TRANSPORT_NEW, called with the handle (R98): the handle is gone whatever the outcome. The width check comes first, then the
install draw, and a construction that fails leaves no transport; one that succeeds leaves every element at its construction
value, and D[] at any value of the bus's width. That the panel model then has read nothing is the model's choice
(notes/assumptions/3.md; R32 gives "unknown"). -/
def Obligations.TransportNewOutcomes : Prop :=
  ∀ (s : State) (width : Nat) (pinBase strobePin dcPin : PinId) (div : Ratio), s.handle = true →
    (width ≠ s.cfg.busWidth.bits →
      exec (.transportNew width pinBase strobePin dcPin div) s =
        .next { s with handle := false, result := some (.err (.configuration .widthMismatch)) }) ∧
    (width = s.cfg.busWidth.bits → s.installAnswer = true →
      exec (.transportNew width pinBase strobePin dcPin div) s = .next { s with
        handle := false, result := some (.err (.configuration .installFailed)), env := s.installDrawn.env }) ∧
    (width = s.cfg.busWidth.bits → s.installAnswer = false →
      ∃ t, exec (.transportNew width pinBase strobePin dcPin div) s = .next t ∧
        t = { s with
          handle := false
          tcfg := some
            { width := width, pinBase := pinBase, strobePin := strobePin, dcPin := dcPin, div := div
              kind := s.cfg.engineKind
              depth := match s.cfg.engineKind with | .fifo => s.cfg.fifoDepth | .direct => 0 }
          fifo := [], osr := none, strobe := .released, dc := .unset, dataOut := t.dataOut, trace := []
          panel := Panel.initial, owner := .transport, result := some (.ok .unit), env := t.env } ∧
        wordFits s.cfg.busWidth t.dataOut.toNat = true ∧ t.txEmpty = true ∧ t.txFull = false ∧ t.idle = true)

/-- SELECT: everything pushed before is strobed first. Then DC is driven to the phase's level and `Sel(p)` is emitted, also where the
phase is already selected; or the pin primitive fails, DC is Unset, `PinFault(DC)` is emitted, no `Sel` is, and BusFault(DC) is
returned (R99, R138). -/
def Obligations.SelectDrainsThenDrives : Prop :=
  ∀ (s : State) (p : Phase), s.owner = .transport → s.phaseKnown →
    ∃ t, exec (.select p) s = .next t ∧ BusAndResult s t ∧ t.pending = [] ∧ t.panel = s.settledPanel ∧
      t.env = s.pinDrawn.env ∧
      (s.pinAnswer 0 = false → t.result = some (.ok .unit) ∧
        t.dc = (match p with | .command => .low | .data => .high) ∧ t.trace = s.settledTrace ++ [.sel p]) ∧
      (s.pinAnswer 0 = true → t.result = some (.err (.busFault .dc)) ∧ t.dc = .unset ∧
        t.trace = s.settledTrace ++ [.pinFault .dc])

/-- WRITE in the Fifo kind with a known phase: it returns Ok, exactly one cycle of that phase is added, after those pushed before,
and the FIFO stays within its depth (R100, R44). -/
def Obligations.WriteAddsOneCycle : Prop :=
  ∀ (s : State) (w : Nat) (p : Phase), s.owner = .transport → s.cfg.engineKind = .fifo →
    wordFits s.cfg.busWidth w = true → s.phase? = some p → s.fifo.length ≤ s.cfg.fifoDepth →
    ∃ t, exec (.write w) s = .next t ∧ BusAndResult s t ∧ t.result = some (.ok .unit) ∧
      Emits s [.cyc p (BitVec.ofNat 16 w)] t ∧ t.dc = s.dc ∧ t.fifo.length ≤ s.cfg.fifoDepth ∧ t.fifo ≠ []

/-- WRITE in the Fifo kind where no engine step falls before the push. Where FIFO is not full the word is appended and nothing else
changes, whatever DC is (R100: `WRITE` does not read DC); on a full FIFO it holds until one word is pulled, the word in flight,
where there is one, being strobed before. -/
def Obligations.WritePushesOrHolds : Prop :=
  ∀ (s : State) (w : Nat), s.owner = .transport → s.cfg.engineKind = .fifo → wordFits s.cfg.busWidth w = true →
    (s.pending = [] ∨ s.turnsAnswer = 0) →
    (s.txFull = false →
      ∃ t, exec (.write w) s = .next t ∧ t.txEmpty = false ∧
        t = { s with fifo := s.fifo ++ [BitVec.ofNat 16 w], result := some (.ok .unit), env := t.env }) ∧
    (∀ p h rest, s.txFull = true → s.phase? = some p → s.fifo = h :: rest →
      ∃ t, exec (.write w) s = .next t ∧ BusAndResult s t ∧ t.result = some (.ok .unit) ∧ t.dc = s.dc ∧
        t.fifo = rest ++ [BitVec.ofNat 16 w] ∧ t.osr = some h ∧
        t.trace = s.trace ++ s.osr.toList.map (fun v => .cyc p v))

/-- WRITE in the Direct kind (R101): a word that is too wide is refused; else, with DC Unset, it is the model fault PhaseUnset; else
the cycle, of the phase of DC, is complete when it returns. -/
def Obligations.WriteDirectStrobes : Prop :=
  ∀ (s : State) (w : Nat), s.owner = .transport → s.cfg.engineKind = .direct →
    (wordFits s.cfg.busWidth w = false → exec (.write w) s = .refused (.wordTooWide { s with refused := true })) ∧
    (wordFits s.cfg.busWidth w = true → s.dc = .unset →
      exec (.write w) s = .fault (.phaseUnset { s with faultedModel := true })) ∧
    (∀ p, wordFits s.cfg.busWidth w = true → s.phase? = some p →
      ∃ t, exec (.write w) s = .next t ∧ t.idle = true ∧
        t = { s with
          dataOut := BitVec.ofNat 16 w, strobe := .released, trace := s.trace ++ [.cyc p (BitVec.ofNat 16 w)]
          panel := s.panel.take s.cfg s.geom s.icfg (.cyc p (BitVec.ofNat 16 w)), result := some (.ok .unit) })

/-- BURST (R104): a burst with a word that is too wide is refused whole, before any push; the empty burst does nothing and returns
Ok; any other, with a known phase, writes its words in order, one cycle each, none lost and none added, and returns Ok. -/
def Obligations.BurstWritesInOrder : Prop :=
  ∀ (s : State) (ws : List Nat), s.owner = .transport →
    ((∃ w ∈ ws, wordFits s.cfg.busWidth w = false) →
      exec (.burst ws) s = .refused (.wordTooWide { s with refused := true })) ∧
    (ws = [] → exec (.burst ws) s = .next { s with result := some (.ok .unit) }) ∧
    (∀ p, (∀ w ∈ ws, wordFits s.cfg.busWidth w = true) → s.phase? = some p →
      ∃ t, exec (.burst ws) s = .next t ∧ BusAndResult s t ∧ t.result = some (.ok .unit) ∧
        Emits s (ws.map (fun w => .cyc p (BitVec.ofNat 16 w))) t ∧ t.dc = s.dc)

/-- ENGINE_PULL in the Fifo kind (R102): the engine is ready to pull exactly where no word is in flight and FIFO is not empty; the
step then moves the head of FIFO into OSR, and IDLE stays 0. -/
def Obligations.EnginePullTakesHead : Prop :=
  ∀ s : State, s.cfg.engineKind = .fifo →
    (s.enginePhase = .readyToPull ↔ s.osr = none ∧ s.fifo ≠ []) ∧
    ∀ w ws, s.osr = none → s.fifo = w :: ws →
      ∃ t, exec .enginePull s = .next t ∧ t = { s with osr := some w, fifo := ws } ∧ t.idle = false

/-- ENGINE_EMIT in the Fifo kind (R103): the engine is busy exactly where a word is in flight; the step then strobes it once, with
the phase DC has at this step; with DC Unset it is the model fault PhaseUnset and no `Cyc` is emitted. -/
def Obligations.EngineEmitStrobesOnce : Prop :=
  ∀ s : State, s.cfg.engineKind = .fifo →
    (s.enginePhase = .busy ↔ ∃ w, s.osr = some w) ∧
    (∀ w p, s.osr = some w → s.phase? = some p →
      exec .engineEmit s = .next { s with
        osr := none, dataOut := w, strobe := .released, trace := s.trace ++ [.cyc p w]
        panel := s.panel.take s.cfg s.geom s.icfg (.cyc p w) }) ∧
    (∀ w, s.osr = some w → s.dc = .unset →
      exec .engineEmit s = .fault (.phaseUnset { s with faultedModel := true }))

/-- An ENGINE step that is not enabled changes nothing, where it is run by its name all the same (the model's choice,
notes/assumptions/6.md). -/
def Obligations.DisabledEngineStepChangesNothing : Prop :=
  ∀ s : State,
    (s.cfg.engineKind = .direct ∨ s.osr ≠ none ∨ s.fifo = [] → exec .enginePull s = .next s) ∧
    (s.cfg.engineKind = .direct ∨ s.osr = none → exec .engineEmit s = .next s)

/-- A word queued while DC is Unset is never strobed: every instruction that drains faults with PhaseUnset, and no `Cyc` is emitted
(R139, R161). These are SELECT over a transport; under a driver INIT, RESET_PULSE and each drawing operation that reaches its first
SELECT; CMD over either, DELAY over any owner, and the nine bus-cycle rows on their own. Who may run CMD, DELAY and RESET_PULSE as
instructions is the model's choice (notes/assumptions/6.md), and so is what a bus-cycle row on its own does (5.md). -/
def Obligations.DrainOfUnknownPhaseFaults : Prop :=
  ∀ (s : State) (i : Instr), s.pending ≠ [] → s.dc = .unset →
    ((s.owner = .transport ∧ ∃ p, i = .select p) ∨
      (s.owner ≠ .none ∧ ∃ op ps, i = .cmd op ps) ∨
      (∃ us, i = .delay us) ∨
      i ∈ [.slpout, .colmod, .madctl, .caset, .raset, .ramwr, .dispon] ∨
      (∃ w, (i = .busCmd w ∨ i = .busData w) ∧ wordFits s.cfg.busWidth w.toNat = true) ∨
      (s.owner = .driver ∧ s.rstPin ≠ none ∧ i = .resetPulse) ∨
      (s.owner = .driver ∧ s.ctrl ≠ .faulted ∧ i = .init) ∨
      (s.owner = .driver ∧ s.ctrl = .ready ∧ s.geom.width ≤ 65535 ∧ s.geom.height ≤ 65535 ∧
        samplesFit s.icfg.pixelFormat i = true ∧
        ((∃ x0 y0 x1 y1, x0.toNat ≤ x1.toNat ∧ x1.toNat < s.geom.width ∧ y0.toNat ≤ y1.toNat ∧ y1.toNat < s.geom.height ∧
            (i = .setWindow x0 y0 x1 y1 ∨ ∃ c, i = .fill x0 y0 x1 y1 c)) ∨
          (∃ ss, i = .stream ss) ∨
          (1 ≤ s.geom.width ∧ 1 ≤ s.geom.height ∧ ∃ c, i = .clear c) ∨
          (∃ before q after, i = .draw (before ++ q :: after) ∧ onPanel s.geom q.x q.y = true ∧
            (before = [] ∨ s.cfg.clipPolicy = .skip) ∧ ∀ r ∈ before, onPanel s.geom r.x r.y = false)))) →
    ∃ u, exec i s = .fault (.phaseUnset u) ∧ u.faultedModel = true ∧ u.trace = s.trace ∧ u.panel = s.panel ∧
      u.dc = .unset

/-- Refusals for width (R140): a bus word too wide for the bus, a sample or native colour too wide for the pixel format. The mark
is set and nothing else changes; a burst is refused whole. That these refusals come before the ones for ownership is the model's
choice (notes/assumptions/10.md); so are the pixel format before a driver exists (3.md) and the bus-cycle rows as instructions
(5.md). -/
def Obligations.TooWideOperandsRefused : Prop :=
  ∀ (s : State) (i : Instr),
    ((∃ w, i = .busCmd w ∧ wordFits s.cfg.busWidth w.toNat = false) ∨
      (∃ w, i = .busData w ∧ wordFits s.cfg.busWidth w.toNat = false) ∨
      (∃ w, i = .write w ∧ wordFits s.cfg.busWidth w = false) ∨
      (∃ ws, i = .burst ws ∧ ∃ w ∈ ws, wordFits s.cfg.busWidth w = false) →
      exec i s = .refused (.wordTooWide { s with refused := true })) ∧
    ((∃ ss, i = .stream ss ∧ ∃ x ∈ ss, sampleFits s.icfg.pixelFormat x = false) ∨
      (∃ x0 y0 x1 y1 x, i = .fill x0 y0 x1 y1 (.native x) ∧ sampleFits s.icfg.pixelFormat x = false) ∨
      (∃ x, i = .clear (.native x) ∧ sampleFits s.icfg.pixelFormat x = false) ∨
      (∃ ps, i = .draw ps ∧ ∃ q ∈ ps, ∃ x, q.color = .native x ∧ sampleFits s.icfg.pixelFormat x = false) →
      exec i s = .refused (.sampleTooWide { s with refused := true }))

/-- Refusals for ownership (R26, R140): a raw PBE call, or CMD, without a transport; a raw PBE call under a driver; TRANSPORT_NEW
without the handle (which the spec's syntax cannot write; the model refuses it, notes/assumptions/11.md); a PSQ call without a
driver. RESET_PULSE without a driver is refused so too, and under a driver without a reset pin it is refused noResetPin (R113: only
if HAS_RST); that CMD and RESET_PULSE are refused, and by which name, is the model's choice (notes/assumptions/6.md). -/
def Obligations.OwnershipRefusals : Prop :=
  ∀ (s : State) (i : Instr),
    (((∃ p, i = .select p) ∨ (∃ w, i = .write w ∧ wordFits s.cfg.busWidth w = true) ∨
        (∃ ws, i = .burst ws ∧ ∀ w ∈ ws, wordFits s.cfg.busWidth w = true)) →
      (s.owner = .none → exec i s = .refused (.noTransport { s with refused := true })) ∧
      (s.owner = .driver → exec i s = .refused (.rawAfterDriver { s with refused := true }))) ∧
    ((∃ op ps, i = .cmd op ps) → s.owner = .none → exec i s = .refused (.noTransport { s with refused := true })) ∧
    ((∃ w a b c d, i = .transportNew w a b c d) → s.handle = false →
      exec i s = .refused (.noHandle { s with refused := true })) ∧
    (s.owner ≠ .driver → i = .init ∨ i = .bbox ∨ (∃ on, i = .backlight on) ∨ i = .resetPulse ∨
        (drawsPanel i = true ∧ samplesFit s.icfg.pixelFormat i = true) →
      exec i s = .refused (.noDriver { s with refused := true })) ∧
    (s.owner = .driver → s.rstPin = none → i = .resetPulse →
      exec i s = .refused (.noResetPin { s with refused := true }))

/-- A line of HOST's program that is no call is refused where it is fetched; the mark is set, nothing else changes, and the
statement index does not advance. Such are a line that spells no operation, one whose operand list has no end (R90, R140; the texts
themselves are notes/assumptions/12.md and 16.md), one that names a bus cycle or a step HOST cannot call (R74), and CMD under a
driver, whose expansion begins with SELECT (R94, R140). -/
def Obligations.UndecodableLineRefused : Prop :=
  ∀ (s : State) (l : Line), s.faultedModel = false → s.refused = false → s.probe = none → s.pending = [] →
    s.prog[s.idx]? = some l →
    (decode s.cfg.opcodes l = .error .infiniteSequence →
      step s = .refused (.infiniteSequence { s with refused := true })) ∧
    (∀ e, decode s.cfg.opcodes l = .error e → e ≠ .infiniteSequence →
      step s = .refused (.undecodable e { s with refused := true })) ∧
    (∀ i, decode s.cfg.opcodes l = .ok i →
      (i ∈ [.slpout, .colmod, .madctl, .caset, .raset, .ramwr, .dispon, .enginePull, .engineEmit, .resetPulse] ∨
        (∃ w, i = .busCmd w) ∨ (∃ w, i = .busData w) ∨ ∃ us, i = .delay us) →
      step s = .refused (.notCallable { s with refused := true })) ∧
    (∀ op ps, decode s.cfg.opcodes l = .ok (.cmd op ps) → s.owner = .driver →
      step s = .refused (.rawAfterDriver { s with refused := true }))

/-! ## The Panel Sequencer: construction and initialization -/

/-- DRIVER_NEW (R109): refused without a transport; else the transport is consumed, and the geometry check comes first, then the
format check; one that fails leaves no driver; one that succeeds leaves CTRL = Uninitialized and the given geometry and
configuration, a pin that is given starts Unset, and nothing is sent; the panel model is then the reading of TRACE under that
geometry and format (D27; that it reads TRACE again from its first event is the model's choice, notes/assumptions/3.md). -/
def Obligations.DriverNewOutcomes : Prop :=
  ∀ (s : State) (rst bl : Option PinId) (width height : Nat) (rot : Rotation) (mirror : Bool) (order : ColorOrder)
    (pf : PixelFormat),
    (s.owner ≠ .transport →
      exec (.driverNew rst bl width height rot mirror order pf) s = .refused (.noTransport { s with refused := true })) ∧
    (s.owner = .transport → ¬(1 ≤ width ∧ width ≤ 65535 ∧ 1 ≤ height ∧ height ≤ 65535) →
      exec (.driverNew rst bl width height rot mirror order pf) s =
        .next { s with owner := .none, result := some (.err (.configuration .badGeometry)) }) ∧
    (s.owner = .transport → 1 ≤ width ∧ width ≤ 65535 ∧ 1 ≤ height ∧ height ≤ 65535 →
      s.cfg.busWidth = .w16 → (pf = .pf18 ∨ pf = .pf24) →
      exec (.driverNew rst bl width height rot mirror order pf) s =
        .next { s with owner := .none, result := some (.err (.configuration .unsupportedFormat)) }) ∧
    (s.owner = .transport → 1 ≤ width ∧ width ≤ 65535 ∧ 1 ≤ height ∧ height ≤ 65535 →
      (s.cfg.busWidth = .w16 → pf = .pf16) →
      exec (.driverNew rst bl width height rot mirror order pf) s = .next { s with
        rstPin := rst, blPin := bl
        rst := (match rst with | some _ => .unset | none => s.rst)
        bl := (match bl with | some _ => .unset | none => s.bl)
        geom := { width := width, height := height, rotation := rot }
        icfg := { mirror := mirror, colorOrder := order, pixelFormat := pf }
        panel := s.trace.foldl (Panel.take s.cfg { width := width, height := height, rotation := rot }
          { mirror := mirror, colorOrder := order, pixelFormat := pf }) Panel.initial
        ctrl := .uninitialized, owner := .driver, result := some (.ok .unit) })

/-- CMD (R111): the opcode in Command phase, then, where there are parameters, these in Data phase immediately after it. The first
SELECT that fails ends it with BusFault(DC): the opcode, where it was written, is on the bus and no parameter is. That CMD runs as
an instruction over a transport and under a driver, and leaves its result, is the model's choice (notes/assumptions/6.md); HOST's
line CMD under a driver is refused (UndecodableLineRefused). -/
def Obligations.CmdSendsFrame : Prop :=
  ∀ (s : State) (op : Byte) (ps : List Byte), s.owner ≠ .none → s.phaseKnown →
    (s.pinsHold (if ps = [] then 1 else 2) →
      ∃ t, exec (.cmd op ps) s = .next t ∧ BusAndResult s t ∧ t.result = some (.ok .unit) ∧
        Emits s ([.sel .command, .cyc .command (byteWord op)] ++
          (if ps = [] then [] else .sel .data :: ps.map (fun b => .cyc .data (byteWord b)))) t ∧
        t.dc = (if ps = [] then .low else .high)) ∧
    (s.pinAnswer 0 = true →
      ∃ t, exec (.cmd op ps) s = .next t ∧ BusAndResult s t ∧ t.result = some (.err (.busFault .dc)) ∧ t.dc = .unset ∧
        t.pending = [] ∧ t.trace = s.settledTrace ++ [.pinFault .dc]) ∧
    (ps ≠ [] → s.pinAnswer 0 = false → s.pinAnswer 1 = true →
      ∃ t, exec (.cmd op ps) s = .next t ∧ BusAndResult s t ∧ t.result = some (.err (.busFault .dc)) ∧ t.dc = .unset ∧
        t.pending = [] ∧
        t.trace = s.settledTrace ++ [.sel .command, .cyc .command (byteWord op), .pinFault .dc])

/-- DELAY drains and records the delay; `DELAY(0)` drains and emits nothing (R112). That it runs as an instruction, with every OWNER,
and leaves a result, is the model's choice (notes/assumptions/6.md; HOST's program cannot call it). -/
def Obligations.DelayDrainsThenRecords : Prop :=
  ∀ (s : State) (us : Nat), s.phaseKnown →
    ∃ t, exec (.delay us) s = .next t ∧ BusAndResult s t ∧ t.result = some (.ok .unit) ∧ t.pending = [] ∧ t.dc = s.dc ∧
      t.env = s.env ∧ t.trace = s.settledTrace ++ (if us = 0 then [] else [.delay us]) ∧ t.panel = s.settledPanel

/-- RESET_PULSE (R113): low, the pulse width, high, the settle time. A drive of RST that fails ends it there with BusFault(RST) and
RST Unset. The panel is reset (R66, general knowledge by the spec's own mark, notes/assumptions/14.md; that the unread cursor is kept
is the model's reading). That it runs as an instruction is the model's choice (6.md; HOST's program cannot call it). -/
def Obligations.ResetPulseDrivesLowThenHigh : Prop :=
  ∀ s : State, s.owner = .driver → s.rstPin ≠ none → s.phaseKnown →
    (s.pinsHold 2 →
      ∃ t, exec .resetPulse s = .next t ∧ SequencerOnly s t ∧ t.ctrl = s.ctrl ∧ t.dc = s.dc ∧
        t.result = some (.ok .unit) ∧ t.rst = .high ∧ t.pending = [] ∧
        t.trace = s.settledTrace ++ [.rst .low] ++ (if s.cfg.tRstLowUs = 0 then [] else [.delay s.cfg.tRstLowUs]) ++
          [.rst .high] ++ (if s.cfg.tRstSettleUs = 0 then [] else [.delay s.cfg.tRstSettleUs]) ∧
        t.panel = { Panel.initial with cx := s.settledPanel.cx, cy := s.settledPanel.cy }) ∧
    (s.pinAnswer 0 = true →
      ∃ t, exec .resetPulse s = .next t ∧ SequencerOnly s t ∧ t.ctrl = s.ctrl ∧ t.dc = s.dc ∧
        t.result = some (.err (.busFault .rst)) ∧ t.rst = .unset ∧ t.pending = [] ∧
        t.trace = s.settledTrace ++ [.pinFault .rst]) ∧
    (s.pinAnswer 0 = false → s.pinAnswer 1 = true →
      ∃ t, exec .resetPulse s = .next t ∧ SequencerOnly s t ∧ t.ctrl = s.ctrl ∧ t.dc = s.dc ∧
        t.result = some (.err (.busFault .rst)) ∧ t.rst = .unset ∧ t.pending = [] ∧
        t.trace = s.settledTrace ++ [.rst .low] ++ (if s.cfg.tRstLowUs = 0 then [] else [.delay s.cfg.tRstLowUs]) ++
          [.pinFault .rst])

/-- INIT where no pin drive fails, from every controller state but Faulted and for every parameter, geometry and configuration: the
reset phase, every entry of EXTRA_INIT in order, SLPOUT, COLMOD with the format's byte, MADCTL with the byte of rotation, mirror and
colour order, and DISPON have gone out (R114, R117) and the panel has read them, nothing is queued, CTRL = Ready, RST is High where
there is a reset pin, and BL is untouched (R117, R118). (What the panel does at a hardware reset is R66's, general knowledge by the
spec's own mark, notes/assumptions/14.md.) -/
def Obligations.InitRunsSequence : Prop :=
  ∀ s : State, s.owner = .driver → s.ctrl ≠ .faulted → s.phaseKnown → s.pinsHold (initDrives s) →
    ∃ t, exec .init s = .next t ∧ SequencerOnly s t ∧ t.result = some (.ok .unit) ∧ t.ctrl = .ready ∧ t.pending = [] ∧
      t.rst = (match s.rstPin with | some _ => .high | none => s.rst) ∧
      t.trace = s.settledTrace ++ initEvents s.cfg s.geom s.icfg s.rstPin.isSome ∧ t.bl = s.bl ∧
      t.panel = (initEvents s.cfg s.geom s.icfg s.rstPin.isSome).foldl (Panel.take s.cfg s.geom s.icfg) s.settledPanel

/-- INIT under the default opcodes and byte tables, with a reset pin and non-zero delays, where no pin drive fails: exec of INIT
appends to TRACE the list R117 writes out, EXTRA_INIT's entries standing between the reset and SLPOUT, with the COLMOD byte of each
format and the MADCTL byte of each rotation, mirror and colour order (the bytes are general knowledge by the spec's own mark,
notes/assumptions/14.md). -/
def Obligations.InitTraceOfDefaults : Prop :=
  ∀ s : State, s.owner = .driver → s.ctrl ≠ .faulted → s.phaseKnown → s.pinsHold (initDrives s) → s.rstPin ≠ none →
    s.cfg.opcodes = Opcodes.default → s.cfg.colmodOf = ColmodTable.default → s.cfg.madctlOf = MadctlTable.default →
    0 < s.cfg.tRstLowUs → 0 < s.cfg.tRstSettleUs → 0 < s.cfg.tSlpoutUs → 0 < s.cfg.tDisponUs →
    ∃ t, exec .init s = .next t ∧ t.ctrl = .ready ∧ t.result = some (.ok .unit) ∧
      t.trace = s.settledTrace ++
        [.rst .low, .delay s.cfg.tRstLowUs, .rst .high, .delay s.cfg.tRstSettleUs] ++
        s.cfg.extraInit.flatMap (fun e => [.sel .command, .cyc .command (byteWord e.opcode)] ++
          (if e.params = [] then [] else .sel .data :: e.params.map (fun b => .cyc .data (byteWord b))) ++
          (if e.delayUs = 0 then [] else [.delay e.delayUs])) ++
        [.sel .command, .cyc .command 0x11, .delay s.cfg.tSlpoutUs,
         .sel .command, .cyc .command 0x3A, .sel .data,
         .cyc .data (match s.icfg.pixelFormat with | .pf16 => 0x55 | .pf18 => 0x66 | .pf24 => 0x77),
         .sel .command, .cyc .command 0x36, .sel .data,
         .cyc .data (((match s.geom.rotation with | .r0 => 0x00 | .r90 => 0x60 | .r180 => 0xC0 | .r270 => 0xA0) ^^^
           (if s.icfg.mirror then 0x40 else 0)) ||| (match s.icfg.colorOrder with | .bgr => 0x08 | .rgb => 0)),
         .sel .command, .cyc .command 0x29, .delay s.cfg.tDisponUs]

/-- INIT answers Ready and Ok, or Faulted and the BusFault of a pin whose failure is the last event and after which nothing is
sent (R117, R120, R145). -/
def Obligations.InitEndsReadyOrFaulted : Prop :=
  ∀ s t : State, s.owner = .driver → s.ctrl ≠ .faulted → s.phaseKnown → exec .init s = .next t →
    (t.ctrl = .ready ∧ t.result = some (.ok .unit)) ∨
    (∃ p, t.ctrl = .faulted ∧ t.result = some (.err (.busFault p)) ∧ t.trace.getLast? = some (.pinFault p) ∧
      t.pending = [] ∧ ((p = .dc ∧ t.dc = .unset) ∨ (p = .rst ∧ t.rst = .unset)))

/-- BACKLIGHT (R119), in every controller state: refused without a driver or a backlight pin; else the pin is driven without a drain
(the queued words stay queued), or its drive fails. -/
def Obligations.BacklightDrivesWithoutDrain : Prop :=
  ∀ (s : State) (on : Bool),
    (s.owner ≠ .driver → exec (.backlight on) s = .refused (.noDriver { s with refused := true })) ∧
    (s.owner = .driver → s.blPin = none → exec (.backlight on) s = .refused (.noBacklightPin { s with refused := true })) ∧
    (s.owner = .driver → s.blPin ≠ none → s.pinAnswer 0 = false →
      exec (.backlight on) s = .next { s with
        bl := (if on then .high else .low), trace := s.trace ++ [.bl (if on then .high else .low)]
        env := s.pinDrawn.env, result := some (.ok .unit) }) ∧
    (s.owner = .driver → s.blPin ≠ none → s.pinAnswer 0 = true →
      exec (.backlight on) s = .next { s with
        bl := .unset, trace := s.trace ++ [.pinFault .bl], env := s.pinDrawn.env
        result := some (.err (.busFault .bl)) })

/-- The default parameter bytes (R115, R116, spec/95_test_vectors.md I8). -/
def Obligations.DefaultParameterBytes : Prop :=
  (∀ pf, colmodByte ColmodTable.default pf = (match pf with | .pf16 => 0x55 | .pf18 => 0x66 | .pf24 => 0x77)) ∧
  ∀ rot mirror order, madctlByte MadctlTable.default rot mirror order =
    ((match rot with | .r0 => (0x00 : Byte) | .r90 => 0x60 | .r180 => 0xC0 | .r270 => 0xA0) ^^^
      (if mirror then 0x40 else 0)) ||| (match order with | .bgr => 0x08 | .rgb => 0)

/-! ## The Panel Sequencer: addressing and pixel streaming -/

/-- Every drawing operation is refused without a driver, and outside Ready returns NotInitialized, emits nothing and changes nothing
(R121); so does INIT in Faulted (R117). -/
def Obligations.NotReadyChangesNothing : Prop :=
  ∀ (s : State) (i : Instr),
    (drawsPanel i = true → samplesFit s.icfg.pixelFormat i = true → s.owner ≠ .driver →
      exec i s = .refused (.noDriver { s with refused := true })) ∧
    (drawsPanel i = true → samplesFit s.icfg.pixelFormat i = true → s.owner = .driver → s.ctrl ≠ .ready →
      exec i s = .next { s with result := some (.err .notInitialized) }) ∧
    (s.owner = .driver → s.ctrl = .faulted → exec .init s = .next { s with result := some (.err .notInitialized) })

/-- SET_WINDOW of a legal window: CASET and RASET with the boundaries as big-endian pairs, then RAMWR (R127, R77). -/
def Obligations.SetWindowAddresses : Prop :=
  ∀ (s : State) (x0 y0 x1 y1 : Coord), s.owner = .driver → s.ctrl = .ready → s.phaseKnown → s.pinsHold 5 →
    x0.toNat ≤ x1.toNat → x1.toNat < s.geom.width → y0.toNat ≤ y1.toNat → y1.toNat < s.geom.height →
    ∃ t, exec (.setWindow x0 y0 x1 y1) s = .next t ∧ BusAndResult s t ∧ t.result = some (.ok .unit) ∧ t.dc = .low ∧
      Emits s
        [.sel .command, .cyc .command (byteWord s.cfg.opcodes.caset), .sel .data,
         .cyc .data (BitVec.ofNat 16 (x0.toNat / 256)), .cyc .data (BitVec.ofNat 16 (x0.toNat % 256)),
         .cyc .data (BitVec.ofNat 16 (x1.toNat / 256)), .cyc .data (BitVec.ofNat 16 (x1.toNat % 256)),
         .sel .command, .cyc .command (byteWord s.cfg.opcodes.raset), .sel .data,
         .cyc .data (BitVec.ofNat 16 (y0.toNat / 256)), .cyc .data (BitVec.ofNat 16 (y0.toNat % 256)),
         .cyc .data (BitVec.ofNat 16 (y1.toNat / 256)), .cyc .data (BitVec.ofNat 16 (y1.toNat % 256)),
         .sel .command, .cyc .command (byteWord s.cfg.opcodes.ramwr)] t

/-- SET_WINDOW and FILL of an illegal window return OutOfBounds with the window, and nothing else changes (R126, R127, R129). -/
def Obligations.IllegalWindowChangesNothing : Prop :=
  ∀ (s : State) (x0 y0 x1 y1 : Coord) (c : Color), s.owner = .driver → s.ctrl = .ready →
    (s.geom.width ≤ x1.toNat ∨ s.geom.height ≤ y1.toNat ∨ x1.toNat < x0.toNat ∨ y1.toNat < y0.toNat) →
    c.fits s.icfg.pixelFormat = true →
    exec (.setWindow x0 y0 x1 y1) s = .next { s with result := some (.err (.outOfBoundsWindow x0 y0 x1 y1)) } ∧
    exec (.fill x0 y0 x1 y1 c) s = .next { s with result := some (.err (.outOfBoundsWindow x0 y0 x1 y1)) }

/-- STREAM in Ready (R128): Data is selected once, then every sample's words go out in order; how many samples there are is not
checked. Where the one SELECT fails nothing is sent. -/
def Obligations.StreamSelectsOnce : Prop :=
  ∀ (s : State) (ss : List Nat), s.owner = .driver → s.ctrl = .ready → s.phaseKnown →
    (∀ x ∈ ss, sampleFits s.icfg.pixelFormat x = true) →
    (s.pinsHold 1 →
      ∃ t, exec (.stream ss) s = .next t ∧ BusAndResult s t ∧ t.result = some (.ok .unit) ∧ t.dc = .high ∧
        Emits s (.sel .data :: (ss.flatMap (fun x =>
          serialize s.cfg.busWidth s.icfg.pixelFormat (BitVec.ofNat 24 x))).map (fun w => .cyc .data w)) t) ∧
    (s.pinAnswer 0 = true →
      ∃ t, exec (.stream ss) s = .next t ∧ BusAndResult s t ∧ t.result = some (.err (.busFault .dc)) ∧ t.dc = .unset ∧
        t.pending = [] ∧ t.trace = s.settledTrace ++ [.pinFault .dc])

/-- FILL of a legal window: the window, one Data selection, and the converted colour as often as the window has pixels (R129). -/
def Obligations.FillSendsArea : Prop :=
  ∀ (s : State) (x0 y0 x1 y1 : Coord) (c : Color), s.owner = .driver → s.ctrl = .ready → s.phaseKnown → s.pinsHold 6 →
    c.fits s.icfg.pixelFormat = true →
    x0.toNat ≤ x1.toNat → x1.toNat < s.geom.width → y0.toNat ≤ y1.toNat → y1.toNat < s.geom.height →
    ∃ t, exec (.fill x0 y0 x1 y1 c) s = .next t ∧ BusAndResult s t ∧ t.result = some (.ok .unit) ∧
      Emits s (windowEvents s.cfg.opcodes x0 y0 x1 y1 ++
        streamEvents s.cfg.busWidth s.icfg.pixelFormat
          (List.replicate ((x1.toNat - x0.toNat + 1) * (y1.toNat - y0.toNat + 1)) (convert s.icfg.pixelFormat c))) t

/-- CLEAR is FILL of the full panel, whatever comes of it; in Ready, where no pin drive fails, it sends the window of the whole panel
and one converted colour a pixel (R130). -/
def Obligations.ClearIsFullFill : Prop :=
  ∀ (s : State) (c : Color),
    exec (.clear c) s =
      exec (.fill 0 0 (BitVec.ofNat 16 (s.geom.width - 1)) (BitVec.ofNat 16 (s.geom.height - 1)) c) s ∧
    (s.owner = .driver → s.ctrl = .ready → s.phaseKnown → s.pinsHold 6 →
      c.fits s.icfg.pixelFormat = true → 1 ≤ s.geom.width → s.geom.width ≤ 65535 → 1 ≤ s.geom.height →
      s.geom.height ≤ 65535 →
      ∃ t, exec (.clear c) s = .next t ∧ BusAndResult s t ∧ t.result = some (.ok .unit) ∧
        Emits s (windowEvents s.cfg.opcodes 0 0 (BitVec.ofNat 16 (s.geom.width - 1)) (BitVec.ofNat 16 (s.geom.height - 1)) ++
          streamEvents s.cfg.busWidth s.icfg.pixelFormat
            (List.replicate (s.geom.width * s.geom.height) (convert s.icfg.pixelFormat c))) t)

/-- DRAW under CLIP_POLICY = Skip, or of pixels that are all on the panel: one 1×1 window and one converted sample for each pixel on
the panel, in list order; pixels off the panel are dropped without bus activity and without error (R131, R132). -/
def Obligations.DrawSendsPixelsOnPanel : Prop :=
  ∀ (s : State) (ps : List Pixel), s.owner = .driver → s.ctrl = .ready → s.phaseKnown →
    (s.cfg.clipPolicy = .skip ∨ ∀ q ∈ ps, onPanel s.geom q.x q.y = true) →
    s.geom.width ≤ 65535 → s.geom.height ≤ 65535 → (∀ q ∈ ps, q.color.fits s.icfg.pixelFormat = true) →
    s.pinsHold (drawDrives s ps) →
    ∃ t, exec (.draw ps) s = .next t ∧ BusAndResult s t ∧ t.result = some (.ok .unit) ∧ Emits s (drawEvents s ps) t

/-- DRAW under CLIP_POLICY = Error: the pixels before the first one off the panel are drawn, and OutOfBounds is returned with that
point (R131). -/
def Obligations.DrawErrorPolicyStopsAtPoint : Prop :=
  ∀ (s : State) (before after : List Pixel) (q : Pixel), s.owner = .driver → s.ctrl = .ready → s.phaseKnown →
    s.cfg.clipPolicy = .error → s.geom.width ≤ 65535 → s.geom.height ≤ 65535 →
    (∀ r ∈ before ++ q :: after, r.color.fits s.icfg.pixelFormat = true) →
    (∀ r ∈ before, onPanel s.geom r.x r.y = true) → onPanel s.geom q.x q.y = false → s.pinsHold (6 * before.length) →
    ∃ t, exec (.draw (before ++ q :: after)) s = .next t ∧ BusAndResult s t ∧
      t.result = some (.err (.outOfBoundsPoint q.x q.y)) ∧ Emits s (before.flatMap (pixelEvents s)) t

/-- BBOX returns the panel's rectangle in every controller state, and nothing else changes (R133). -/
def Obligations.BboxReturnsRectangle : Prop :=
  ∀ s : State, s.owner = .driver →
    exec .bbox s = .next { s with result := some (.ok (.rect 0 0 s.geom.width s.geom.height)) }

/-- The numeric codes of what an operation returns (R136): 0 Ok, 1 ConfigurationError with the reasons 1 to 4, 2 NotInitialized, 3
OutOfBounds with a window or a point, 4 BusFault. -/
def Obligations.ErrorCodes : Prop :=
  (∀ v, (Result.ok v).code = 0) ∧ (∀ r, (Result.err (.configuration r)).code = 1) ∧
  (Result.err .notInitialized).code = 2 ∧
  (∀ x0 y0 x1 y1, (Result.err (.outOfBoundsWindow x0 y0 x1 y1)).code = 3) ∧
  (∀ x y, (Result.err (.outOfBoundsPoint x y)).code = 3) ∧ (∀ p, (Result.err (.busFault p)).code = 4) ∧
  ConfigReason.widthMismatch.code = 1 ∧ ConfigReason.installFailed.code = 2 ∧ ConfigReason.badGeometry.code = 3 ∧
  ConfigReason.unsupportedFormat.code = 4

/-- The frame of the bus and drawing operations and of the bus-cycle rows: whatever they return, they change only the bus side and
the returned result; in particular no drawing operation changes the controller state, and RST and BL keep their levels (R110,
R145). That CMD and DELAY run as instructions is the model's choice (notes/assumptions/6.md), and so is what a bus-cycle row on its
own does (5.md). -/
def Obligations.BusOperationsFrame : Prop :=
  ∀ (s t : State) (i : Instr),
    (drawsPanel i = true ∨ (∃ p, i = .select p) ∨ (∃ w, i = .write w) ∨ (∃ ws, i = .burst ws) ∨
      (∃ op ps, i = .cmd op ps) ∨ (∃ us, i = .delay us) ∨
      i ∈ [.slpout, .colmod, .madctl, .caset, .raset, .ramwr, .dispon] ∨ ∃ w, i = .busCmd w ∨ i = .busData w) →
    exec i s = .next t → BusAndResult s t

/-- A BusFault of a drawing operation leaves DC Unset and CTRL Ready; the failure is the last event and nothing is queued (R138,
R144, R145). -/
def Obligations.DrawingBusFault : Prop :=
  ∀ (s t : State) (i : Instr) (p : Pin), s.owner = .driver → s.phaseKnown → drawsPanel i = true → exec i s = .next t →
    t.result = some (.err (.busFault p)) →
    p = .dc ∧ t.dc = .unset ∧ t.ctrl = .ready ∧ t.pending = [] ∧ t.trace.getLast? = some (.pinFault .dc)

/-- CONVERT truncates each channel to the format's depth, red in the high bits, and leaves a native colour as it is (R122). The
packings of PF18 and PF24 are the spec's own and general knowledge (notes/assumptions/14.md). -/
def Obligations.ConvertTruncates : Prop :=
  (∀ r g b : Byte,
    (convert .pf16 (.rgb888 r g b)).toNat = r.toNat / 8 * 2048 + g.toNat / 4 * 32 + b.toNat / 8 ∧
    (convert .pf18 (.rgb888 r g b)).toNat = r.toNat / 4 * 4096 + g.toNat / 4 * 64 + b.toNat / 4 ∧
    (convert .pf24 (.rgb888 r g b)).toNat = r.toNat * 65536 + g.toNat * 256 + b.toNat) ∧
  ∀ pf x, sampleFits pf x = true → (convert pf (.native x)).toNat = x

/-- Under PF16 two colours convert identically exactly when they are equal after truncation (R125). -/
def Obligations.ConvertMergesTruncated : Prop :=
  ∀ r g b r' g' b' : Byte, convert .pf16 (.rgb888 r g b) = convert .pf16 (.rgb888 r' g' b') ↔
    r.toNat / 8 = r'.toNat / 8 ∧ g.toNat / 4 = g'.toNat / 4 ∧ b.toNat / 8 = b'.toNat / 8

/-- SERIALIZE lays a sample out most significant word first, a 6-bit field in the upper six bits of its word (R123); so it gives WPS
words that fit the bus (R124), and DESERIALIZE gives the sample back (R62). -/
def Obligations.SerializeRoundTrips : Prop :=
  (∀ x : Sample, sampleFits .pf16 x.toNat = true →
    (serialize .w16 .pf16 x).map BitVec.toNat = [x.toNat] ∧
    (serialize .w8 .pf16 x).map BitVec.toNat = [x.toNat / 256, x.toNat % 256]) ∧
  (∀ x : Sample, sampleFits .pf18 x.toNat = true →
    (serialize .w8 .pf18 x).map BitVec.toNat = [x.toNat / 4096 * 4, x.toNat / 64 % 64 * 4, x.toNat % 64 * 4]) ∧
  (∀ x : Sample, (serialize .w8 .pf24 x).map BitVec.toNat = [x.toNat / 65536, x.toNat / 256 % 256, x.toNat % 256]) ∧
  ∀ (bw : BusWidth) (pf : PixelFormat) (x : Sample), (bw = .w16 → pf = .pf16) → sampleFits pf x.toNat = true →
    (serialize bw pf x).length = (match bw, pf with | .w16, _ => 1 | .w8, .pf16 => 2 | .w8, _ => 3) ∧
    (∀ w ∈ serialize bw pf x, wordFits bw w.toNat = true) ∧ deserialize bw pf (serialize bw pf x) = x

/-! ## The panel -/

/-- The seven named command cycles, each on its own: what is queued goes out first, Command is selected, and then the pins carry the
opcode through one strobe and the panel takes it (R59, R61, R81 to R87); where the selection fails there is no cycle (R138). That a
row on its own is `SELECT; WRITE; Drain`, under any owner, is the model's choice (notes/assumptions/5.md). -/
def Obligations.CommandCyclesReachPanel : Prop :=
  ∀ s : State, s.phaseKnown → s.cfg.opcodes.distinct →
    ∀ (i : Instr) (op : Byte) (q : Panel),
      (i, op, q) ∈ [
        (Instr.slpout, s.cfg.opcodes.slpout, { s.settledPanel with mode := .other, awake := true }),
        (.colmod, s.cfg.opcodes.colmod, { s.settledPanel with mode := .colmod }),
        (.madctl, s.cfg.opcodes.madctl, { s.settledPanel with mode := .madctl }),
        (.caset, s.cfg.opcodes.caset, { s.settledPanel with mode := .caset 0 }),
        (.raset, s.cfg.opcodes.raset, { s.settledPanel with mode := .raset 0 }),
        (.ramwr, s.cfg.opcodes.ramwr, { s.settledPanel with
          mode := .ramWrite, count := 0
          cx := (match s.settledPanel.win with | some w => w.1 | none => s.settledPanel.cx)
          cy := (match s.settledPanel.win with | some w => w.2.1 | none => s.settledPanel.cy) }),
        (.dispon, s.cfg.opcodes.dispon, { s.settledPanel with mode := .other, dispOn := true })] →
      (s.pinAnswer 0 = false →
        ∃ t, exec i s = .next t ∧ BusAndResult s t ∧ t.result = some (.ok .unit) ∧ t.pending = [] ∧ t.dc = .low ∧
          t.strobe = .released ∧ t.dataOut = byteWord op ∧
          t.trace = s.settledTrace ++ [.sel .command, .cyc .command (byteWord op)] ∧
          t.panel = { q with pbuf := [], bbuf := [] }) ∧
      (s.pinAnswer 0 = true →
        ∃ t, exec i s = .next t ∧ BusAndResult s t ∧ t.result = some (.err (.busFault .dc)) ∧ t.pending = [] ∧
          t.dc = .unset ∧ t.trace = s.settledTrace ++ [.pinFault .dc] ∧ t.panel = s.settledPanel)

/-- BUS_CMD on its own, of any word the bus has: what is queued goes out first, Command is selected, and then the pins carry the word
through one strobe; where the selection fails there is no cycle. The panel reads the low byte: one of the seven opcodes acts as the
named row does, any other changes only MODE (and empties the two buffers) (R59, R67, R89). That a row on its own is `SELECT; WRITE;
Drain` is the model's choice (notes/assumptions/5.md). -/
def Obligations.BusCmdReachesPanel : Prop :=
  ∀ (s : State) (w : BusWord), s.phaseKnown → wordFits s.cfg.busWidth w.toNat = true →
    (s.pinAnswer 0 = false →
      ∃ t, exec (.busCmd w) s = .next t ∧ BusAndResult s t ∧ t.result = some (.ok .unit) ∧ t.pending = [] ∧ t.dc = .low ∧
        t.strobe = .released ∧ t.dataOut = w ∧ t.trace = s.settledTrace ++ [.sel .command, .cyc .command w] ∧
        (lowByte w ∉ s.cfg.opcodes.all → t.panel = { s.settledPanel with mode := .other, pbuf := [], bbuf := [] }) ∧
        ∀ i op, (i, op) ∈ [(Instr.slpout, s.cfg.opcodes.slpout), (.colmod, s.cfg.opcodes.colmod),
            (.madctl, s.cfg.opcodes.madctl), (.caset, s.cfg.opcodes.caset), (.raset, s.cfg.opcodes.raset),
            (.ramwr, s.cfg.opcodes.ramwr), (.dispon, s.cfg.opcodes.dispon)] →
          lowByte w = op → ∃ u, exec i s = .next u ∧ t.panel = u.panel) ∧
    (s.pinAnswer 0 = true →
      ∃ t, exec (.busCmd w) s = .next t ∧ BusAndResult s t ∧ t.result = some (.err (.busFault .dc)) ∧ t.pending = [] ∧
        t.dc = .unset ∧ t.trace = s.settledTrace ++ [.pinFault .dc] ∧ t.panel = s.settledPanel)

/-- A Data cycle on its own: what is queued goes out first, Data is selected, and then the pins carry the word through one strobe;
where the selection fails there is no cycle. A range parameter is collected (R60), a COLMOD or MADCTL byte recorded, data in no such
mode makes the frame unknown (R65). That a row on its own is `SELECT; WRITE; Drain` is the model's choice (notes/assumptions/5.md). -/
def Obligations.DataCycleOutsidePixelData : Prop :=
  ∀ (s : State) (w : BusWord), s.phaseKnown → wordFits s.cfg.busWidth w.toNat = true →
    (s.pinAnswer 0 = false →
      ∃ t, exec (.busData w) s = .next t ∧ BusAndResult s t ∧ t.result = some (.ok .unit) ∧ t.pending = [] ∧ t.dc = .high ∧
        t.strobe = .released ∧ t.dataOut = w ∧ t.trace = s.settledTrace ++ [.sel .data, .cyc .data w] ∧
        (∀ k : Fin 4, k ≠ 3 → s.settledPanel.mode = .caset k →
          t.panel = { s.settledPanel with mode := .caset (k + 1), pbuf := s.settledPanel.pbuf ++ [lowByte w] }) ∧
        (∀ k : Fin 4, k ≠ 3 → s.settledPanel.mode = .raset k →
          t.panel = { s.settledPanel with mode := .raset (k + 1), pbuf := s.settledPanel.pbuf ++ [lowByte w] }) ∧
        (s.settledPanel.mode = .colmod →
          t.panel = { s.settledPanel with mode := .other, colmodV := some (lowByte w) }) ∧
        (s.settledPanel.mode = .madctl →
          t.panel = { s.settledPanel with mode := .other, madctlV := some (lowByte w) }) ∧
        (s.settledPanel.mode = .idle ∨ s.settledPanel.mode = .other →
          t.panel = { s.settledPanel with frame := [] })) ∧
    (s.pinAnswer 0 = true →
      ∃ t, exec (.busData w) s = .next t ∧ BusAndResult s t ∧ t.result = some (.err (.busFault .dc)) ∧ t.pending = [] ∧
        t.dc = .unset ∧ t.trace = s.settledTrace ++ [.pinFault .dc] ∧ t.panel = s.settledPanel)

/-- The fourth parameter of CASET or RASET completes a range from two big-endian pairs; a range that is reversed or leaves the
geometry makes the frame unknown and unsets itself (R60). The cycle is a BUS_DATA row on its own whose selection does not fail
(notes/assumptions/5.md). -/
def Obligations.FourthParameterSetsRange : Prop :=
  ∀ (s : State) (w : BusWord) (b0 b1 b2 : Byte), s.phaseKnown → s.pinAnswer 0 = false →
    wordFits s.cfg.busWidth w.toNat = true → s.settledPanel.pbuf = [b0, b1, b2] →
    (s.settledPanel.mode = .caset 3 →
      ∃ t, exec (.busData w) s = .next t ∧
        (256 * b0.toNat + b1.toNat ≤ 256 * b2.toNat + (lowByte w).toNat →
          256 * b2.toNat + (lowByte w).toNat < s.geom.width →
          t.panel = { s.settledPanel with
            mode := .other, pbuf := [b0, b1, b2, lowByte w]
            winc := some (256 * b0.toNat + b1.toNat, 256 * b2.toNat + (lowByte w).toNat) }) ∧
        (256 * b2.toNat + (lowByte w).toNat < 256 * b0.toNat + b1.toNat ∨
            s.geom.width ≤ 256 * b2.toNat + (lowByte w).toNat →
          t.panel = { s.settledPanel with
            mode := .other, pbuf := [b0, b1, b2, lowByte w], winc := none, frame := [] })) ∧
    (s.settledPanel.mode = .raset 3 →
      ∃ t, exec (.busData w) s = .next t ∧
        (256 * b0.toNat + b1.toNat ≤ 256 * b2.toNat + (lowByte w).toNat →
          256 * b2.toNat + (lowByte w).toNat < s.geom.height →
          t.panel = { s.settledPanel with
            mode := .other, pbuf := [b0, b1, b2, lowByte w]
            winr := some (256 * b0.toNat + b1.toNat, 256 * b2.toNat + (lowByte w).toNat) }) ∧
        (256 * b2.toNat + (lowByte w).toNat < 256 * b0.toNat + b1.toNat ∨
            s.geom.height ≤ 256 * b2.toNat + (lowByte w).toNat →
          t.panel = { s.settledPanel with
            mode := .other, pbuf := [b0, b1, b2, lowByte w], winr := none, frame := [] }))

/-- A Data cycle in memory-write mode: words are collected until a sample is whole; a whole sample inside the area is written at the
cursor, no other pixel changes and the cursor goes on in raster order; one past the area makes the window unknown, no pixel outside
it changes and the cursor stays; one with no window makes the frame unknown (R62, R63, R64). The cycle is a BUS_DATA row on its own
whose selection does not fail (notes/assumptions/5.md). -/
def Obligations.DataCycleWritesPixel : Prop :=
  ∀ (s : State) (w : BusWord), s.phaseKnown → s.pinAnswer 0 = false → wordFits s.cfg.busWidth w.toNat = true →
    s.settledPanel.mode = .ramWrite →
    ∃ t, exec (.busData w) s = .next t ∧ t.trace = s.settledTrace ++ [.sel .data, .cyc .data w] ∧
      (s.settledPanel.bbuf.length + 1 ≠ wordsPerSample s.cfg.busWidth s.icfg.pixelFormat →
        t.panel = { s.settledPanel with bbuf := s.settledPanel.bbuf ++ [w] }) ∧
      (s.settledPanel.bbuf.length + 1 = wordsPerSample s.cfg.busWidth s.icfg.pixelFormat →
        t.panel.bbuf = [] ∧ t.panel.mode = .ramWrite ∧
        (s.settledPanel.win = none → t.panel.frame = []) ∧
        ∀ xs ys xe ye, s.settledPanel.win = some (xs, ys, xe, ye) →
          t.panel.win = some (xs, ys, xe, ye) ∧ t.panel.count = s.settledPanel.count + 1 ∧
          (s.settledPanel.count < (xe - xs + 1) * (ye - ys + 1) →
            t.panel.pixel s.settledPanel.cx s.settledPanel.cy =
              some (deserialize s.cfg.busWidth s.icfg.pixelFormat (s.settledPanel.bbuf ++ [w])) ∧
            (∀ k, k ≠ pixelKey s.settledPanel.cx s.settledPanel.cy →
              t.panel.frame.read k = s.settledPanel.frame.read k) ∧
            (s.settledPanel.cx < xe → t.panel.cx = s.settledPanel.cx + 1 ∧
              (s.settledPanel.cy ≤ ye → t.panel.cy = s.settledPanel.cy)) ∧
            (xe ≤ s.settledPanel.cx → t.panel.cx = xs ∧
              (s.settledPanel.cy < ye → t.panel.cy = s.settledPanel.cy + 1) ∧
              (ye ≤ s.settledPanel.cy → t.panel.cy = ys))) ∧
          ((xe - xs + 1) * (ye - ys + 1) ≤ s.settledPanel.count →
            t.panel.cx = s.settledPanel.cx ∧ t.panel.cy = s.settledPanel.cy ∧
            ∀ x y, x < 65536 →
              t.panel.pixel x y = if xs ≤ x ∧ x ≤ xe ∧ ys ≤ y ∧ y ≤ ye then none else s.settledPanel.pixel x y))

/-- After a successful FILL, once the engine is idle, every pixel of the window holds the converted colour and no other pixel has
changed (R129, R63, R163). -/
def Obligations.FillSetsWindowContent : Prop :=
  ∀ (s : State) (x0 y0 x1 y1 : Coord) (c : Color), s.owner = .driver → s.ctrl = .ready → s.phaseKnown → s.pinsHold 6 →
    s.cfg.opcodes.distinct → c.fits s.icfg.pixelFormat = true → (s.cfg.busWidth = .w16 → s.icfg.pixelFormat = .pf16) →
    x0.toNat ≤ x1.toNat → x1.toNat < s.geom.width → y0.toNat ≤ y1.toNat → y1.toNat < s.geom.height →
    ∃ t, exec (.fill x0 y0 x1 y1 c) s = .next t ∧
      ∀ x y, x < 65536 →
        t.settledPanel.pixel x y =
          if x0.toNat ≤ x ∧ x ≤ x1.toNat ∧ y0.toNat ≤ y ∧ y ≤ y1.toNat then some (convert s.icfg.pixelFormat c)
          else s.settledPanel.pixel x y

/-- After a successful CLEAR, once the engine is idle, every pixel of the panel holds the converted colour (R135). -/
def Obligations.ClearSetsEveryPixel : Prop :=
  ∀ (s : State) (c : Color), s.owner = .driver → s.ctrl = .ready → s.phaseKnown → s.pinsHold 6 →
    s.cfg.opcodes.distinct → c.fits s.icfg.pixelFormat = true → (s.cfg.busWidth = .w16 → s.icfg.pixelFormat = .pf16) →
    1 ≤ s.geom.width → s.geom.width ≤ 65535 → 1 ≤ s.geom.height → s.geom.height ≤ 65535 →
    ∃ t, exec (.clear c) s = .next t ∧ t.result = some (.ok .unit) ∧
      ∀ x y, x < s.geom.width → y < s.geom.height →
        t.settledPanel.pixel x y = some (convert s.icfg.pixelFormat c)

/-- After a successful DRAW of a list of pixels under CLIP_POLICY = Skip, or of pixels that are all on the panel, once the engine is
idle: a coordinate that some pair on the panel names holds the converted colour of the last such pair in the list, and every other
pixel is as before (R131, R132). -/
def Obligations.DrawSetsListedPixels : Prop :=
  ∀ (s : State) (ps : List Pixel), s.owner = .driver → s.ctrl = .ready → s.phaseKnown →
    (s.cfg.clipPolicy = .skip ∨ ∀ q ∈ ps, onPanel s.geom q.x q.y = true) → s.pinsHold (drawDrives s ps) →
    s.cfg.opcodes.distinct → (∀ q ∈ ps, q.color.fits s.icfg.pixelFormat = true) →
    (s.cfg.busWidth = .w16 → s.icfg.pixelFormat = .pf16) → s.geom.width ≤ 65535 → s.geom.height ≤ 65535 →
    ∃ t, exec (.draw ps) s = .next t ∧ t.result = some (.ok .unit) ∧
      ∀ x y : Nat, x < 65536 →
        (∀ before q after, ps = before ++ q :: after → onPanel s.geom q.x q.y = true → q.x = (x : Int) → q.y = (y : Int) →
          (∀ r ∈ after, ¬(r.x = (x : Int) ∧ r.y = (y : Int))) →
          t.settledPanel.pixel x y = some (convert s.icfg.pixelFormat q.color)) ∧
        ((∀ q ∈ ps, onPanel s.geom q.x q.y = true → ¬(q.x = (x : Int) ∧ q.y = (y : Int))) →
          t.settledPanel.pixel x y = s.settledPanel.pixel x y)
end

