-- ==== Sys2Proof/Laws/Decode.lean ====
section
/-! SUPPORT. The lexer inverts the rendering of tokens, and each reader of operands inverts the tokens the encoder writes for them
(spec/30_encoding.md R93). -/

namespace Sys2Proof

/-! ## Bytes of a text line -/

theorem kw_spelling_word (k : Kw) : k.spelling ≠ [] ∧ k.spelling.all isWordByte = true := by
  cases k <;> decide

theorem kw_lexeme_spelling (k : Kw) : lexeme k.spelling = .ok (.kw k) := by
  cases k <;> decide

theorem Punct.byte_facts (p : Punct) :
    isWordByte p.byte = false ∧ isBlank p.byte = false ∧ p.byte ≠ 0x3B ∧ Punct.ofByte? p.byte = some p := by
  cases p <;> decide

theorem digitByte_facts (d : Fin 10) :
    isDigit (digitByte d) = true ∧ isWordByte (digitByte d) = true ∧ decDigit (digitByte d) = some d.val := by
  revert d; decide

/-- Every digit is below 10. -/
theorem decDigits_lt : ∀ (fuel n : Nat), ∀ d ∈ decDigits fuel n, d < 10
  | 0, _, d, h => by cases h
  | fuel + 1, n, d, h => by
    unfold decDigits at h
    split at h
    · simp at h; omega
    · rcases List.mem_cons.1 h with rfl | h
      · omega
      · exact decDigits_lt fuel _ d h

theorem decDigits_ne_nil (fuel n : Nat) : decDigits (fuel + 1) n ≠ [] := by
  unfold decDigits; split <;> simp

/-- The digits, least significant first, are those of the number. -/
theorem decDigits_value : ∀ (fuel n : Nat), n < fuel →
    (decDigits fuel n).foldr (fun d acc => 10 * acc + d) 0 = n
  | 0, _, h => by omega
  | fuel + 1, n, h => by
    unfold decDigits
    split
    · simp
    · rw [List.foldr_cons, decDigits_value fuel (n / 10) (by omega)]
      omega

/-- The number that spelled digits read as, most significant first. -/
theorem numberFrom_digits (ds : List Nat) (h : ∀ d ∈ ds, d < 10) (acc : Nat) :
    numberFrom 10 decDigit (ds.map digitByte) acc = some (ds.foldl (fun acc d => 10 * acc + d) acc) := by
  induction ds generalizing acc with
  | nil => rfl
  | cons d ds ih =>
    have hd := (digitByte_facts ⟨d, h d List.mem_cons_self⟩).2.2
    simp only at hd
    rw [List.map_cons, numberFrom, hd, List.foldl_cons]
    exact ih (fun e he => h e (List.mem_cons_of_mem _ he)) _

theorem Tok.spelling_num (n : Nat) :
    ∃ ds : List Nat, (Tok.num n).spelling = ds.map digitByte ∧ ds ≠ [] ∧ (∀ d ∈ ds, d < 10) ∧
      ds.foldl (fun acc d => 10 * acc + d) 0 = n := by
  refine ⟨(decDigits (n + 1) n).reverse, rfl, by simpa using decDigits_ne_nil n n, fun d hd => ?_, ?_⟩
  · exact decDigits_lt _ _ d (List.mem_reverse.1 hd)
  · rw [List.foldl_reverse]
    exact decDigits_value (n + 1) n (Nat.lt_succ_self n)

theorem isDigit_map_digitByte {ds : List Nat} (h : ∀ d ∈ ds, d < 10) : ∀ b ∈ ds.map digitByte, isDigit b = true := by
  intro b hb
  obtain ⟨d, hd, rfl⟩ := List.mem_map.1 hb
  exact (digitByte_facts ⟨d, h d hd⟩).1

theorem isWordByte_of_isDigit {b : Byte} (h : isDigit b = true) : isWordByte b = true := by
  simp [isWordByte, h]

theorem lexeme_num (n : Nat) : lexeme (Tok.num n).spelling = .ok (.num n) := by
  obtain ⟨ds, hs, hne, hlt, hv⟩ := Tok.spelling_num n
  have hdig := isDigit_map_digitByte hlt
  rw [hs]
  obtain ⟨d, ds', rfl⟩ := List.exists_cons_of_ne_nil hne
  have hhead : (List.map digitByte (d :: ds')).head?.any isDigit = true := by
    simpa using hdig _ (List.mem_cons_self)
  have hx : ¬((List.map digitByte (d :: ds')).take 2 = ascii "0x" ∧ 2 < (List.map digitByte (d :: ds')).length) := by
    rintro ⟨h, hl⟩
    cases ds' with
    | nil => simp at hl
    | cons e es =>
      have he := hdig (digitByte e) (by simp)
      have hb : digitByte e = 0x78 := by
        have h' : [digitByte d, digitByte e] = [(0x30 : Byte), 0x78] := h
        simp at h'
        exact h'.2
      rw [hb] at he
      exact absurd he (by decide)
  unfold lexeme
  rw [if_pos hhead]
  unfold number?
  rw [if_neg hx, numberFrom_digits _ hlt, hv]

/-! ## The lexer -/

theorem tokensFrom_word (ws rest run : List Byte) (h : ∀ b ∈ ws, isWordByte b = true) :
    tokensFrom (ws ++ rest) run = tokensFrom rest (run ++ ws) := by
  induction ws generalizing run with
  | nil => simp
  | cons b ws ih =>
    have hb := h b List.mem_cons_self
    rw [List.cons_append, tokensFrom, if_pos hb, ih _ (fun c hc => h c (List.mem_cons_of_mem _ hc))]
    simp

theorem tokensFrom_space (rest run : List Byte) : tokensFrom (0x20 :: rest) run = closeRun run (tokensFrom rest []) := by
  rw [tokensFrom, if_neg (by decide), if_pos (by decide)]

theorem closeRun_lexeme {run : List Byte} {t : Tok} (hne : run ≠ []) (h : lexeme run = .ok t)
    (rest : Except DecodeError (List Tok)) : closeRun run rest = rest.map (t :: ·) := by
  cases run with
  | nil => exact absurd rfl hne
  | cons b bs => simp [closeRun, h]

/-- One rendered token. -/
theorem tokensFrom_tok (t : Tok) (rest : List Byte) :
    tokensFrom (t.spelling ++ 0x20 :: rest) [] = (tokensFrom rest []).map (t :: ·) := by
  cases t with
  | kw k =>
    obtain ⟨hne, hw⟩ := (kw_spelling_word k)
    rw [show (Tok.kw k).spelling = k.spelling from rfl,
      tokensFrom_word _ _ _ (fun b hb => List.all_eq_true.1 hw b hb), List.nil_append, tokensFrom_space]
    exact closeRun_lexeme hne (kw_lexeme_spelling k) _
  | num n =>
    obtain ⟨ds, hs, hne, hlt, -⟩ := Tok.spelling_num n
    have hw : ∀ b ∈ (Tok.num n).spelling, isWordByte b = true := by
      rw [hs]; exact fun b hb => isWordByte_of_isDigit (isDigit_map_digitByte hlt b hb)
    rw [tokensFrom_word _ _ _ hw, List.nil_append, tokensFrom_space]
    exact closeRun_lexeme (by rw [hs]; simpa using hne) (lexeme_num n) _
  | punct p =>
    obtain ⟨h1, h2, h3, h4⟩ := p.byte_facts
    rw [show (Tok.punct p).spelling = [p.byte] from rfl, List.singleton_append, tokensFrom, if_neg (by simp [h1]),
      if_neg (by simp [h2]), if_neg h3, h4]
    simp only
    rw [tokensFrom_space]
    rfl

/-- The lexer reads back what was rendered. -/
theorem tokens_render (ts : List Tok) : tokens (render ts) = .ok ts := by
  unfold tokens
  induction ts with
  | nil => rfl
  | cons t ts ih =>
    rw [render, List.flatMap_cons, List.append_assoc, List.singleton_append, tokensFrom_tok]
    unfold render at ih
    rw [ih]
    rfl

/-- No byte of a rendered line is the third byte of a cycle word. -/
theorem render_bytes (ts : List Tok) : ∀ b ∈ render ts, b ≠ 0 ∧ b ≠ 1 := by
  intro b hb
  obtain ⟨t, -, hb⟩ := List.mem_flatMap.1 hb
  have hword : ∀ c : Byte, isWordByte c = true → c ≠ 0 ∧ c ≠ 1 := by
    intro c hc
    constructor <;> rintro rfl <;> exact absurd hc (by decide)
  rcases List.mem_append.1 hb with hb | hb
  · cases t with
    | kw k => exact hword b (List.all_eq_true.1 (kw_spelling_word k).2 b hb)
    | num n =>
      obtain ⟨ds, hs, -, hlt, -⟩ := Tok.spelling_num n
      rw [hs] at hb
      exact hword b (isWordByte_of_isDigit (isDigit_map_digitByte hlt b hb))
    | punct p =>
      have : b = p.byte := by simpa [Tok.spelling] using hb
      subst this
      cases p <;> decide
  · have : b = 0x20 := by simpa using hb
    subst this
    decide

/-- A rendered line is read as text. -/
theorem decode_render (o : Opcodes) (ts : List Tok) : decode o (render ts) = parse ts := by
  have hb := render_bytes ts
  have ht : decodeText (render ts) = parse ts := by rw [decodeText, tokens_render]; rfl
  unfold decode
  split
  · next b0 b1 b2 h =>
    have h2 := hb b2 (by rw [h]; simp)
    rw [if_neg (by tauto)]
    exact ht
  · exact ht

/-! ## Cycle words -/

/-- The three bytes of a cycle word. -/
theorem cycleLine_canonicalWord (p : Phase) (w : BusWord) :
    ∃ b0 b1 : Byte, cycleLine (canonicalWord p w) = [b0, b1, match p with | .command => 0 | .data => 1] ∧ b1 ++ b0 = w := by
  have happ : ∀ {m n : Nat} (a : BitVec m) (b : BitVec n), (a ++ b).toNat = a.toNat * 2 ^ n + b.toNat := by
    intro m n a b
    rw [BitVec.toNat_append, ← Nat.shiftLeft_add_eq_or_of_lt b.isLt, Nat.shiftLeft_eq]
  have hw := w.isLt
  refine ⟨(canonicalWord p w).extractLsb' 0 8, (canonicalWord p w).extractLsb' 8 8, ?_, ?_⟩
  · cases p <;> simp only [cycleLine, List.cons.injEq, and_true, true_and] <;> apply BitVec.eq_of_toNat_eq <;>
      simp only [canonicalWord, BitVec.toNat_setWidth, BitVec.extractLsb'_toNat, happ, Nat.shiftRight_eq_div_pow] <;>
      simp <;> omega
  · apply BitVec.eq_of_toNat_eq
    refine (happ _ _).trans ?_
    cases p <;>
      simp only [canonicalWord, BitVec.extractLsb'_toNat, happ, Nat.shiftRight_eq_div_pow] <;>
      simp <;> omega

/-- A cycle word decodes to the row it is. -/
theorem decode_cycleLine (o : Opcodes) (p : Phase) (w : BusWord) :
    decode o (cycleLine (canonicalWord p w)) = .ok (decodeCycle o p w) := by
  obtain ⟨b0, b1, h, hw⟩ := cycleLine_canonicalWord p w
  rw [h]
  cases p <;> simp [decode, phaseOfBit, hw]

/-! ## Readers of operands -/

theorem readNumbers1_toks (n : Nat) (ns : List Nat) : readNumbers1 (numberToks (n :: ns)) = .ok (n :: ns) := by
  induction ns generalizing n with
  | nil => rfl
  | cons m ms ih =>
    have := ih m
    simp only [numberToks, List.map_cons, joinCommas] at this ⊢
    rw [List.singleton_append, readNumbers1.eq_2, this]
    · rfl

theorem readNumbers_toks (ns : List Nat) : readNumbers (numberToks ns) = .ok ns := by
  cases ns with
  | nil => rfl
  | cons n ns =>
    have hne : numberToks (n :: ns) ≠ [] := by cases ns <;> simp [numberToks, joinCommas]
    rw [readNumbers, if_neg hne, readNumbers1_toks]

theorem takeNumbers_toks (ns : List Nat) (rest : List Tok) :
    takeNumbers ns.length (numbersThen ns rest) = .ok (ns, rest) := by
  induction ns with
  | nil => rfl
  | cons n ns ih =>
    simp only [numbersThen] at ih ⊢
    simp only [List.flatMap_cons, List.cons_append, List.nil_append, List.length_cons, takeNumbers, ih]
    rfl

theorem readColor_toks (c : Color) (rest : List Tok) : readColor (c.toks ++ rest) = .ok (c, rest) := by
  cases c with
  | rgb888 r g b =>
    have hr := r.isLt; have hg := g.isLt; have hb := b.isLt
    simp [Color.toks, readColor, readByte, Except.bind, Except.map, hr, hg, hb]
  | native s => rfl

theorem readLastColor_toks (c : Color) : readLastColor c.toks = .ok c := by
  have := readColor_toks c []
  rw [List.append_nil] at this
  simp [readLastColor, this, Except.bind]

theorem readCoord_toNat (x : Coord) : readCoord x.toNat = .ok x := by simp [readCoord, x.isLt]

theorem readByte_toNat (b : Byte) : readByte b.toNat = .ok b := by simp [readByte, b.isLt]

theorem readBytes_map (bs : List Byte) : readBytes (bs.map BitVec.toNat) = .ok bs := by
  induction bs with
  | nil => rfl
  | cons b bs ih => simp [readBytes, readByte_toNat, ih, Except.bind, Except.map]

theorem readWindow_toks (x0 y0 x1 y1 : Coord) :
    readWindow [x0.toNat, y0.toNat, x1.toNat, y1.toNat] = .ok (x0, y0, x1, y1) := by
  simp [readWindow, readCoord_toNat, Except.bind, Except.map]

theorem readDivisor_toks (q : Ratio) : readDivisor q.toks = .ok q := by
  obtain ⟨n, d⟩ := q
  unfold Ratio.toks
  split
  · next hd =>
    have : d = 0 := by simpa [Ratio.den] using hd
    subst this; rfl
  · rfl

theorem readPin_toks (name : Kw) (p : Option PinId) (rest : List Tok) :
    readPin name (pinToks name p ++ rest) = .ok (p, rest) := by
  cases p <;> simp [pinToks, readPin]

theorem readInteger_toks (x : Int) (rest : List Tok) : readInteger (integerToks x ++ rest) = .ok (x, rest) := by
  cases x with
  | ofNat n => rfl
  | negSucc n => simp [integerToks, readInteger]; omega

theorem readPixel_toks (q : Pixel) (rest : List Tok) : readPixel (q.toks ++ rest) = .ok (q, rest) := by
  have h1 : readInteger (integerToks q.x ++ Tok.punct .comma :: (integerToks q.y ++ Tok.punct .comma ::
      (q.color.toks ++ Tok.punct .rparen :: rest))) = _ := readInteger_toks q.x _
  have h2 : readInteger (integerToks q.y ++ Tok.punct .comma :: (q.color.toks ++ Tok.punct .rparen :: rest)) = _ :=
    readInteger_toks q.y _
  have h3 : readColor (q.color.toks ++ Tok.punct .rparen :: rest) = _ := readColor_toks q.color _
  simp [Pixel.toks, readPixel, readSign, Except.bind, Except.map, h1, h2, h3]

/-- Pixels with commas between, to the end of the line. -/
theorem readPixels1_toks (q : Pixel) (qs : List Pixel) (fuel : Nat) (h : qs.length < fuel) :
    readPixels1 fuel (joinCommas ((q :: qs).map Pixel.toks)) = .ok (q :: qs) := by
  have hhead : ∀ (q : Pixel) (rest : List Tok), q.toks ++ rest ≠ endless := by
    intro q rest; simp [Pixel.toks, endless]
  induction qs generalizing q fuel with
  | nil =>
    obtain ⟨f, rfl⟩ := Nat.exists_eq_succ_of_ne_zero (show fuel ≠ 0 by omega)
    have hr := readPixel_toks q []
    have hh := hhead q []
    rw [List.append_nil] at hr hh
    simp only [List.map_cons, List.map_nil, joinCommas]
    rw [readPixels1, if_neg hh, hr]
    rfl
  | cons r rs ih =>
    obtain ⟨f, rfl⟩ := Nat.exists_eq_succ_of_ne_zero (show fuel ≠ 0 by omega)
    have hi := ih r f (by simp at h; omega)
    simp only [List.map_cons, joinCommas] at hi ⊢
    rw [readPixels1, if_neg (hhead q _), readPixel_toks]
    simp only [Except.bind]
    rw [hi]
    rfl

theorem joinCommas_length (ls : List (List Tok)) (h : ∀ l ∈ ls, l ≠ []) : ls.length ≤ (joinCommas ls).length := by
  induction ls with
  | nil => simp
  | cons a r ih =>
    have ha : 0 < a.length := List.length_pos_iff.2 (h a List.mem_cons_self)
    cases r with
    | nil => simp [joinCommas]; omega
    | cons b r =>
      have := ih (fun l hl => h l (List.mem_cons_of_mem _ hl))
      simp [joinCommas] at this ⊢
      omega

theorem readPixels_toks (qs : List Pixel) : readPixels (joinCommas (qs.map Pixel.toks)) = .ok qs := by
  cases qs with
  | nil => rfl
  | cons q qs =>
    have hlen := joinCommas_length ((q :: qs).map Pixel.toks) (fun l hl => by
      obtain ⟨r, -, rfl⟩ := List.mem_map.1 hl
      simp [Pixel.toks])
    simp only [List.length_map, List.length_cons] at hlen
    have hne : joinCommas ((q :: qs).map Pixel.toks) ≠ [] := fun h => by rw [h] at hlen; simp at hlen
    rw [readPixels, if_neg hne]
    exact readPixels1_toks q qs _ (by omega)

/-- Samples with commas between, to the end of the line. -/
theorem readSamples1_toks (n : Nat) (ns : List Nat) (fuel : Nat) (h : ns.length < fuel) :
    readSamples1 fuel (numberToks (n :: ns)) = .ok (n :: ns) := by
  induction ns generalizing n fuel with
  | nil =>
    obtain ⟨f, rfl⟩ := Nat.exists_eq_succ_of_ne_zero (show fuel ≠ 0 by omega)
    rfl
  | cons m ms ih =>
    obtain ⟨f, rfl⟩ := Nat.exists_eq_succ_of_ne_zero (show fuel ≠ 0 by omega)
    have hi := ih m f (by simp at h; omega)
    simp only [numberToks, List.map_cons, joinCommas] at hi ⊢
    rw [readSamples1, if_neg (by simp [endless])]
    simp only [List.cons_append, List.nil_append, readSample, Except.bind, repeats, hi]
    rfl

theorem readSamples_toks (ns : List Nat) : readSamples (numberToks ns) = .ok ns := by
  cases ns with
  | nil => rfl
  | cons n ns =>
    have hlen := joinCommas_length ((n :: ns).map (fun n => [Tok.num n])) (fun l hl => by
      obtain ⟨r, -, rfl⟩ := List.mem_map.1 hl
      simp)
    simp only [List.length_map, List.length_cons] at hlen
    have hne : numberToks (n :: ns) ≠ [] := fun h => by rw [numberToks] at h; rw [h] at hlen; simp at hlen
    rw [readSamples, if_neg hne]
    exact readSamples1_toks n ns _ (by rw [numberToks]; omega)

end Sys2Proof
end

