-- ==== Sys2Proof/Laws/State.lean ====
section
/-! SUPPORT. One lemma per field per named update of State, so that no later proof unfolds a record update. -/

namespace Sys2Proof.Machine

/-! ## emit -/

@[simp] theorem emit_cfg (s : State) (e : Event) : (s.emit e).cfg = s.cfg := rfl
@[simp] theorem emit_prog (s : State) (e : Event) : (s.emit e).prog = s.prog := rfl
@[simp] theorem emit_idx (s : State) (e : Event) : (s.emit e).idx = s.idx := rfl
@[simp] theorem emit_probe (s : State) (e : Event) : (s.emit e).probe = s.probe := rfl
@[simp] theorem emit_taken (s : State) (e : Event) : (s.emit e).taken = s.taken := rfl
@[simp] theorem emit_handle (s : State) (e : Event) : (s.emit e).handle = s.handle := rfl
@[simp] theorem emit_tcfg (s : State) (e : Event) : (s.emit e).tcfg = s.tcfg := rfl
@[simp] theorem emit_fifo (s : State) (e : Event) : (s.emit e).fifo = s.fifo := rfl
@[simp] theorem emit_osr (s : State) (e : Event) : (s.emit e).osr = s.osr := rfl
@[simp] theorem emit_dataOut (s : State) (e : Event) : (s.emit e).dataOut = s.dataOut := rfl
@[simp] theorem emit_strobe (s : State) (e : Event) : (s.emit e).strobe = s.strobe := rfl
@[simp] theorem emit_dc (s : State) (e : Event) : (s.emit e).dc = s.dc := rfl
@[simp] theorem emit_rst (s : State) (e : Event) : (s.emit e).rst = s.rst := rfl
@[simp] theorem emit_bl (s : State) (e : Event) : (s.emit e).bl = s.bl := rfl
@[simp] theorem emit_owner (s : State) (e : Event) : (s.emit e).owner = s.owner := rfl
@[simp] theorem emit_ctrl (s : State) (e : Event) : (s.emit e).ctrl = s.ctrl := rfl
@[simp] theorem emit_geom (s : State) (e : Event) : (s.emit e).geom = s.geom := rfl
@[simp] theorem emit_icfg (s : State) (e : Event) : (s.emit e).icfg = s.icfg := rfl
@[simp] theorem emit_rstPin (s : State) (e : Event) : (s.emit e).rstPin = s.rstPin := rfl
@[simp] theorem emit_blPin (s : State) (e : Event) : (s.emit e).blPin = s.blPin := rfl
@[simp] theorem emit_trace (s : State) (e : Event) : (s.emit e).trace = s.trace ++ [e] := rfl
@[simp] theorem emit_faultedModel (s : State) (e : Event) : (s.emit e).faultedModel = s.faultedModel := rfl
@[simp] theorem emit_refused (s : State) (e : Event) : (s.emit e).refused = s.refused := rfl
@[simp] theorem emit_panel (s : State) (e : Event) : (s.emit e).panel = s.panel.take s.cfg s.geom s.icfg e := rfl
@[simp] theorem emit_result (s : State) (e : Event) : (s.emit e).result = s.result := rfl
@[simp] theorem emit_env (s : State) (e : Event) : (s.emit e).env = s.env := rfl

/-! ## withPin -/

@[simp] theorem withPin_cfg (s : State) (p : Pin) (l : PinLevel) : (s.withPin p l).cfg = s.cfg := by cases p <;> rfl
@[simp] theorem withPin_prog (s : State) (p : Pin) (l : PinLevel) : (s.withPin p l).prog = s.prog := by cases p <;> rfl
@[simp] theorem withPin_idx (s : State) (p : Pin) (l : PinLevel) : (s.withPin p l).idx = s.idx := by cases p <;> rfl
@[simp] theorem withPin_probe (s : State) (p : Pin) (l : PinLevel) : (s.withPin p l).probe = s.probe := by cases p <;> rfl
@[simp] theorem withPin_taken (s : State) (p : Pin) (l : PinLevel) : (s.withPin p l).taken = s.taken := by cases p <;> rfl
@[simp] theorem withPin_handle (s : State) (p : Pin) (l : PinLevel) : (s.withPin p l).handle = s.handle := by cases p <;> rfl
@[simp] theorem withPin_tcfg (s : State) (p : Pin) (l : PinLevel) : (s.withPin p l).tcfg = s.tcfg := by cases p <;> rfl
@[simp] theorem withPin_fifo (s : State) (p : Pin) (l : PinLevel) : (s.withPin p l).fifo = s.fifo := by cases p <;> rfl
@[simp] theorem withPin_osr (s : State) (p : Pin) (l : PinLevel) : (s.withPin p l).osr = s.osr := by cases p <;> rfl
@[simp] theorem withPin_dataOut (s : State) (p : Pin) (l : PinLevel) : (s.withPin p l).dataOut = s.dataOut := by cases p <;> rfl
@[simp] theorem withPin_strobe (s : State) (p : Pin) (l : PinLevel) : (s.withPin p l).strobe = s.strobe := by cases p <;> rfl
@[simp] theorem withPin_dc_dc (s : State) (l : PinLevel) : (s.withPin .dc l).dc = l := rfl
@[simp] theorem withPin_rst_dc (s : State) (l : PinLevel) : (s.withPin .rst l).dc = s.dc := rfl
@[simp] theorem withPin_bl_dc (s : State) (l : PinLevel) : (s.withPin .bl l).dc = s.dc := rfl
@[simp] theorem withPin_dc_rst (s : State) (l : PinLevel) : (s.withPin .dc l).rst = s.rst := rfl
@[simp] theorem withPin_rst_rst (s : State) (l : PinLevel) : (s.withPin .rst l).rst = l := rfl
@[simp] theorem withPin_bl_rst (s : State) (l : PinLevel) : (s.withPin .bl l).rst = s.rst := rfl
@[simp] theorem withPin_dc_bl (s : State) (l : PinLevel) : (s.withPin .dc l).bl = s.bl := rfl
@[simp] theorem withPin_rst_bl (s : State) (l : PinLevel) : (s.withPin .rst l).bl = s.bl := rfl
@[simp] theorem withPin_bl_bl (s : State) (l : PinLevel) : (s.withPin .bl l).bl = l := rfl
@[simp] theorem withPin_owner (s : State) (p : Pin) (l : PinLevel) : (s.withPin p l).owner = s.owner := by cases p <;> rfl
@[simp] theorem withPin_ctrl (s : State) (p : Pin) (l : PinLevel) : (s.withPin p l).ctrl = s.ctrl := by cases p <;> rfl
@[simp] theorem withPin_geom (s : State) (p : Pin) (l : PinLevel) : (s.withPin p l).geom = s.geom := by cases p <;> rfl
@[simp] theorem withPin_icfg (s : State) (p : Pin) (l : PinLevel) : (s.withPin p l).icfg = s.icfg := by cases p <;> rfl
@[simp] theorem withPin_rstPin (s : State) (p : Pin) (l : PinLevel) : (s.withPin p l).rstPin = s.rstPin := by cases p <;> rfl
@[simp] theorem withPin_blPin (s : State) (p : Pin) (l : PinLevel) : (s.withPin p l).blPin = s.blPin := by cases p <;> rfl
@[simp] theorem withPin_trace (s : State) (p : Pin) (l : PinLevel) : (s.withPin p l).trace = s.trace := by cases p <;> rfl
@[simp] theorem withPin_faultedModel (s : State) (p : Pin) (l : PinLevel) : (s.withPin p l).faultedModel = s.faultedModel := by cases p <;> rfl
@[simp] theorem withPin_refused (s : State) (p : Pin) (l : PinLevel) : (s.withPin p l).refused = s.refused := by cases p <;> rfl
@[simp] theorem withPin_panel (s : State) (p : Pin) (l : PinLevel) : (s.withPin p l).panel = s.panel := by cases p <;> rfl
@[simp] theorem withPin_result (s : State) (p : Pin) (l : PinLevel) : (s.withPin p l).result = s.result := by cases p <;> rfl
@[simp] theorem withPin_env (s : State) (p : Pin) (l : PinLevel) : (s.withPin p l).env = s.env := by cases p <;> rfl

/-! ## pinDrawn -/

@[simp] theorem pinDrawn_cfg (s : State) : s.pinDrawn.cfg = s.cfg := rfl
@[simp] theorem pinDrawn_prog (s : State) : s.pinDrawn.prog = s.prog := rfl
@[simp] theorem pinDrawn_idx (s : State) : s.pinDrawn.idx = s.idx := rfl
@[simp] theorem pinDrawn_probe (s : State) : s.pinDrawn.probe = s.probe := rfl
@[simp] theorem pinDrawn_taken (s : State) : s.pinDrawn.taken = s.taken := rfl
@[simp] theorem pinDrawn_handle (s : State) : s.pinDrawn.handle = s.handle := rfl
@[simp] theorem pinDrawn_tcfg (s : State) : s.pinDrawn.tcfg = s.tcfg := rfl
@[simp] theorem pinDrawn_fifo (s : State) : s.pinDrawn.fifo = s.fifo := rfl
@[simp] theorem pinDrawn_osr (s : State) : s.pinDrawn.osr = s.osr := rfl
@[simp] theorem pinDrawn_dataOut (s : State) : s.pinDrawn.dataOut = s.dataOut := rfl
@[simp] theorem pinDrawn_strobe (s : State) : s.pinDrawn.strobe = s.strobe := rfl
@[simp] theorem pinDrawn_dc (s : State) : s.pinDrawn.dc = s.dc := rfl
@[simp] theorem pinDrawn_rst (s : State) : s.pinDrawn.rst = s.rst := rfl
@[simp] theorem pinDrawn_bl (s : State) : s.pinDrawn.bl = s.bl := rfl
@[simp] theorem pinDrawn_owner (s : State) : s.pinDrawn.owner = s.owner := rfl
@[simp] theorem pinDrawn_ctrl (s : State) : s.pinDrawn.ctrl = s.ctrl := rfl
@[simp] theorem pinDrawn_geom (s : State) : s.pinDrawn.geom = s.geom := rfl
@[simp] theorem pinDrawn_icfg (s : State) : s.pinDrawn.icfg = s.icfg := rfl
@[simp] theorem pinDrawn_rstPin (s : State) : s.pinDrawn.rstPin = s.rstPin := rfl
@[simp] theorem pinDrawn_blPin (s : State) : s.pinDrawn.blPin = s.blPin := rfl
@[simp] theorem pinDrawn_trace (s : State) : s.pinDrawn.trace = s.trace := rfl
@[simp] theorem pinDrawn_faultedModel (s : State) : s.pinDrawn.faultedModel = s.faultedModel := rfl
@[simp] theorem pinDrawn_refused (s : State) : s.pinDrawn.refused = s.refused := rfl
@[simp] theorem pinDrawn_panel (s : State) : s.pinDrawn.panel = s.panel := rfl
@[simp] theorem pinDrawn_result (s : State) : s.pinDrawn.result = s.result := rfl
@[simp] theorem pinDrawn_env_pin (s : State) : s.pinDrawn.env.pin = s.env.pin.rest := rfl
@[simp] theorem pinDrawn_env_install (s : State) : s.pinDrawn.env.install = s.env.install := rfl
@[simp] theorem pinDrawn_env_turns (s : State) : s.pinDrawn.env.turns = s.env.turns := rfl
@[simp] theorem pinDrawn_env_schedule (s : State) : s.pinDrawn.env.schedule = s.env.schedule := rfl
@[simp] theorem pinDrawn_env_data (s : State) : s.pinDrawn.env.data = s.env.data := rfl

/-! ## installDrawn -/

@[simp] theorem installDrawn_cfg (s : State) : s.installDrawn.cfg = s.cfg := rfl
@[simp] theorem installDrawn_prog (s : State) : s.installDrawn.prog = s.prog := rfl
@[simp] theorem installDrawn_idx (s : State) : s.installDrawn.idx = s.idx := rfl
@[simp] theorem installDrawn_probe (s : State) : s.installDrawn.probe = s.probe := rfl
@[simp] theorem installDrawn_taken (s : State) : s.installDrawn.taken = s.taken := rfl
@[simp] theorem installDrawn_handle (s : State) : s.installDrawn.handle = s.handle := rfl
@[simp] theorem installDrawn_tcfg (s : State) : s.installDrawn.tcfg = s.tcfg := rfl
@[simp] theorem installDrawn_fifo (s : State) : s.installDrawn.fifo = s.fifo := rfl
@[simp] theorem installDrawn_osr (s : State) : s.installDrawn.osr = s.osr := rfl
@[simp] theorem installDrawn_dataOut (s : State) : s.installDrawn.dataOut = s.dataOut := rfl
@[simp] theorem installDrawn_strobe (s : State) : s.installDrawn.strobe = s.strobe := rfl
@[simp] theorem installDrawn_dc (s : State) : s.installDrawn.dc = s.dc := rfl
@[simp] theorem installDrawn_rst (s : State) : s.installDrawn.rst = s.rst := rfl
@[simp] theorem installDrawn_bl (s : State) : s.installDrawn.bl = s.bl := rfl
@[simp] theorem installDrawn_owner (s : State) : s.installDrawn.owner = s.owner := rfl
@[simp] theorem installDrawn_ctrl (s : State) : s.installDrawn.ctrl = s.ctrl := rfl
@[simp] theorem installDrawn_geom (s : State) : s.installDrawn.geom = s.geom := rfl
@[simp] theorem installDrawn_icfg (s : State) : s.installDrawn.icfg = s.icfg := rfl
@[simp] theorem installDrawn_rstPin (s : State) : s.installDrawn.rstPin = s.rstPin := rfl
@[simp] theorem installDrawn_blPin (s : State) : s.installDrawn.blPin = s.blPin := rfl
@[simp] theorem installDrawn_trace (s : State) : s.installDrawn.trace = s.trace := rfl
@[simp] theorem installDrawn_faultedModel (s : State) : s.installDrawn.faultedModel = s.faultedModel := rfl
@[simp] theorem installDrawn_refused (s : State) : s.installDrawn.refused = s.refused := rfl
@[simp] theorem installDrawn_panel (s : State) : s.installDrawn.panel = s.panel := rfl
@[simp] theorem installDrawn_result (s : State) : s.installDrawn.result = s.result := rfl
@[simp] theorem installDrawn_env_pin (s : State) : s.installDrawn.env.pin = s.env.pin := rfl
@[simp] theorem installDrawn_env_install (s : State) : s.installDrawn.env.install = s.env.install.rest := rfl
@[simp] theorem installDrawn_env_turns (s : State) : s.installDrawn.env.turns = s.env.turns := rfl
@[simp] theorem installDrawn_env_schedule (s : State) : s.installDrawn.env.schedule = s.env.schedule := rfl
@[simp] theorem installDrawn_env_data (s : State) : s.installDrawn.env.data = s.env.data := rfl

/-! ## turnsDrawn -/

@[simp] theorem turnsDrawn_cfg (s : State) : s.turnsDrawn.cfg = s.cfg := rfl
@[simp] theorem turnsDrawn_prog (s : State) : s.turnsDrawn.prog = s.prog := rfl
@[simp] theorem turnsDrawn_idx (s : State) : s.turnsDrawn.idx = s.idx := rfl
@[simp] theorem turnsDrawn_probe (s : State) : s.turnsDrawn.probe = s.probe := rfl
@[simp] theorem turnsDrawn_taken (s : State) : s.turnsDrawn.taken = s.taken := rfl
@[simp] theorem turnsDrawn_handle (s : State) : s.turnsDrawn.handle = s.handle := rfl
@[simp] theorem turnsDrawn_tcfg (s : State) : s.turnsDrawn.tcfg = s.tcfg := rfl
@[simp] theorem turnsDrawn_fifo (s : State) : s.turnsDrawn.fifo = s.fifo := rfl
@[simp] theorem turnsDrawn_osr (s : State) : s.turnsDrawn.osr = s.osr := rfl
@[simp] theorem turnsDrawn_dataOut (s : State) : s.turnsDrawn.dataOut = s.dataOut := rfl
@[simp] theorem turnsDrawn_strobe (s : State) : s.turnsDrawn.strobe = s.strobe := rfl
@[simp] theorem turnsDrawn_dc (s : State) : s.turnsDrawn.dc = s.dc := rfl
@[simp] theorem turnsDrawn_rst (s : State) : s.turnsDrawn.rst = s.rst := rfl
@[simp] theorem turnsDrawn_bl (s : State) : s.turnsDrawn.bl = s.bl := rfl
@[simp] theorem turnsDrawn_owner (s : State) : s.turnsDrawn.owner = s.owner := rfl
@[simp] theorem turnsDrawn_ctrl (s : State) : s.turnsDrawn.ctrl = s.ctrl := rfl
@[simp] theorem turnsDrawn_geom (s : State) : s.turnsDrawn.geom = s.geom := rfl
@[simp] theorem turnsDrawn_icfg (s : State) : s.turnsDrawn.icfg = s.icfg := rfl
@[simp] theorem turnsDrawn_rstPin (s : State) : s.turnsDrawn.rstPin = s.rstPin := rfl
@[simp] theorem turnsDrawn_blPin (s : State) : s.turnsDrawn.blPin = s.blPin := rfl
@[simp] theorem turnsDrawn_trace (s : State) : s.turnsDrawn.trace = s.trace := rfl
@[simp] theorem turnsDrawn_faultedModel (s : State) : s.turnsDrawn.faultedModel = s.faultedModel := rfl
@[simp] theorem turnsDrawn_refused (s : State) : s.turnsDrawn.refused = s.refused := rfl
@[simp] theorem turnsDrawn_panel (s : State) : s.turnsDrawn.panel = s.panel := rfl
@[simp] theorem turnsDrawn_result (s : State) : s.turnsDrawn.result = s.result := rfl
@[simp] theorem turnsDrawn_env_pin (s : State) : s.turnsDrawn.env.pin = s.env.pin := rfl
@[simp] theorem turnsDrawn_env_install (s : State) : s.turnsDrawn.env.install = s.env.install := rfl
@[simp] theorem turnsDrawn_env_turns (s : State) : s.turnsDrawn.env.turns = s.env.turns.rest := rfl
@[simp] theorem turnsDrawn_env_schedule (s : State) : s.turnsDrawn.env.schedule = s.env.schedule := rfl
@[simp] theorem turnsDrawn_env_data (s : State) : s.turnsDrawn.env.data = s.env.data := rfl

/-! ## dataDrawn -/

@[simp] theorem dataDrawn_cfg (s : State) : s.dataDrawn.cfg = s.cfg := rfl
@[simp] theorem dataDrawn_prog (s : State) : s.dataDrawn.prog = s.prog := rfl
@[simp] theorem dataDrawn_idx (s : State) : s.dataDrawn.idx = s.idx := rfl
@[simp] theorem dataDrawn_probe (s : State) : s.dataDrawn.probe = s.probe := rfl
@[simp] theorem dataDrawn_taken (s : State) : s.dataDrawn.taken = s.taken := rfl
@[simp] theorem dataDrawn_handle (s : State) : s.dataDrawn.handle = s.handle := rfl
@[simp] theorem dataDrawn_tcfg (s : State) : s.dataDrawn.tcfg = s.tcfg := rfl
@[simp] theorem dataDrawn_fifo (s : State) : s.dataDrawn.fifo = s.fifo := rfl
@[simp] theorem dataDrawn_osr (s : State) : s.dataDrawn.osr = s.osr := rfl
@[simp] theorem dataDrawn_dataOut (s : State) : s.dataDrawn.dataOut = s.dataOut := rfl
@[simp] theorem dataDrawn_strobe (s : State) : s.dataDrawn.strobe = s.strobe := rfl
@[simp] theorem dataDrawn_dc (s : State) : s.dataDrawn.dc = s.dc := rfl
@[simp] theorem dataDrawn_rst (s : State) : s.dataDrawn.rst = s.rst := rfl
@[simp] theorem dataDrawn_bl (s : State) : s.dataDrawn.bl = s.bl := rfl
@[simp] theorem dataDrawn_owner (s : State) : s.dataDrawn.owner = s.owner := rfl
@[simp] theorem dataDrawn_ctrl (s : State) : s.dataDrawn.ctrl = s.ctrl := rfl
@[simp] theorem dataDrawn_geom (s : State) : s.dataDrawn.geom = s.geom := rfl
@[simp] theorem dataDrawn_icfg (s : State) : s.dataDrawn.icfg = s.icfg := rfl
@[simp] theorem dataDrawn_rstPin (s : State) : s.dataDrawn.rstPin = s.rstPin := rfl
@[simp] theorem dataDrawn_blPin (s : State) : s.dataDrawn.blPin = s.blPin := rfl
@[simp] theorem dataDrawn_trace (s : State) : s.dataDrawn.trace = s.trace := rfl
@[simp] theorem dataDrawn_faultedModel (s : State) : s.dataDrawn.faultedModel = s.faultedModel := rfl
@[simp] theorem dataDrawn_refused (s : State) : s.dataDrawn.refused = s.refused := rfl
@[simp] theorem dataDrawn_panel (s : State) : s.dataDrawn.panel = s.panel := rfl
@[simp] theorem dataDrawn_result (s : State) : s.dataDrawn.result = s.result := rfl
@[simp] theorem dataDrawn_env_pin (s : State) : s.dataDrawn.env.pin = s.env.pin := rfl
@[simp] theorem dataDrawn_env_install (s : State) : s.dataDrawn.env.install = s.env.install := rfl
@[simp] theorem dataDrawn_env_turns (s : State) : s.dataDrawn.env.turns = s.env.turns := rfl
@[simp] theorem dataDrawn_env_schedule (s : State) : s.dataDrawn.env.schedule = s.env.schedule := rfl
@[simp] theorem dataDrawn_env_data (s : State) : s.dataDrawn.env.data = s.env.data.rest := rfl

/-! ## scheduleDrawn -/

@[simp] theorem scheduleDrawn_cfg (s : State) : s.scheduleDrawn.cfg = s.cfg := rfl
@[simp] theorem scheduleDrawn_prog (s : State) : s.scheduleDrawn.prog = s.prog := rfl
@[simp] theorem scheduleDrawn_idx (s : State) : s.scheduleDrawn.idx = s.idx := rfl
@[simp] theorem scheduleDrawn_probe (s : State) : s.scheduleDrawn.probe = s.probe := rfl
@[simp] theorem scheduleDrawn_taken (s : State) : s.scheduleDrawn.taken = s.taken := rfl
@[simp] theorem scheduleDrawn_handle (s : State) : s.scheduleDrawn.handle = s.handle := rfl
@[simp] theorem scheduleDrawn_tcfg (s : State) : s.scheduleDrawn.tcfg = s.tcfg := rfl
@[simp] theorem scheduleDrawn_fifo (s : State) : s.scheduleDrawn.fifo = s.fifo := rfl
@[simp] theorem scheduleDrawn_osr (s : State) : s.scheduleDrawn.osr = s.osr := rfl
@[simp] theorem scheduleDrawn_dataOut (s : State) : s.scheduleDrawn.dataOut = s.dataOut := rfl
@[simp] theorem scheduleDrawn_strobe (s : State) : s.scheduleDrawn.strobe = s.strobe := rfl
@[simp] theorem scheduleDrawn_dc (s : State) : s.scheduleDrawn.dc = s.dc := rfl
@[simp] theorem scheduleDrawn_rst (s : State) : s.scheduleDrawn.rst = s.rst := rfl
@[simp] theorem scheduleDrawn_bl (s : State) : s.scheduleDrawn.bl = s.bl := rfl
@[simp] theorem scheduleDrawn_owner (s : State) : s.scheduleDrawn.owner = s.owner := rfl
@[simp] theorem scheduleDrawn_ctrl (s : State) : s.scheduleDrawn.ctrl = s.ctrl := rfl
@[simp] theorem scheduleDrawn_geom (s : State) : s.scheduleDrawn.geom = s.geom := rfl
@[simp] theorem scheduleDrawn_icfg (s : State) : s.scheduleDrawn.icfg = s.icfg := rfl
@[simp] theorem scheduleDrawn_rstPin (s : State) : s.scheduleDrawn.rstPin = s.rstPin := rfl
@[simp] theorem scheduleDrawn_blPin (s : State) : s.scheduleDrawn.blPin = s.blPin := rfl
@[simp] theorem scheduleDrawn_trace (s : State) : s.scheduleDrawn.trace = s.trace := rfl
@[simp] theorem scheduleDrawn_faultedModel (s : State) : s.scheduleDrawn.faultedModel = s.faultedModel := rfl
@[simp] theorem scheduleDrawn_refused (s : State) : s.scheduleDrawn.refused = s.refused := rfl
@[simp] theorem scheduleDrawn_panel (s : State) : s.scheduleDrawn.panel = s.panel := rfl
@[simp] theorem scheduleDrawn_result (s : State) : s.scheduleDrawn.result = s.result := rfl
@[simp] theorem scheduleDrawn_env_pin (s : State) : s.scheduleDrawn.env.pin = s.env.pin := rfl
@[simp] theorem scheduleDrawn_env_install (s : State) : s.scheduleDrawn.env.install = s.env.install := rfl
@[simp] theorem scheduleDrawn_env_turns (s : State) : s.scheduleDrawn.env.turns = s.env.turns := rfl
@[simp] theorem scheduleDrawn_env_schedule (s : State) : s.scheduleDrawn.env.schedule = s.env.schedule.rest := rfl
@[simp] theorem scheduleDrawn_env_data (s : State) : s.scheduleDrawn.env.data = s.env.data := rfl

/-! ## busCycle -/

@[simp] theorem busCycle_cfg (p : Phase) (w : BusWord) (s : State) : (busCycle p w s).cfg = s.cfg := rfl
@[simp] theorem busCycle_prog (p : Phase) (w : BusWord) (s : State) : (busCycle p w s).prog = s.prog := rfl
@[simp] theorem busCycle_idx (p : Phase) (w : BusWord) (s : State) : (busCycle p w s).idx = s.idx := rfl
@[simp] theorem busCycle_probe (p : Phase) (w : BusWord) (s : State) : (busCycle p w s).probe = s.probe := rfl
@[simp] theorem busCycle_taken (p : Phase) (w : BusWord) (s : State) : (busCycle p w s).taken = s.taken := rfl
@[simp] theorem busCycle_handle (p : Phase) (w : BusWord) (s : State) : (busCycle p w s).handle = s.handle := rfl
@[simp] theorem busCycle_tcfg (p : Phase) (w : BusWord) (s : State) : (busCycle p w s).tcfg = s.tcfg := rfl
@[simp] theorem busCycle_fifo (p : Phase) (w : BusWord) (s : State) : (busCycle p w s).fifo = s.fifo := rfl
@[simp] theorem busCycle_osr (p : Phase) (w : BusWord) (s : State) : (busCycle p w s).osr = s.osr := rfl
@[simp] theorem busCycle_dataOut (p : Phase) (w : BusWord) (s : State) : (busCycle p w s).dataOut = w := rfl
@[simp] theorem busCycle_strobe (p : Phase) (w : BusWord) (s : State) : (busCycle p w s).strobe = .released := rfl
@[simp] theorem busCycle_dc (p : Phase) (w : BusWord) (s : State) : (busCycle p w s).dc = s.dc := rfl
@[simp] theorem busCycle_rst (p : Phase) (w : BusWord) (s : State) : (busCycle p w s).rst = s.rst := rfl
@[simp] theorem busCycle_bl (p : Phase) (w : BusWord) (s : State) : (busCycle p w s).bl = s.bl := rfl
@[simp] theorem busCycle_owner (p : Phase) (w : BusWord) (s : State) : (busCycle p w s).owner = s.owner := rfl
@[simp] theorem busCycle_ctrl (p : Phase) (w : BusWord) (s : State) : (busCycle p w s).ctrl = s.ctrl := rfl
@[simp] theorem busCycle_geom (p : Phase) (w : BusWord) (s : State) : (busCycle p w s).geom = s.geom := rfl
@[simp] theorem busCycle_icfg (p : Phase) (w : BusWord) (s : State) : (busCycle p w s).icfg = s.icfg := rfl
@[simp] theorem busCycle_rstPin (p : Phase) (w : BusWord) (s : State) : (busCycle p w s).rstPin = s.rstPin := rfl
@[simp] theorem busCycle_blPin (p : Phase) (w : BusWord) (s : State) : (busCycle p w s).blPin = s.blPin := rfl
@[simp] theorem busCycle_trace (p : Phase) (w : BusWord) (s : State) : (busCycle p w s).trace = s.trace ++ [.cyc p w] := rfl
@[simp] theorem busCycle_faultedModel (p : Phase) (w : BusWord) (s : State) : (busCycle p w s).faultedModel = s.faultedModel := rfl
@[simp] theorem busCycle_refused (p : Phase) (w : BusWord) (s : State) : (busCycle p w s).refused = s.refused := rfl
@[simp] theorem busCycle_panel (p : Phase) (w : BusWord) (s : State) : (busCycle p w s).panel = s.panel.take s.cfg s.geom s.icfg (.cyc p w) := rfl
@[simp] theorem busCycle_result (p : Phase) (w : BusWord) (s : State) : (busCycle p w s).result = s.result := rfl
@[simp] theorem busCycle_env (p : Phase) (w : BusWord) (s : State) : (busCycle p w s).env = s.env := rfl

/-! ## newTransport -/

@[simp] theorem newTransport_cfg (width : Nat) (pb sp dp : PinId) (q : Ratio) (s : State) : (newTransport width pb sp dp q s).cfg = s.cfg := rfl
@[simp] theorem newTransport_prog (width : Nat) (pb sp dp : PinId) (q : Ratio) (s : State) : (newTransport width pb sp dp q s).prog = s.prog := rfl
@[simp] theorem newTransport_idx (width : Nat) (pb sp dp : PinId) (q : Ratio) (s : State) : (newTransport width pb sp dp q s).idx = s.idx := rfl
@[simp] theorem newTransport_probe (width : Nat) (pb sp dp : PinId) (q : Ratio) (s : State) : (newTransport width pb sp dp q s).probe = s.probe := rfl
@[simp] theorem newTransport_taken (width : Nat) (pb sp dp : PinId) (q : Ratio) (s : State) : (newTransport width pb sp dp q s).taken = s.taken := rfl
@[simp] theorem newTransport_handle (width : Nat) (pb sp dp : PinId) (q : Ratio) (s : State) : (newTransport width pb sp dp q s).handle = s.handle := rfl
@[simp] theorem newTransport_fifo (width : Nat) (pb sp dp : PinId) (q : Ratio) (s : State) : (newTransport width pb sp dp q s).fifo = [] := rfl
@[simp] theorem newTransport_osr (width : Nat) (pb sp dp : PinId) (q : Ratio) (s : State) : (newTransport width pb sp dp q s).osr = none := rfl
@[simp] theorem newTransport_dataOut (width : Nat) (pb sp dp : PinId) (q : Ratio) (s : State) : (newTransport width pb sp dp q s).dataOut = s.dataAnswer := rfl
@[simp] theorem newTransport_strobe (width : Nat) (pb sp dp : PinId) (q : Ratio) (s : State) : (newTransport width pb sp dp q s).strobe = .released := rfl
@[simp] theorem newTransport_dc (width : Nat) (pb sp dp : PinId) (q : Ratio) (s : State) : (newTransport width pb sp dp q s).dc = .unset := rfl
@[simp] theorem newTransport_rst (width : Nat) (pb sp dp : PinId) (q : Ratio) (s : State) : (newTransport width pb sp dp q s).rst = s.rst := rfl
@[simp] theorem newTransport_bl (width : Nat) (pb sp dp : PinId) (q : Ratio) (s : State) : (newTransport width pb sp dp q s).bl = s.bl := rfl
@[simp] theorem newTransport_owner (width : Nat) (pb sp dp : PinId) (q : Ratio) (s : State) : (newTransport width pb sp dp q s).owner = .transport := rfl
@[simp] theorem newTransport_ctrl (width : Nat) (pb sp dp : PinId) (q : Ratio) (s : State) : (newTransport width pb sp dp q s).ctrl = s.ctrl := rfl
@[simp] theorem newTransport_geom (width : Nat) (pb sp dp : PinId) (q : Ratio) (s : State) : (newTransport width pb sp dp q s).geom = s.geom := rfl
@[simp] theorem newTransport_icfg (width : Nat) (pb sp dp : PinId) (q : Ratio) (s : State) : (newTransport width pb sp dp q s).icfg = s.icfg := rfl
@[simp] theorem newTransport_rstPin (width : Nat) (pb sp dp : PinId) (q : Ratio) (s : State) : (newTransport width pb sp dp q s).rstPin = s.rstPin := rfl
@[simp] theorem newTransport_blPin (width : Nat) (pb sp dp : PinId) (q : Ratio) (s : State) : (newTransport width pb sp dp q s).blPin = s.blPin := rfl
@[simp] theorem newTransport_trace (width : Nat) (pb sp dp : PinId) (q : Ratio) (s : State) : (newTransport width pb sp dp q s).trace = [] := rfl
@[simp] theorem newTransport_faultedModel (width : Nat) (pb sp dp : PinId) (q : Ratio) (s : State) : (newTransport width pb sp dp q s).faultedModel = s.faultedModel := rfl
@[simp] theorem newTransport_refused (width : Nat) (pb sp dp : PinId) (q : Ratio) (s : State) : (newTransport width pb sp dp q s).refused = s.refused := rfl
@[simp] theorem newTransport_panel (width : Nat) (pb sp dp : PinId) (q : Ratio) (s : State) : (newTransport width pb sp dp q s).panel = Panel.initial := rfl
@[simp] theorem newTransport_result (width : Nat) (pb sp dp : PinId) (q : Ratio) (s : State) : (newTransport width pb sp dp q s).result = s.result := rfl
@[simp] theorem newTransport_env_pin (width : Nat) (pb sp dp : PinId) (q : Ratio) (s : State) : (newTransport width pb sp dp q s).env.pin = s.env.pin := rfl
@[simp] theorem newTransport_env_install (width : Nat) (pb sp dp : PinId) (q : Ratio) (s : State) : (newTransport width pb sp dp q s).env.install = s.env.install := rfl
@[simp] theorem newTransport_env_turns (width : Nat) (pb sp dp : PinId) (q : Ratio) (s : State) : (newTransport width pb sp dp q s).env.turns = s.env.turns := rfl
@[simp] theorem newTransport_env_schedule (width : Nat) (pb sp dp : PinId) (q : Ratio) (s : State) : (newTransport width pb sp dp q s).env.schedule = s.env.schedule := rfl
@[simp] theorem newTransport_env_data (width : Nat) (pb sp dp : PinId) (q : Ratio) (s : State) : (newTransport width pb sp dp q s).env.data = s.env.data.rest := rfl

/-! ## newDriver -/

@[simp] theorem newDriver_cfg (r b : Option PinId) (g : PanelGeometry) (c : InitConfig) (s : State) : (newDriver r b g c s).cfg = s.cfg := rfl
@[simp] theorem newDriver_prog (r b : Option PinId) (g : PanelGeometry) (c : InitConfig) (s : State) : (newDriver r b g c s).prog = s.prog := rfl
@[simp] theorem newDriver_idx (r b : Option PinId) (g : PanelGeometry) (c : InitConfig) (s : State) : (newDriver r b g c s).idx = s.idx := rfl
@[simp] theorem newDriver_probe (r b : Option PinId) (g : PanelGeometry) (c : InitConfig) (s : State) : (newDriver r b g c s).probe = s.probe := rfl
@[simp] theorem newDriver_taken (r b : Option PinId) (g : PanelGeometry) (c : InitConfig) (s : State) : (newDriver r b g c s).taken = s.taken := rfl
@[simp] theorem newDriver_handle (r b : Option PinId) (g : PanelGeometry) (c : InitConfig) (s : State) : (newDriver r b g c s).handle = s.handle := rfl
@[simp] theorem newDriver_tcfg (r b : Option PinId) (g : PanelGeometry) (c : InitConfig) (s : State) : (newDriver r b g c s).tcfg = s.tcfg := rfl
@[simp] theorem newDriver_fifo (r b : Option PinId) (g : PanelGeometry) (c : InitConfig) (s : State) : (newDriver r b g c s).fifo = s.fifo := rfl
@[simp] theorem newDriver_osr (r b : Option PinId) (g : PanelGeometry) (c : InitConfig) (s : State) : (newDriver r b g c s).osr = s.osr := rfl
@[simp] theorem newDriver_dataOut (r b : Option PinId) (g : PanelGeometry) (c : InitConfig) (s : State) : (newDriver r b g c s).dataOut = s.dataOut := rfl
@[simp] theorem newDriver_strobe (r b : Option PinId) (g : PanelGeometry) (c : InitConfig) (s : State) : (newDriver r b g c s).strobe = s.strobe := rfl
@[simp] theorem newDriver_dc (r b : Option PinId) (g : PanelGeometry) (c : InitConfig) (s : State) : (newDriver r b g c s).dc = s.dc := rfl
@[simp] theorem newDriver_rst (r b : Option PinId) (g : PanelGeometry) (c : InitConfig) (s : State) : (newDriver r b g c s).rst = (if r.isSome then .unset else s.rst) := rfl
@[simp] theorem newDriver_bl (r b : Option PinId) (g : PanelGeometry) (c : InitConfig) (s : State) : (newDriver r b g c s).bl = (if b.isSome then .unset else s.bl) := rfl
@[simp] theorem newDriver_owner (r b : Option PinId) (g : PanelGeometry) (c : InitConfig) (s : State) : (newDriver r b g c s).owner = .driver := rfl
@[simp] theorem newDriver_ctrl (r b : Option PinId) (g : PanelGeometry) (c : InitConfig) (s : State) : (newDriver r b g c s).ctrl = .uninitialized := rfl
@[simp] theorem newDriver_geom (r b : Option PinId) (g : PanelGeometry) (c : InitConfig) (s : State) : (newDriver r b g c s).geom = g := rfl
@[simp] theorem newDriver_icfg (r b : Option PinId) (g : PanelGeometry) (c : InitConfig) (s : State) : (newDriver r b g c s).icfg = c := rfl
@[simp] theorem newDriver_rstPin (r b : Option PinId) (g : PanelGeometry) (c : InitConfig) (s : State) : (newDriver r b g c s).rstPin = r := rfl
@[simp] theorem newDriver_blPin (r b : Option PinId) (g : PanelGeometry) (c : InitConfig) (s : State) : (newDriver r b g c s).blPin = b := rfl
@[simp] theorem newDriver_trace (r b : Option PinId) (g : PanelGeometry) (c : InitConfig) (s : State) : (newDriver r b g c s).trace = s.trace := rfl
@[simp] theorem newDriver_faultedModel (r b : Option PinId) (g : PanelGeometry) (c : InitConfig) (s : State) : (newDriver r b g c s).faultedModel = s.faultedModel := rfl
@[simp] theorem newDriver_refused (r b : Option PinId) (g : PanelGeometry) (c : InitConfig) (s : State) : (newDriver r b g c s).refused = s.refused := rfl
@[simp] theorem newDriver_panel (r b : Option PinId) (g : PanelGeometry) (c : InitConfig) (s : State) : (newDriver r b g c s).panel = readTrace s.cfg g c s.trace := rfl
@[simp] theorem newDriver_result (r b : Option PinId) (g : PanelGeometry) (c : InitConfig) (s : State) : (newDriver r b g c s).result = s.result := rfl
@[simp] theorem newDriver_env (r b : Option PinId) (g : PanelGeometry) (c : InitConfig) (s : State) : (newDriver r b g c s).env = s.env := rfl

/-! ## pull -/

@[simp] theorem pull_cfg (s : State) : (pull s).cfg = s.cfg := by unfold pull; split <;> rfl
@[simp] theorem pull_prog (s : State) : (pull s).prog = s.prog := by unfold pull; split <;> rfl
@[simp] theorem pull_idx (s : State) : (pull s).idx = s.idx := by unfold pull; split <;> rfl
@[simp] theorem pull_probe (s : State) : (pull s).probe = s.probe := by unfold pull; split <;> rfl
@[simp] theorem pull_taken (s : State) : (pull s).taken = s.taken := by unfold pull; split <;> rfl
@[simp] theorem pull_handle (s : State) : (pull s).handle = s.handle := by unfold pull; split <;> rfl
@[simp] theorem pull_tcfg (s : State) : (pull s).tcfg = s.tcfg := by unfold pull; split <;> rfl
@[simp] theorem pull_dataOut (s : State) : (pull s).dataOut = s.dataOut := by unfold pull; split <;> rfl
@[simp] theorem pull_strobe (s : State) : (pull s).strobe = s.strobe := by unfold pull; split <;> rfl
@[simp] theorem pull_dc (s : State) : (pull s).dc = s.dc := by unfold pull; split <;> rfl
@[simp] theorem pull_rst (s : State) : (pull s).rst = s.rst := by unfold pull; split <;> rfl
@[simp] theorem pull_bl (s : State) : (pull s).bl = s.bl := by unfold pull; split <;> rfl
@[simp] theorem pull_owner (s : State) : (pull s).owner = s.owner := by unfold pull; split <;> rfl
@[simp] theorem pull_ctrl (s : State) : (pull s).ctrl = s.ctrl := by unfold pull; split <;> rfl
@[simp] theorem pull_geom (s : State) : (pull s).geom = s.geom := by unfold pull; split <;> rfl
@[simp] theorem pull_icfg (s : State) : (pull s).icfg = s.icfg := by unfold pull; split <;> rfl
@[simp] theorem pull_rstPin (s : State) : (pull s).rstPin = s.rstPin := by unfold pull; split <;> rfl
@[simp] theorem pull_blPin (s : State) : (pull s).blPin = s.blPin := by unfold pull; split <;> rfl
@[simp] theorem pull_trace (s : State) : (pull s).trace = s.trace := by unfold pull; split <;> rfl
@[simp] theorem pull_faultedModel (s : State) : (pull s).faultedModel = s.faultedModel := by unfold pull; split <;> rfl
@[simp] theorem pull_refused (s : State) : (pull s).refused = s.refused := by unfold pull; split <;> rfl
@[simp] theorem pull_panel (s : State) : (pull s).panel = s.panel := by unfold pull; split <;> rfl
@[simp] theorem pull_result (s : State) : (pull s).result = s.result := by unfold pull; split <;> rfl
@[simp] theorem pull_env (s : State) : (pull s).env = s.env := by unfold pull; split <;> rfl

/-! ## withCtrl -/

@[simp] theorem withCtrl_cfg (s : State) (c : Ctrl) : (s.withCtrl c).cfg = s.cfg := rfl
@[simp] theorem withCtrl_prog (s : State) (c : Ctrl) : (s.withCtrl c).prog = s.prog := rfl
@[simp] theorem withCtrl_idx (s : State) (c : Ctrl) : (s.withCtrl c).idx = s.idx := rfl
@[simp] theorem withCtrl_probe (s : State) (c : Ctrl) : (s.withCtrl c).probe = s.probe := rfl
@[simp] theorem withCtrl_taken (s : State) (c : Ctrl) : (s.withCtrl c).taken = s.taken := rfl
@[simp] theorem withCtrl_handle (s : State) (c : Ctrl) : (s.withCtrl c).handle = s.handle := rfl
@[simp] theorem withCtrl_tcfg (s : State) (c : Ctrl) : (s.withCtrl c).tcfg = s.tcfg := rfl
@[simp] theorem withCtrl_fifo (s : State) (c : Ctrl) : (s.withCtrl c).fifo = s.fifo := rfl
@[simp] theorem withCtrl_osr (s : State) (c : Ctrl) : (s.withCtrl c).osr = s.osr := rfl
@[simp] theorem withCtrl_dataOut (s : State) (c : Ctrl) : (s.withCtrl c).dataOut = s.dataOut := rfl
@[simp] theorem withCtrl_strobe (s : State) (c : Ctrl) : (s.withCtrl c).strobe = s.strobe := rfl
@[simp] theorem withCtrl_dc (s : State) (c : Ctrl) : (s.withCtrl c).dc = s.dc := rfl
@[simp] theorem withCtrl_rst (s : State) (c : Ctrl) : (s.withCtrl c).rst = s.rst := rfl
@[simp] theorem withCtrl_bl (s : State) (c : Ctrl) : (s.withCtrl c).bl = s.bl := rfl
@[simp] theorem withCtrl_owner (s : State) (c : Ctrl) : (s.withCtrl c).owner = s.owner := rfl
@[simp] theorem withCtrl_ctrl (s : State) (c : Ctrl) : (s.withCtrl c).ctrl = c := rfl
@[simp] theorem withCtrl_geom (s : State) (c : Ctrl) : (s.withCtrl c).geom = s.geom := rfl
@[simp] theorem withCtrl_icfg (s : State) (c : Ctrl) : (s.withCtrl c).icfg = s.icfg := rfl
@[simp] theorem withCtrl_rstPin (s : State) (c : Ctrl) : (s.withCtrl c).rstPin = s.rstPin := rfl
@[simp] theorem withCtrl_blPin (s : State) (c : Ctrl) : (s.withCtrl c).blPin = s.blPin := rfl
@[simp] theorem withCtrl_trace (s : State) (c : Ctrl) : (s.withCtrl c).trace = s.trace := rfl
@[simp] theorem withCtrl_faultedModel (s : State) (c : Ctrl) : (s.withCtrl c).faultedModel = s.faultedModel := rfl
@[simp] theorem withCtrl_refused (s : State) (c : Ctrl) : (s.withCtrl c).refused = s.refused := rfl
@[simp] theorem withCtrl_panel (s : State) (c : Ctrl) : (s.withCtrl c).panel = s.panel := rfl
@[simp] theorem withCtrl_result (s : State) (c : Ctrl) : (s.withCtrl c).result = s.result := rfl
@[simp] theorem withCtrl_env (s : State) (c : Ctrl) : (s.withCtrl c).env = s.env := rfl

end Sys2Proof.Machine
end

