-- ==== Sys2Proof/Laws/Frames.lean ====
section
/-! SUPPORT. The small lemmas of Flow, of the frames (EngineOnly, BusOnly, BusAndResult, SequencerOnly), of the draws, of the
flags, and of Emits. -/

namespace Sys2Proof.Machine

/-! ## Flow -/

@[simp] theorem andThen_ok (s : State) (k : State → Flow) : (Flow.ok s).andThen k = k s := rfl
@[simp] theorem andThen_err (e : Error) (s : State) (k : State → Flow) : (Flow.err e s).andThen k = .err e s := rfl
@[simp] theorem andThen_fault (f : Fault) (k : State → Flow) : (Flow.fault f).andThen k = .fault f := rfl
@[simp] theorem andThen_return (f : Flow) : f.andThen .ok = f := by cases f <;> rfl

theorem andThen_assoc (f : Flow) (k l : State → Flow) :
    (f.andThen k).andThen l = f.andThen (fun s => (k s).andThen l) := by cases f <;> rfl

theorem andThen_eq_ok {f : Flow} {k : State → Flow} {t : State} (h : f.andThen k = .ok t) :
    ∃ s, f = .ok s ∧ k s = .ok t := by
  cases f with
  | ok s => exact ⟨s, rfl, h⟩
  | err e s => cases h
  | fault x => cases h

@[simp] theorem finish_ok (v : Value) (s : State) : (Flow.ok s).finish v = .next { s with result := some (.ok v) } := rfl
@[simp] theorem finish_err (v : Value) (e : Error) (s : State) :
    (Flow.err e s).finish v = .next { s with result := some (.err e) } := rfl
@[simp] theorem finish_fault (v : Value) (f : Fault) : (Flow.fault f).finish v = .fault f := rfl
@[simp] theorem silent_ok (s : State) : (Flow.ok s).silent = .next s := rfl
@[simp] theorem silent_err (e : Error) (s : State) : (Flow.err e s).silent = .next s := rfl
@[simp] theorem silent_fault (f : Fault) : (Flow.fault f).silent = .fault f := rfl
@[simp] theorem onError_ok (s : State) (k : State → State) : (Flow.ok s).onError k = .ok s := rfl
@[simp] theorem onError_err (e : Error) (s : State) (k : State → State) : (Flow.err e s).onError k = .err e (k s) := rfl
@[simp] theorem onError_fault (f : Fault) (k : State → State) : (Flow.fault f).onError k = .fault f := rfl

/-! ## Frames -/

theorem EngineOnly.refl (s : State) : EngineOnly s s := rfl

theorem BusOnly.refl (s : State) : BusOnly s s := rfl

theorem EngineOnly.trans {s t u : State} (h : EngineOnly s t) (k : EngineOnly t u) : EngineOnly s u := by
  cases s; cases t; cases u; simp_all [EngineOnly]

theorem BusOnly.trans {s t u : State} (h : BusOnly s t) (k : BusOnly t u) : BusOnly s u := by
  cases s; cases t; cases u; simp_all [BusOnly]

theorem EngineOnly.bus {s t : State} (h : EngineOnly s t) : BusOnly s t := by
  cases s; cases t; simp_all [BusOnly, EngineOnly]

theorem EngineOnly.dc {s t : State} (h : EngineOnly s t) : t.dc = s.dc := by rw [h]
theorem EngineOnly.env {s t : State} (h : EngineOnly s t) : t.env = s.env := by rw [h]

theorem BusOnly.cfg {s t : State} (h : BusOnly s t) : t.cfg = s.cfg := by rw [h]
theorem BusOnly.prog {s t : State} (h : BusOnly s t) : t.prog = s.prog := by rw [h]
theorem BusOnly.idx {s t : State} (h : BusOnly s t) : t.idx = s.idx := by rw [h]
theorem BusOnly.probe {s t : State} (h : BusOnly s t) : t.probe = s.probe := by rw [h]
theorem BusOnly.taken {s t : State} (h : BusOnly s t) : t.taken = s.taken := by rw [h]
theorem BusOnly.handle {s t : State} (h : BusOnly s t) : t.handle = s.handle := by rw [h]
theorem BusOnly.tcfg {s t : State} (h : BusOnly s t) : t.tcfg = s.tcfg := by rw [h]
theorem BusOnly.rst {s t : State} (h : BusOnly s t) : t.rst = s.rst := by rw [h]
theorem BusOnly.bl {s t : State} (h : BusOnly s t) : t.bl = s.bl := by rw [h]
theorem BusOnly.owner {s t : State} (h : BusOnly s t) : t.owner = s.owner := by rw [h]
theorem BusOnly.ctrl {s t : State} (h : BusOnly s t) : t.ctrl = s.ctrl := by rw [h]
theorem BusOnly.geom {s t : State} (h : BusOnly s t) : t.geom = s.geom := by rw [h]
theorem BusOnly.icfg {s t : State} (h : BusOnly s t) : t.icfg = s.icfg := by rw [h]
theorem BusOnly.rstPin {s t : State} (h : BusOnly s t) : t.rstPin = s.rstPin := by rw [h]
theorem BusOnly.blPin {s t : State} (h : BusOnly s t) : t.blPin = s.blPin := by rw [h]
theorem BusOnly.faultedModel {s t : State} (h : BusOnly s t) : t.faultedModel = s.faultedModel := by rw [h]
theorem BusOnly.refused {s t : State} (h : BusOnly s t) : t.refused = s.refused := by rw [h]
theorem BusOnly.result {s t : State} (h : BusOnly s t) : t.result = s.result := by rw [h]

theorem SequencerOnly.refl (s : State) : SequencerOnly s s := rfl

theorem SequencerOnly.trans {s t u : State} (h : SequencerOnly s t) (k : SequencerOnly t u) : SequencerOnly s u := by
  cases s; cases t; cases u; simp_all [SequencerOnly]

theorem BusOnly.sequencer {s t : State} (h : BusOnly s t) : SequencerOnly s t := by
  cases s; cases t; simp_all [SequencerOnly, BusOnly]

theorem SequencerOnly.cfg {s t : State} (h : SequencerOnly s t) : t.cfg = s.cfg := by rw [h]
theorem SequencerOnly.prog {s t : State} (h : SequencerOnly s t) : t.prog = s.prog := by rw [h]
theorem SequencerOnly.idx {s t : State} (h : SequencerOnly s t) : t.idx = s.idx := by rw [h]
theorem SequencerOnly.probe {s t : State} (h : SequencerOnly s t) : t.probe = s.probe := by rw [h]
theorem SequencerOnly.taken {s t : State} (h : SequencerOnly s t) : t.taken = s.taken := by rw [h]
theorem SequencerOnly.handle {s t : State} (h : SequencerOnly s t) : t.handle = s.handle := by rw [h]
theorem SequencerOnly.tcfg {s t : State} (h : SequencerOnly s t) : t.tcfg = s.tcfg := by rw [h]
theorem SequencerOnly.bl {s t : State} (h : SequencerOnly s t) : t.bl = s.bl := by rw [h]
theorem SequencerOnly.owner {s t : State} (h : SequencerOnly s t) : t.owner = s.owner := by rw [h]
theorem SequencerOnly.geom {s t : State} (h : SequencerOnly s t) : t.geom = s.geom := by rw [h]
theorem SequencerOnly.icfg {s t : State} (h : SequencerOnly s t) : t.icfg = s.icfg := by rw [h]
theorem SequencerOnly.rstPin {s t : State} (h : SequencerOnly s t) : t.rstPin = s.rstPin := by rw [h]
theorem SequencerOnly.blPin {s t : State} (h : SequencerOnly s t) : t.blPin = s.blPin := by rw [h]
theorem SequencerOnly.faultedModel {s t : State} (h : SequencerOnly s t) : t.faultedModel = s.faultedModel := by rw [h]
theorem SequencerOnly.refused {s t : State} (h : SequencerOnly s t) : t.refused = s.refused := by rw [h]

/-- Once the result is put in, the bus frame is the frame of a call. -/
theorem BusOnly.withResult {s t : State} (h : BusOnly s t) (r : Option Result) :
    BusAndResult s { t with result := r } := by
  cases s; cases t; simp_all [BusOnly, BusAndResult]

/-! ## Draws -/

@[simp] theorem answer_rest {α : Type} (d : Draws α) (free : Nat → α) (k : Nat) :
    d.rest.answer free k = d.answer free (k + 1) := by
  obtain ⟨coming, used⟩ := d
  cases coming with
  | nil => simp [Draws.rest, Draws.answer, Nat.add_comm, Nat.add_left_comm]
  | cons a r =>
    have : used + k - r.length = used + (k + 1) - (r.length + 1) := by omega
    simp [Draws.rest, Draws.answer, this]

@[simp] theorem pinAnswer_emit (s : State) (e : Event) (k : Nat) : (s.emit e).pinAnswer k = s.pinAnswer k := rfl
@[simp] theorem pinAnswer_pinDrawn (s : State) (k : Nat) : s.pinDrawn.pinAnswer k = s.pinAnswer (k + 1) := by
  simp [State.pinAnswer]
@[simp] theorem pinAnswer_withPin (s : State) (p : Pin) (l : PinLevel) (k : Nat) :
    (s.withPin p l).pinAnswer k = s.pinAnswer k := by simp [State.pinAnswer]

theorem pinsHold.mono {s : State} {m n : Nat} (h : s.pinsHold n) (hmn : m ≤ n) : s.pinsHold m :=
  fun k hk => h k (by omega)

/-! ## Parameters (R7) -/

/-- Fifo is required when BUS_WIDTH = 8: no value of the parameters is an 8-bit Direct bus. -/
theorem engineKind_of_w8 {p : Params} (h : p.busWidth = .w8) : p.engineKind = .fifo := by
  revert h; unfold Params.busWidth Params.engineKind; cases p.bus <;> simp [Bus.width, Bus.kind]

/-- SYS_CLK_HZ and DIV are positive. -/
theorem Ratio.num_pos (q : Ratio) : 0 < q.num ∧ 0 < q.den := ⟨Nat.succ_pos _, Nat.succ_pos _⟩

/-! ## Flags and pending words -/

theorem idle_iff (s : State) : s.idle = true ↔ s.pending = [] := by
  unfold State.idle State.pending
  cases s.cfg.engineKind <;> cases s.osr <;> simp

@[simp] theorem pinPhase_pin (p : Phase) : pinPhase (phaseLevel p).pin = some p := by cases p <;> rfl

theorem phase?_of_ne_unset {s : State} (h : s.dc ≠ .unset) : ∃ p, s.phase? = some p := by
  unfold State.phase?
  cases hd : s.dc <;> simp_all [pinPhase]

theorem dc_of_phase? {s : State} {p : Phase} (h : s.phase? = some p) : s.dc = (phaseLevel p).pin := by
  unfold State.phase? at h
  cases hd : s.dc <;> simp_all [pinPhase] <;> subst h <;> rfl

theorem settledTrace_of_idle {s : State} (h : s.pending = []) : s.settledTrace = s.trace := by
  unfold State.settledTrace; cases s.phase? <;> simp [h]

theorem settledPanel_of_idle {s : State} (h : s.pending = []) : s.settledPanel = s.panel := by
  unfold State.settledPanel; cases s.phase? <;> simp [h]

/-! ## Emits -/

theorem Emits.refl (s : State) : Emits s [] s := by simp [Emits]

theorem Emits.trans {s t u : State} {a b : List Event} (hb : BusOnly s t) (h : Emits s a t) (k : Emits t b u) :
    Emits s (a ++ b) u := by
  obtain ⟨h1, h2⟩ := h
  obtain ⟨k1, k2⟩ := k
  refine ⟨by rw [k1, h1, List.append_assoc], ?_⟩
  rw [k2, h2, hb.cfg, hb.geom, hb.icfg, List.foldl_append]

/-- The returned result is no part of what the bus carries. -/
theorem Emits.withResult {s t : State} {es : List Event} (h : Emits s es t) (r : Option Result) :
    Emits s es { t with result := r } := h

end Sys2Proof.Machine
end

