-- ==== Sys2Proof/Laws/Memory.lean ====
section
/-! SUPPORT. The panel's FRAME as a memory: read after write, and every operation on it keeps the canonical form. -/

namespace Sys2Proof.Machine

theorem Memory.wf_iff (m : Memory) : Memory.wf m = true ↔ m.Pairwise (fun a b => a.1 < b.1) := by
  induction m with
  | nil => simp [Memory.wf]
  | cons a r ih =>
    cases r with
    | nil => simp [Memory.wf]
    | cons b r =>
      simp only [Memory.wf, Bool.and_eq_true, decide_eq_true_eq, ih, List.pairwise_cons]
      constructor
      · rintro ⟨hab, hb, hr⟩
        refine ⟨fun c hc => ?_, hb, hr⟩
        rcases List.mem_cons.1 hc with rfl | hc
        · exact hab
        · exact hab.trans (hb c hc)
      · rintro ⟨ha, hb, hr⟩
        exact ⟨ha b (by simp), hb, hr⟩

theorem Memory.mem_write {m : Memory} {k : Nat} {v : Sample} {c : Nat × Sample} (h : c ∈ Memory.write m k v) :
    c.1 = k ∨ c ∈ m := by
  induction m with
  | nil => simp_all [Memory.write]
  | cons a r ih =>
    obtain ⟨a, u⟩ := a
    unfold Memory.write at h
    split at h
    · rcases List.mem_cons.1 h with rfl | h
      · exact .inl rfl
      · exact .inr h
    · split at h
      · rcases List.mem_cons.1 h with rfl | h
        · exact .inl rfl
        · exact .inr (List.mem_cons_of_mem _ h)
      · rcases List.mem_cons.1 h with rfl | h
        · exact .inr (by simp)
        · exact (ih h).imp id (List.mem_cons_of_mem _)

/-- A write keeps the canonical form. -/
theorem Memory.write_wf {m : Memory} (h : Memory.wf m = true) (k : Nat) (v : Sample) :
    Memory.wf (Memory.write m k v) = true := by
  rw [Memory.wf_iff] at *
  induction m with
  | nil => simp [Memory.write]
  | cons a r ih =>
    obtain ⟨a, u⟩ := a
    obtain ⟨ha, hr⟩ := List.pairwise_cons.1 h
    unfold Memory.write
    split
    · rename_i hk
      refine List.pairwise_cons.2 ⟨fun c hc => ?_, h⟩
      rcases List.mem_cons.1 hc with rfl | hc
      · exact hk
      · exact hk.trans (ha c hc)
    · split
      · rename_i _ hk
        subst hk
        exact List.pairwise_cons.2 ⟨ha, hr⟩
      · refine List.pairwise_cons.2 ⟨fun c hc => ?_, ih hr⟩
        rcases Memory.mem_write hc with hc | hc
        · simp only [hc]; omega
        · exact ha c hc

/-- Forgetting a window keeps the canonical form. -/
theorem Memory.forget_wf {m : Memory} (h : Memory.wf m = true) (xs ys xe ye : Nat) :
    Memory.wf (Memory.forget m xs ys xe ye) = true := by
  rw [Memory.wf_iff] at *
  exact h.filter _

theorem Memory.read_none_of_lt {m : Memory} {k : Nat} (h : ∀ c ∈ m, k < c.1) : Memory.read m k = none := by
  induction m with
  | nil => rfl
  | cons a r ih =>
    obtain ⟨a, u⟩ := a
    have ha : k < a := h (a, u) (by simp)
    have : a ≠ k := by omega
    simp only [Memory.read, this, if_false]
    exact ih fun c hc => h c (List.mem_cons_of_mem _ hc)

/-- Reading the key just written gives the value written. -/
@[simp] theorem Memory.read_write_same (m : Memory) (k : Nat) (v : Sample) :
    Memory.read (Memory.write m k v) k = some v := by
  induction m with
  | nil => simp [Memory.write, Memory.read]
  | cons a r ih =>
    obtain ⟨a, u⟩ := a
    unfold Memory.write
    split
    · simp [Memory.read]
    · split
      · simp [Memory.read]
      · rename_i h1 h2
        have : a ≠ k := fun h => h2 h.symm
        simp [Memory.read, this, ih]

/-- A write leaves every other key as it was. -/
theorem Memory.read_write_other (m : Memory) {k j : Nat} (v : Sample) (h : j ≠ k) :
    Memory.read (Memory.write m k v) j = Memory.read m j := by
  induction m with
  | nil => simp [Memory.write, Memory.read, h.symm]
  | cons a r ih =>
    obtain ⟨a, u⟩ := a
    unfold Memory.write
    split
    · simp [Memory.read, h.symm]
    · split
      · rename_i hk
        subst hk
        simp [Memory.read, h.symm]
      · simp [Memory.read, ih]

/-- Two pixels with 16-bit columns have the same key only if they are the same pixel. -/
theorem pixelKey_inj {x y x' y' : Nat} (hx : x < 65536) (hx' : x' < 65536) (h : pixelKey x y = pixelKey x' y') :
    x = x' ∧ y = y' := by
  unfold pixelKey at h; omega

end Sys2Proof.Machine
end

