-- ==== Sys2Proof/Laws/Engine.lean ====
section
/-! SUPPORT. One lemma per operation of the engine and of the bus, which says once everything it can do: the engine step, any
number of engine steps, the drain, a push, a pin drive, and the sequencer's own steps. -/

namespace Sys2Proof.Machine

/-! ## Engine steps -/

/-- An enabled or disabled engine step, where no word can be strobed with an unknown phase: it goes on, changes only ENGINE's
own state, and what the bus will have carried is as before. One pending word needs two steps, one in flight one. -/
theorem engineStep_spec {s : State} (h : s.phaseKnown) :
    ∃ t, engineStep s = .ok t ∧ EngineOnly s t ∧ Emits s [] t ∧ t.phaseKnown ∧
      2 * t.fifo.length + t.osr.toList.length = 2 * s.fifo.length + s.osr.toList.length -
        (if s.pending = [] then 0 else 1) ∧ t.fifo.length ≤ s.fifo.length := by
  unfold engineStep State.enginePhase
  cases hk : s.cfg.engineKind with
  | direct =>
    have hp : s.pending = [] := by simp [State.pending, hk]
    exact ⟨s, rfl, rfl, Emits.refl s, h, by simp [hp], le_refl _⟩
  | fifo =>
    cases ho : s.osr with
    | some w =>
      have hp : s.pending = w :: s.fifo := by simp [State.pending, hk, ho]
      have hd : s.dc ≠ .unset := by rcases h with h | h <;> simp_all
      obtain ⟨p, hph⟩ := phase?_of_ne_unset hd
      refine ⟨{ busCycle p w s with osr := none }, ?_, ?_, ?_, .inr ?_, ?_, ?_⟩
      · simp [emitWord, ho, strobeWord, hph]
      · simp [EngineOnly, busCycle, State.emit]
      · have h1 : State.phase? { busCycle p w s with osr := none } = some p := hph
        have h2 : State.pending { busCycle p w s with osr := none } = s.fifo := by
          simp [State.pending, hk]
        constructor
        · simp only [State.settledTrace, h1, h2, hph, hp]
          simp
        · simp only [State.settledPanel, h1, h2, hph, hp]
          simp
      · exact hd
      · simp [hp]
      · simp
    | none =>
      cases hf : s.fifo with
      | nil =>
        have hp : s.pending = [] := by simp [State.pending, hk, ho, hf]
        exact ⟨s, rfl, rfl, Emits.refl s, h, by simp [hp, ho, hf], by simp [hf]⟩
      | cons w ws =>
        have hp : s.pending = w :: ws := by simp [State.pending, hk, ho, hf]
        have hq : (pull s).pending = s.pending := by simp [State.pending, hk, ho, hf, pull]
        have hh : (pull s).phase? = s.phase? := by simp [State.phase?]
        refine ⟨pull s, rfl, ?_, ?_, ?_, ?_, ?_⟩
        · simp [EngineOnly, pull, hf]
        · exact ⟨by simp [State.settledTrace, hq, hh], by simp [State.settledPanel, hq, hh]⟩
        · exact h.imp (fun h => by rw [hq]; exact h) (fun h => by simpa using h)
        · simp [pull, hp, hf]; omega
        · simp [pull, hf]

/-- Any number of engine steps. -/
theorem runEngine_spec (n : Nat) {s : State} (h : s.phaseKnown) :
    ∃ t, runEngine n s = .ok t ∧ EngineOnly s t ∧ Emits s [] t ∧ t.phaseKnown ∧
      (2 * s.fifo.length + s.osr.toList.length ≤ n → t.pending = []) ∧ t.fifo.length ≤ s.fifo.length := by
  induction n generalizing s with
  | zero =>
    refine ⟨s, rfl, rfl, Emits.refl s, h, fun h0 => ?_, le_refl _⟩
    have hf : s.fifo = [] := List.eq_nil_of_length_eq_zero (by omega)
    have ho : s.osr.toList = [] := List.eq_nil_of_length_eq_zero (by omega)
    unfold State.pending
    cases s.cfg.engineKind <;> simp [hf, ho]
  | succ n ih =>
    obtain ⟨t, ht, hE, hM, hP, hL, hF⟩ := engineStep_spec h
    obtain ⟨u, hu, hE', hM', hP', hD', hF'⟩ := ih hP
    refine ⟨u, by simp [runEngine, ht, hu], hE.trans hE', ?_, hP', fun h0 => ?_, hF'.trans hF⟩
    · simpa using hM.trans hE.bus hM'
    · by_cases hp : s.pending = []
      · -- nothing pending: the engine is stalled throughout
        have hst : engineStep s = .ok s := by
          unfold engineStep State.enginePhase
          unfold State.pending at hp
          cases hk : s.cfg.engineKind with
          | direct => rfl
          | fifo =>
            simp only [hk] at hp
            cases ho : s.osr with
            | some w => simp [ho] at hp
            | none =>
              cases hf : s.fifo with
              | nil => rfl
              | cons w ws => simp [hf] at hp
        have hts : t = s := by rw [hst] at ht; cases ht; rfl
        subst hts
        have hm : u.settledTrace = t.settledTrace := by simpa using hM'.1
        -- the fifo does not grow and a pending word can only come from it
        have hrun : ∀ m, runEngine m t = .ok t := by
          intro m
          induction m with
          | zero => rfl
          | succ m ihm => simp [runEngine, hst, ihm]
        rw [hrun] at hu
        cases hu
        exact hp
      · rw [if_neg hp] at hL
        exact hD' (by omega)

/-- `Drain()` where no word can be strobed with an unknown phase: it ends with nothing queued or in flight, TRACE holds every
pushed word's cycle, and only ENGINE's own state has changed (R51). -/
theorem drain_spec {s : State} (h : s.phaseKnown) :
    ∃ t, drain s = .ok t ∧ EngineOnly s t ∧ Emits s [] t ∧ t.pending = [] ∧
      t.trace = s.settledTrace ∧ t.panel = s.settledPanel := by
  obtain ⟨t, ht, hE, hM, hP, hD, -⟩ := runEngine_spec (2 * s.fifo.length + 1) h
  have hp : t.pending = [] := hD (by cases s.osr <;> simp)
  refine ⟨t, ht, hE, hM, hp, ?_, ?_⟩
  · rw [← settledTrace_of_idle hp]; simpa using hM.1
  · rw [← settledPanel_of_idle hp]; simpa using hM.2

/-- `Drain()` where a word is queued and DC is Unset: the model fault PhaseUnset, and nothing is strobed (R139). -/
theorem drain_unset {s : State} (hp : s.pending ≠ []) (hd : s.dc = .unset) :
    ∃ u, drain s = .fault (.phaseUnset u) ∧ u.faultedModel = true ∧ u.trace = s.trace ∧ u.panel = s.panel ∧
      u.dc = .unset := by
  have hk : s.cfg.engineKind = .fifo := by
    cases h : s.cfg.engineKind with
    | fifo => rfl
    | direct => simp [State.pending, h] at hp
  have hph : s.phase? = none := by simp [State.phase?, hd, pinPhase]
  unfold drain
  cases ho : s.osr with
  | some w =>
    refine ⟨{ s with faultedModel := true }, ?_, rfl, rfl, rfl, hd⟩
    simp [runEngine, engineStep, State.enginePhase, hk, ho, emitWord, strobeWord, hph, phaseUnset]
  | none =>
    cases hf : s.fifo with
    | nil => simp [State.pending, hk, ho, hf] at hp
    | cons w ws =>
      have h2 : (pull s).phase? = none := by simp [State.phase?, hd, pinPhase]
      have h3 : (pull s).osr = some w := by simp [pull, hf]
      have : 2 * (w :: ws).length + 1 = (2 * ws.length + 1) + 1 + 1 := by simp; omega
      rw [this]
      refine ⟨{ pull s with faultedModel := true }, ?_, rfl, by simp, by simp, by simp [hd]⟩
      simp [runEngine, engineStep, State.enginePhase, hk, ho, hf, h3, emitWord, strobeWord, h2, phaseUnset]

/-! ## Pin drives -/

/-- A drive of DC that succeeds, with nothing pending. -/
theorem setPin_dc_ok {s : State} (p : Phase) (h : s.pinAnswer 0 = false) (hp : s.pending = []) :
    ∃ t, setPin .dc (phaseLevel p) (.sel p) s = .ok t ∧ BusOnly s t ∧ Emits s [.sel p] t ∧ t.pending = [] ∧
      t.phase? = some p ∧ t.trace = s.trace ++ [.sel p] ∧ t.panel = s.panel ∧
      ∀ k, t.pinAnswer k = s.pinAnswer (k + 1) := by
  have hq : State.pending ((s.pinDrawn.withPin .dc (phaseLevel p).pin).emit (.sel p)) = [] := by
    simpa [State.pending] using hp
  refine ⟨_, by simp only [setPin, h]; rfl, ?_, ?_, hq, ?_, by simp, by simp [Panel.take], by simp⟩
  · simp [BusOnly, State.emit, State.withPin, State.pinDrawn]
  · constructor
    · rw [settledTrace_of_idle hq, settledTrace_of_idle hp]; simp
    · rw [settledPanel_of_idle hq, settledPanel_of_idle hp]; simp
  · simp [State.phase?]

/-- A drive of DC that fails: the pin is Unset, the failure is an event, BusFault(DC) is raised (R138). -/
theorem setPin_fails {s : State} (p : Pin) (l : Level) (e : Event) (h : s.pinAnswer 0 = true) :
    setPin p l e s = .err (.busFault p) ((s.pinDrawn.withPin p .unset).emit (.pinFault p)) := by
  simp [setPin, h, raise]

/-! ## SELECT -/

/-- SELECT that succeeds (R99). -/
theorem selectPhase_ok {s : State} (p : Phase) (hk : s.phaseKnown) (h : s.pinsHold 1) :
    ∃ t, selectPhase p s = .ok t ∧ BusOnly s t ∧ Emits s [.sel p] t ∧ t.pending = [] ∧ t.phase? = some p ∧
      t.trace = s.settledTrace ++ [.sel p] ∧ t.panel = s.settledPanel ∧
      ∀ k, t.pinAnswer k = s.pinAnswer (k + 1) := by
  obtain ⟨d, hd, hE, hM, hp, htr, hpa⟩ := drain_spec hk
  have ha : ∀ k, d.pinAnswer k = s.pinAnswer k := fun k => by simp [State.pinAnswer, hE.env]
  obtain ⟨t, ht, hB, hM', hp', hph, htr', hpa', hk'⟩ :=
    setPin_dc_ok p ((ha 0).trans (h 0 Nat.zero_lt_one)) hp
  refine ⟨t, by simp [selectPhase, hd, ht], hE.bus.trans hB, ?_, hp', hph, by rw [htr', htr], by rw [hpa', hpa],
    fun k => by rw [hk', ha]⟩
  simpa using hM.trans hE.bus hM'

/-! ## WRITE -/

/-- The engine's turns before a push, and the hold on a full FIFO. -/
theorem beforePush_spec {s : State} (hk : s.phaseKnown) (hf : s.cfg.engineKind = .fifo) :
    ∃ t, (engineTurns s).andThen holdWhileFull = .ok t ∧ BusOnly s t ∧ Emits s [] t ∧ t.phaseKnown ∧ t.dc = s.dc ∧
      (∀ k, t.pinAnswer k = s.pinAnswer k) ∧
      (s.fifo.length ≤ s.cfg.fifoDepth → t.fifo.length < s.cfg.fifoDepth) := by
  -- the turns
  obtain ⟨a, ha, hBa, hMa, hKa, hdca, hpa, hFa⟩ : ∃ a, engineTurns s = .ok a ∧ BusOnly s a ∧ Emits s [] a ∧ a.phaseKnown ∧
      a.dc = s.dc ∧ (∀ k, a.pinAnswer k = s.pinAnswer k) ∧ a.fifo.length ≤ s.fifo.length := by
    unfold engineTurns
    by_cases he : s.engineEnabled = true
    · have hk' : s.turnsDrawn.phaseKnown := hk.imp (fun h => by simpa [State.pending] using h) (fun h => by simpa using h)
      obtain ⟨a, ha, hE, hM, hK, -, hF⟩ := runEngine_spec s.turnsAnswer hk'
      have hB0 : BusOnly s s.turnsDrawn := rfl
      have hM0 : Emits s [] s.turnsDrawn := Emits.refl s
      refine ⟨a, by simp [he, ha], hB0.trans hE.bus, ?_, hK, by rw [hE.dc]; rfl, fun k => ?_, by simpa using hF⟩
      · simpa using hM0.trans hB0 hM
      · simp [State.pinAnswer, hE.env]
    · exact ⟨s, by simp [he], rfl, Emits.refl s, hk, rfl, fun _ => rfl, le_refl _⟩
  have hca := hBa.cfg
  rw [ha, andThen_ok]
  unfold holdWhileFull
  by_cases hfull : a.txFull = true
  · rw [if_pos hfull]
    have hlen : a.fifo.length = s.cfg.fifoDepth := by
      simpa [State.txFull, hca, hf] using hfull
    obtain ⟨b, hb, hE, hM, hK, hL, hF⟩ := engineStep_spec hKa
    have hcb : b.cfg = s.cfg := by rw [hE.bus.cfg, hca]
    have hpos : a.pending ≠ [] := by
      intro h
      have : a.fifo = [] := by
        unfold State.pending at h
        rw [hca, hf] at h
        simp at h
        exact h.2
      rw [this] at hlen
      simp [Params.fifoDepth] at hlen
    rw [if_neg hpos] at hL
    rw [hb, andThen_ok]
    by_cases hfull' : b.txFull = true
    · rw [if_pos hfull']
      have hlen' : b.fifo.length = s.cfg.fifoDepth := by
        simpa [State.txFull, hcb, hf] using hfull'
      have hob : b.osr.toList.length = 0 := by
        have h1 : a.osr.toList.length ≤ 1 := by cases a.osr <;> simp
        omega
      obtain ⟨c, hc, hE', hM', hK', hL', hF'⟩ := engineStep_spec hK
      have hposb : b.pending ≠ [] := by
        intro h
        have : b.fifo = [] := by
          unfold State.pending at h
          rw [hcb, hf] at h
          simp at h
          exact h.2
        rw [this] at hlen'
        simp [Params.fifoDepth] at hlen'
      rw [if_neg hposb] at hL'
      have hpb : 0 < s.cfg.fifoDepth := Nat.succ_pos _
      have hlt : c.fifo.length < s.cfg.fifoDepth := by omega
      refine ⟨c, hc, (hBa.trans hE.bus).trans hE'.bus, ?_, hK', by rw [hE'.dc, hE.dc, hdca],
        fun k => ?_, fun _ => hlt⟩
      · simpa using (hMa.trans hBa hM).trans (hBa.trans hE.bus) hM'
      · rw [← hpa k]; simp [State.pinAnswer, hE'.env, hE.env]
    · rw [if_neg hfull']
      have hlen' : b.fifo.length ≠ s.cfg.fifoDepth := by
        intro h; exact hfull' (by simp [State.txFull, hcb, hf, h])
      refine ⟨b, rfl, hBa.trans hE.bus, ?_, hK, by rw [hE.dc, hdca], fun k => ?_, fun _ => by omega⟩
      · simpa using hMa.trans hBa hM
      · rw [← hpa k]; simp [State.pinAnswer, hE.env]
  · rw [if_neg hfull]
    have hlen : a.fifo.length ≠ s.cfg.fifoDepth := by
      intro h; exact hfull (by simp [State.txFull, hca, hf, h])
    exact ⟨a, rfl, hBa, hMa, hKa, hdca, hpa, fun _ => by omega⟩

/-- WRITE with a known phase, in either kind: exactly one cycle more, of that phase (R44, R45, R100, R101). -/
theorem writeWord_ok {s : State} (w : BusWord) {p : Phase} (h : s.phase? = some p) :
    ∃ t, writeWord w s = .ok t ∧ BusOnly s t ∧ Emits s [.cyc p w] t ∧ t.phase? = some p ∧
      ∀ k, t.pinAnswer k = s.pinAnswer k := by
  have hdc := dc_of_phase? h
  have hne : s.dc ≠ .unset := by rw [hdc]; cases p <;> simp [phaseLevel, Level.pin]
  unfold writeWord
  cases hk : s.cfg.engineKind with
  | direct =>
    have hp : s.pending = [] := by simp [State.pending, hk]
    have hq : (busCycle p w s).pending = [] := by simp [State.pending, hk]
    refine ⟨busCycle p w s, by simp [strobeWord, h], ?_, ⟨?_, ?_⟩, h, fun k => rfl⟩
    · simp [BusOnly, busCycle, State.emit]
    · rw [settledTrace_of_idle hq, settledTrace_of_idle hp]; simp
    · rw [settledPanel_of_idle hq, settledPanel_of_idle hp]; simp
  | fifo =>
    obtain ⟨t, ht, hB, hM, hK, hd, ha, -⟩ := beforePush_spec (.inr hne) hk
    have hph : t.phase? = some p := by rw [State.phase?, hd]; exact h
    have hkt : t.cfg.engineKind = .fifo := by rw [hB.cfg, hk]
    refine ⟨{ t with fifo := t.fifo ++ [w] }, by simp only [ht, andThen_ok], ?_, ?_, hph, ha⟩
    · exact hB.trans rfl
    · have h1 : State.phase? { t with fifo := t.fifo ++ [w] } = some p := hph
      have h2 : State.pending { t with fifo := t.fifo ++ [w] } = t.pending ++ [w] := by
        simp [State.pending, hkt]
      have hstep : Emits t [.cyc p w] { t with fifo := t.fifo ++ [w] } := by
        constructor
        · simp [State.settledTrace, h1, h2, hph]
        · simp only [State.settledPanel, h1, h2, hph]
          simp
      simpa using hM.trans hB hstep

/-- BURST with a known phase: one cycle per word, in order (R104). -/
theorem writeWords_ok (ws : List BusWord) {s : State} {p : Phase} (h : s.phase? = some p) :
    ∃ t, writeWords ws s = .ok t ∧ BusOnly s t ∧ Emits s (ws.map (fun w => .cyc p w)) t ∧ t.phase? = some p ∧
      ∀ k, t.pinAnswer k = s.pinAnswer k := by
  induction ws generalizing s with
  | nil => exact ⟨s, rfl, rfl, Emits.refl s, h, fun _ => rfl⟩
  | cons w ws ih =>
    obtain ⟨t, ht, hB, hM, hp, ha⟩ := writeWord_ok w h
    obtain ⟨u, hu, hB', hM', hp', ha'⟩ := ih hp
    refine ⟨u, by simp [writeWords, ht, hu], hB.trans hB', ?_, hp', fun k => by rw [ha', ha]⟩
    simpa using hM.trans hB hM'

theorem phaseKnown_of_phase? {s : State} {p : Phase} (h : s.phase? = some p) : s.phaseKnown :=
  .inr (by rw [dc_of_phase? h]; cases p <;> simp [phaseLevel, Level.pin])

/-! ## The sequencer's own steps -/

/-- CMD that succeeds: the command's frame (R111). -/
theorem sendCommand_ok (op : Byte) (ps : List Byte) {s : State} (hk : s.phaseKnown)
    (h : s.pinsHold (commandDrives ps)) :
    ∃ t, sendCommand op ps s = .ok t ∧ BusOnly s t ∧ Emits s (commandEvents op ps) t ∧
      t.phase? = some (if ps = [] then .command else .data) ∧ ∀ k, t.pinAnswer k = s.pinAnswer (k + commandDrives ps) := by
  have h1 : s.pinsHold 1 := pinsHold.mono h (by unfold commandDrives; split <;> omega)
  obtain ⟨a, ha, hBa, hMa, -, hpa, -, -, haa⟩ := selectPhase_ok .command hk h1
  obtain ⟨b, hb, hBb, hMb, hpb, hab⟩ := writeWord_ok (byteWord op) hpa
  have hM2 := hMa.trans hBa hMb
  have hB2 := hBa.trans hBb
  by_cases hps : ps = []
  · subst hps
    refine ⟨b, by simp [sendCommand, ha, hb], hB2, by simpa [commandEvents] using hM2, by simpa using hpb, fun k => ?_⟩
    rw [hab, haa]; simp [commandDrives]
  · have hd : commandDrives ps = 2 := by simp [commandDrives, hps]
    have hb1 : b.pinsHold 1 := fun k hk' => by rw [hab, haa]; exact h _ (by omega)
    obtain ⟨c, hc, hBc, hMc, -, hpc, -, -, hac⟩ := selectPhase_ok .data (phaseKnown_of_phase? hpb) hb1
    obtain ⟨d, hdd, hBd, hMd, hpd, had⟩ := writeWords_ok (ps.map byteWord) hpc
    refine ⟨d, by simp [sendCommand, ha, hb, hps, hc, hdd], (hB2.trans hBc).trans hBd, ?_, by simpa [hps] using hpd,
      fun k => ?_⟩
    · have := (hM2.trans hB2 hMc).trans (hB2.trans hBc) hMd
      simpa [commandEvents, hps, Function.comp_def] using this
    · rw [had, hac, hab, haa, hd]

/-- DELAY: drain, then the delay (R112). -/
theorem waitUs_ok (us : Nat) {s : State} (hk : s.phaseKnown) :
    ∃ t, waitUs us s = .ok t ∧ BusOnly s t ∧ Emits s (delayEvents us) t ∧ t.pending = [] ∧ t.dc = s.dc ∧
      ∀ k, t.pinAnswer k = s.pinAnswer k := by
  obtain ⟨d, hd, hE, hM, hp, -, -⟩ := drain_spec hk
  by_cases hus : us = 0
  · subst hus
    refine ⟨d, by simp [waitUs, hd], hE.bus, by simpa [delayEvents] using hM, hp, hE.dc, fun k => ?_⟩
    simp [State.pinAnswer, hE.env]
  · have hq : (d.emit (.delay us)).pending = [] := by simpa [State.pending] using hp
    refine ⟨d.emit (.delay us), by simp [waitUs, hd, Nat.pos_of_ne_zero hus], hE.bus.trans ?_, ?_, hq, hE.dc, fun k => ?_⟩
    · simp [BusOnly, State.emit]
    · have : Emits d [.delay us] (d.emit (.delay us)) := by
        constructor
        · rw [settledTrace_of_idle hq, settledTrace_of_idle hp]; simp
        · rw [settledPanel_of_idle hq, settledPanel_of_idle hp]; simp
      simpa [delayEvents, hus] using hM.trans hE.bus this
    · simp [State.pinAnswer, hE.env]

end Sys2Proof.Machine
end

