-- ==== Sys2Proof/Laws/Sequencer.lean ====
section
/-! SUPPORT. What the sequencer's operations do where no pin drive fails: the reset pulse and the initialization list
(spec/41_sequencer_init.md R113, R117), and the window, the stream, the fill and the pixels of DRAW (spec/42_sequencer_draw.md
R127 to R131). -/

namespace Sys2Proof.Machine

theorem pinsHold.shift {s t : State} {m n : Nat} (h : s.pinsHold (m + n)) (ha : ∀ k, t.pinAnswer k = s.pinAnswer (k + m)) :
    t.pinsHold n := fun k hk => (ha k).trans (h _ (by omega))

/-! ## The reset pulse and the initialization list -/

/-- A drive of RST that succeeds, with nothing pending: only RST, TRACE, the panel and the draws change (R113, R138). -/
theorem setPin_rst_ok {s : State} (l : Level) (h : s.pinAnswer 0 = false) (hp : s.pending = []) :
    ∃ t, setPin .rst l (.rst l) s = .ok t ∧
      t = { s with rst := l.pin, trace := s.trace ++ [.rst l], panel := s.panel.take s.cfg s.geom s.icfg (.rst l),
                   env := t.env } ∧
      t.pending = [] ∧ ∀ k, t.pinAnswer k = s.pinAnswer (k + 1) := by
  refine ⟨(s.pinDrawn.withPin .rst l.pin).emit (.rst l), by simp [setPin, h], ?_, ?_, by simp⟩
  · simp [State.emit, State.withPin, State.pinDrawn]
  · simpa [State.pending] using hp

/-- DELAY, read off the trace: nothing is queued after it (R112). -/
theorem waitUs_trace (us : Nat) {s : State} (hk : s.phaseKnown) :
    ∃ t, waitUs us s = .ok t ∧ BusOnly s t ∧ t.pending = [] ∧ t.dc = s.dc ∧ t.env = s.env ∧
      t.trace = s.settledTrace ++ delayEvents us ∧ t.panel = s.settledPanel := by
  obtain ⟨d, hd, hE, -, hp, htr, hpa⟩ := drain_spec hk
  by_cases hus : us = 0
  · exact ⟨d, by simp [waitUs, hd, hus], hE.bus, hp, hE.dc, hE.env, by simp [htr, delayEvents, hus], hpa⟩
  · refine ⟨d.emit (.delay us), by simp [waitUs, hd, Nat.pos_of_ne_zero hus], hE.bus.trans ?_, ?_, hE.dc, hE.env, ?_, ?_⟩
    · simp [BusOnly, State.emit]
    · simpa [State.pending] using hp
    · simp [htr, delayEvents, hus]
    · simp [hpa, Panel.take]

/-- RESET_PULSE that succeeds (R113). -/
theorem pulseReset_ok {s : State} (hk : s.phaseKnown) (h : s.pinsHold 2) :
    ∃ t, pulseReset s = .ok t ∧ SequencerOnly s t ∧ t.ctrl = s.ctrl ∧ t.result = s.result ∧ t.dc = s.dc ∧
      t.rst = .high ∧ t.pending = [] ∧ t.trace = s.settledTrace ++ resetPulseEvents s.cfg ∧
      t.panel = s.settledPanel.hardReset ∧ ∀ k, t.pinAnswer k = s.pinAnswer (k + 2) := by
  obtain ⟨a, ha, hE, -, hpa, hta, hna⟩ := drain_spec hk
  have haa : ∀ k, a.pinAnswer k = s.pinAnswer k := fun k => by simp [State.pinAnswer, hE.env]
  obtain ⟨b, hb, hBb, hpb, hab⟩ := setPin_rst_ok .low ((haa 0).trans (h 0 (by omega))) hpa
  have hkb : b.phaseKnown := .inl hpb
  obtain ⟨c, hc, hBc, hpc, hdc, hec, htc, hnc⟩ := waitUs_trace b.cfg.tRstLowUs hkb
  have hac : ∀ k, c.pinAnswer k = s.pinAnswer (k + 1) := fun k => by
    rw [← haa, ← hab]; simp [State.pinAnswer, hec]
  obtain ⟨d, hd, hBd, hpd, had⟩ := setPin_rst_ok .high ((hac 0).trans (h 1 (by omega))) hpc
  obtain ⟨e, he, hBe, hpe, hde, hee, hte, hne⟩ := waitUs_trace d.cfg.tRstSettleUs (.inl hpd)
  have hcfg : b.cfg = s.cfg := by rw [hBb]; exact hE.bus.cfg
  have hcfgd : d.cfg = s.cfg := by rw [hBd]; exact hBc.cfg.trans hcfg
  have hcc : c.cfg.tRstSettleUs = d.cfg.tRstSettleUs := by rw [hBd]
  refine ⟨e, ?_, ?_, ?_, ?_, ?_, ?_, hpe, ?_, ?_, fun k => ?_⟩
  · simp only [pulseReset, ha, hb, hc, hd, andThen_ok]
    exact he
  · have h1 : SequencerOnly s b := by rw [hBb, hE]; simp [SequencerOnly]
    have h2 : SequencerOnly c d := by rw [hBd]; simp [SequencerOnly]
    cases s; cases b; cases c; cases d; cases e
    simp_all [SequencerOnly, BusOnly]
  · rw [hBe.ctrl, hBd, hBc.ctrl, hBb]; exact hE.bus.ctrl
  · rw [hBe.result, hBd, hBc.result, hBb]; exact hE.bus.result
  · rw [hde, hBd, hdc, hBb]; exact hE.dc
  · rw [hBe.rst, hBd]; rfl
  · have hbt : b.trace = a.trace ++ [.rst .low] := by rw [hBb]
    have hdt : d.trace = c.trace ++ [.rst .high] := by rw [hBd]
    rw [hte, settledTrace_of_idle hpd, hdt, htc, settledTrace_of_idle hpb, hbt, hta, hcfg, hcfgd]
    simp [resetPulseEvents]
  · have hbp : b.panel = a.panel.hardReset := by rw [hBb]; rfl
    have hdp : d.panel = c.panel := by rw [hBd]; rfl
    rw [hne, settledPanel_of_idle hpd, hdp, hnc, settledPanel_of_idle hpb, hbp, hna]
  · rw [show e.pinAnswer k = d.pinAnswer k by simp [State.pinAnswer, hee], had, hac]

/-- The initialization list, where no drive fails (R117). -/
theorem sendInitList_ok (es : List InitEntry) {s : State} (hk : s.phaseKnown)
    (h : s.pinsHold ((es.map (fun e => commandDrives e.params)).sum)) :
    ∃ t, sendInitList es s = .ok t ∧ BusOnly s t ∧ Emits s (initListEvents es) t ∧ t.phaseKnown ∧
      (es ≠ [] → t.pending = []) ∧
      ∀ k, t.pinAnswer k = s.pinAnswer (k + (es.map (fun e => commandDrives e.params)).sum) := by
  induction es generalizing s with
  | nil => exact ⟨s, rfl, rfl, Emits.refl s, hk, fun h => absurd rfl h, fun k => rfl⟩
  | cons e es ih =>
    simp only [List.map_cons, List.sum_cons] at h
    obtain ⟨a, ha, hBa, hMa, hpa, haa⟩ := sendCommand_ok e.opcode e.params hk (pinsHold.mono h (by omega))
    obtain ⟨b, hb, hBb, hMb, hpb, -, hab⟩ := waitUs_ok e.delayUs (phaseKnown_of_phase? hpa)
    have hh : b.pinsHold ((es.map (fun e => commandDrives e.params)).sum) :=
      pinsHold.shift h (m := commandDrives e.params) fun k => by rw [hab, haa]
    obtain ⟨c, hc, hBc, hMc, hkc, hpc, hac⟩ := ih (.inl hpb) hh
    refine ⟨c, by simp [sendInitList, ha, hb, hc], (hBa.trans hBb).trans hBc, ?_, hkc, fun _ => ?_, fun k => ?_⟩
    · have := (hMa.trans hBa hMb).trans (hBa.trans hBb) hMc
      simpa [initListEvents] using this
    · by_cases hes : es = []
      · subst hes
        cases hc
        exact hpb
      · exact hpc hes
    · rw [hac, hab, haa, List.map_cons, List.sum_cons, Nat.add_assoc, Nat.add_comm (commandDrives _)]

theorem initListEvents_append (a b : List InitEntry) : initListEvents (a ++ b) = initListEvents a ++ initListEvents b := by
  induction a with
  | nil => rfl
  | cons e a ih => simp [initListEvents, ih]

/-- The machine's initialization list sends the events the rules write out (R114 to R117). -/
theorem initListEvents_initSeq (cfg : Params) (g : PanelGeometry) (c : InitConfig) (hasRst : Bool) :
    (if hasRst then resetPulseEvents cfg else delayEvents cfg.tRstSettleUs) ++ initListEvents (initSeq cfg g c) =
      initEvents cfg g c hasRst := by
  obtain ⟨gw, gh, rot⟩ := g
  obtain ⟨mirror, order, pf⟩ := c
  simp only [initSeq, initListEvents_append, initEvents, initListEvents, commandEvents, delayEvents, colmodByte, madctlByte, madctlRow]
  cases pf <;> cases rot <;> cases mirror <;> cases order <;> simp

/-- The pin drives of the machine's initialization list. -/
theorem initSeq_drives (cfg : Params) (g : PanelGeometry) (c : InitConfig) :
    ((initSeq cfg g c).map (fun e => commandDrives e.params)).sum =
      (cfg.extraInit.map (fun e => commandDrives e.params)).sum + 6 := by
  simp [initSeq, commandDrives]

/-! ## The window, the stream, the fill, the pixels -/

/-- The three commands of a window (R127). -/
theorem addressWindow_ok (x0 y0 x1 y1 : Coord) {s : State} (hk : s.phaseKnown) (h : s.pinsHold 5) :
    ∃ t, addressWindow x0 y0 x1 y1 s = .ok t ∧ BusOnly s t ∧ Emits s (windowEvents s.cfg.opcodes x0 y0 x1 y1) t ∧
      t.phase? = some .command ∧ ∀ k, t.pinAnswer k = s.pinAnswer (k + 5) := by
  obtain ⟨a, ha, hBa, hMa, hpa, haa⟩ := sendCommand_ok s.cfg.opcodes.caset (rangeParams x0 x1) hk
    (pinsHold.mono h (by simp [rangeParams, commandDrives]))
  have haa' : ∀ k, a.pinAnswer k = s.pinAnswer (k + 2) := fun k => by simpa [rangeParams, commandDrives] using haa k
  obtain ⟨b, hb, hBb, hMb, hpb, hab⟩ := sendCommand_ok a.cfg.opcodes.raset (rangeParams y0 y1) (phaseKnown_of_phase? hpa)
    (pinsHold.mono (pinsHold.shift (m := 2) (n := 3) h haa') (by simp [rangeParams, commandDrives]))
  have hab' : ∀ k, b.pinAnswer k = s.pinAnswer (k + 4) := fun k => by
    rw [hab, haa']; simp [rangeParams, commandDrives]
  obtain ⟨c, hc, hBc, hMc, hpc, hac⟩ := sendCommand_ok b.cfg.opcodes.ramwr [] (phaseKnown_of_phase? hpb)
    (pinsHold.mono (pinsHold.shift (m := 4) (n := 1) h hab') (by simp [commandDrives]))
  refine ⟨c, by simp [addressWindow, ha, hb, hc], (hBa.trans hBb).trans hBc, ?_, by simpa using hpc, fun k => ?_⟩
  · have := (hMa.trans hBa hMb).trans (hBa.trans hBb) hMc
    simpa [windowEvents, rangeParams, hBa.cfg, hBb.cfg] using this
  · rw [hac, hab']; simp [commandDrives]

/-- SET_WINDOW of a legal window (R127). -/
theorem setWindow_ok {x0 y0 x1 y1 : Coord} {s : State} (hc : s.ctrl = .ready) (hw : outOfBounds s.geom x0 y0 x1 y1 = false)
    (hk : s.phaseKnown) (h : s.pinsHold 5) :
    ∃ t, setWindow x0 y0 x1 y1 s = .ok t ∧ BusOnly s t ∧ Emits s (windowEvents s.cfg.opcodes x0 y0 x1 y1) t ∧
      t.phase? = some .command ∧ ∀ k, t.pinAnswer k = s.pinAnswer (k + 5) := by
  simpa [setWindow, whenReady, hc, hw] using addressWindow_ok x0 y0 x1 y1 hk h

/-- STREAM (R128). -/
theorem streamSamples_ok (ss : List Sample) {s : State} (hc : s.ctrl = .ready) (hk : s.phaseKnown) (h : s.pinsHold 1) :
    ∃ t, streamSamples ss s = .ok t ∧ BusOnly s t ∧ Emits s (streamEvents s.cfg.busWidth s.icfg.pixelFormat ss) t ∧
      t.phase? = some .data ∧ ∀ k, t.pinAnswer k = s.pinAnswer (k + 1) := by
  obtain ⟨a, ha, hBa, hMa, -, hpa, -, -, haa⟩ := selectPhase_ok .data hk h
  obtain ⟨b, hb, hBb, hMb, hpb, hab⟩ := writeWords_ok (streamWords a.cfg.busWidth a.icfg.pixelFormat ss) hpa
  refine ⟨b, by simp [streamSamples, whenReady, hc, ha, hb], hBa.trans hBb, ?_, hpb, fun k => by rw [hab, haa]⟩
  simpa [streamEvents, streamWords, hBa.cfg, hBa.icfg] using hMa.trans hBa hMb

/-- FILL of a legal window (R129). -/
theorem fillWindow_ok {x0 y0 x1 y1 : Coord} (c : Color) {s : State} (hc : s.ctrl = .ready)
    (hw : outOfBounds s.geom x0 y0 x1 y1 = false) (hk : s.phaseKnown) (h : s.pinsHold 6) :
    ∃ t, fillWindow x0 y0 x1 y1 c s = .ok t ∧ BusOnly s t ∧ Emits s (fillEvents s x0 y0 x1 y1 c) t ∧
      t.phase? = some .data ∧ ∀ k, t.pinAnswer k = s.pinAnswer (k + 6) := by
  obtain ⟨a, ha, hBa, hMa, hpa, haa⟩ := setWindow_ok hc hw hk (pinsHold.mono h (by omega))
  obtain ⟨b, hb, hBb, hMb, hpb, hab⟩ :=
    streamSamples_ok (List.replicate (windowArea x0 y0 x1 y1) (convert a.icfg.pixelFormat c)) (hBa.ctrl.trans hc)
      (phaseKnown_of_phase? hpa) (pinsHold.shift (m := 5) h haa)
  refine ⟨b, by simp [fillWindow, whenReady, hc, ha, hb], hBa.trans hBb, ?_, hpb, fun k => by rw [hab, haa]⟩
  simpa [fillEvents, windowArea, hBa.cfg, hBa.icfg] using hMa.trans hBa hMb

/-- A coordinate on the panel is a window of one pixel that is legal (R126, R131). -/
theorem onPanel_legal {g : PanelGeometry} {x y : Int} (h : onPanel g x y = true) (hw : g.width ≤ 65535) (hh : g.height ≤ 65535) :
    outOfBounds g (panelCoord x) (panelCoord y) (panelCoord x) (panelCoord y) = false ∧
      (panelCoord x).toNat = x.toNat ∧ (panelCoord y).toNat = y.toNat := by
  simp only [onPanel, Bool.and_eq_true, decide_eq_true_eq] at h
  have hx : (panelCoord x).toNat = x.toNat := by simp only [panelCoord, BitVec.toNat_ofNat]; omega
  have hy : (panelCoord y).toNat = y.toNat := by simp only [panelCoord, BitVec.toNat_ofNat]; omega
  refine ⟨?_, hx, hy⟩
  simp only [outOfBounds, Bool.or_eq_false_iff, decide_eq_false_iff_not, hx, hy]
  omega

/-- One pixel of DRAW (R131). -/
theorem drawPixel_ok {q : Pixel} {s : State} (hc : s.ctrl = .ready) (hq : onPanel s.geom q.x q.y = true)
    (hw : s.geom.width ≤ 65535) (hh : s.geom.height ≤ 65535) (hk : s.phaseKnown) (h : s.pinsHold 6) :
    ∃ t, drawPixel q s = .ok t ∧ BusOnly s t ∧ Emits s (pixelEvents s q) t ∧ t.phase? = some .data ∧
      ∀ k, t.pinAnswer k = s.pinAnswer (k + 6) := by
  obtain ⟨hl, -, -⟩ := onPanel_legal hq hw hh
  obtain ⟨a, ha, hBa, hMa, hpa, haa⟩ := setWindow_ok hc hl hk (pinsHold.mono h (by omega))
  obtain ⟨b, hb, hBb, hMb, hpb, hab⟩ :=
    streamSamples_ok [convert a.icfg.pixelFormat q.color] (hBa.ctrl.trans hc)
      (phaseKnown_of_phase? hpa) (pinsHold.shift (m := 5) h haa)
  refine ⟨b, by simp [drawPixel, ha, hb], hBa.trans hBb, ?_, hpb, fun k => by rw [hab, haa]⟩
  simpa [pixelEvents, hBa.cfg, hBa.icfg] using hMa.trans hBa hMb

/-- The pixels of DRAW, up to a suffix that is left to do: those on the panel are drawn, those off it dropped under CLIP_POLICY =
Skip (R131, R132). -/
theorem drawPixels_ok (ps rest : List Pixel) {s : State} (hc : s.ctrl = .ready)
    (hcl : s.cfg.clipPolicy = .skip ∨ ∀ q ∈ ps, onPanel s.geom q.x q.y = true)
    (hw : s.geom.width ≤ 65535) (hh : s.geom.height ≤ 65535) (hk : s.phaseKnown) (h : s.pinsHold (drawDrives s ps)) :
    ∃ t, drawPixels (ps ++ rest) s = drawPixels rest t ∧ BusOnly s t ∧ Emits s (drawEvents s ps) t ∧ t.phaseKnown ∧
      ∀ k, t.pinAnswer k = s.pinAnswer (k + drawDrives s ps) := by
  induction ps generalizing s with
  | nil => exact ⟨s, rfl, rfl, Emits.refl s, hk, fun k => rfl⟩
  | cons q qs ih =>
    have hcl' : s.cfg.clipPolicy = .skip ∨ ∀ q ∈ qs, onPanel s.geom q.x q.y = true :=
      hcl.imp id fun h q hq => h q (List.mem_cons_of_mem _ hq)
    by_cases hq : onPanel s.geom q.x q.y = true
    · have hd : drawDrives s (q :: qs) = 6 + drawDrives s qs := by simp [drawDrives, hq]; omega
      rw [hd] at h
      obtain ⟨a, ha, hBa, hMa, hpa, haa⟩ := drawPixel_ok hc hq hw hh hk (pinsHold.mono h (by omega))
      have hda : ∀ l, drawDrives a l = drawDrives s l := fun l => by simp [drawDrives, hBa.geom]
      have hea : ∀ l, drawEvents a l = drawEvents s l := fun l => by
        have : pixelEvents a = pixelEvents s := by funext r; simp [pixelEvents, hBa.cfg, hBa.icfg]
        simp [drawEvents, hBa.geom, this]
      obtain ⟨b, hb, hBb, hMb, hpb, hab⟩ := ih (s := a) (hBa.ctrl.trans hc) (by rw [hBa.cfg, hBa.geom]; exact hcl')
        (by rw [hBa.geom]; exact hw) (by rw [hBa.geom]; exact hh) (phaseKnown_of_phase? hpa)
        (by rw [hda]; exact pinsHold.shift h haa)
      refine ⟨b, by simp [drawPixels, hq, ha, hb], hBa.trans hBb, ?_, hpb, fun k => ?_⟩
      · rw [hea] at hMb
        have := hMa.trans hBa hMb
        simpa [drawEvents, hq] using this
      · rw [hab, haa, hda, hd, Nat.add_assoc, Nat.add_comm 6]
    · have hs : s.cfg.clipPolicy = .skip := by
        rcases hcl with h | h
        · exact h
        · exact absurd (h q (List.mem_cons_self)) hq
      have hd : drawDrives s (q :: qs) = drawDrives s qs := by simp [drawDrives, hq]
      rw [hd] at h
      obtain ⟨b, hb, hBb, hMb, hpb, hab⟩ := ih hc hcl' hw hh hk h
      refine ⟨b, by simp [drawPixels, hq, hs, hb], hBb, ?_, hpb, fun k => by rw [hab, hd]⟩
      simpa [drawEvents, hq] using hMb

end Sys2Proof.Machine
end

