-- ==== Sys2Proof/Laws/Outcome.lean ====
section
/-! SUPPORT. What every operation keeps whatever its pins answer: which fields it can change, the bus part of the machine's
invariant, and (where no word is queued without a phase) that it never faults and how a failed pin drive leaves the state. -/

namespace Sys2Proof.Machine

/-! ## What an operation leaves -/

/-- Every state the operation goes on in, or returns an error in, has the property. -/
def Flow.Keeps (P : State → Prop) : Flow → Prop
  | .ok s => P s
  | .err _ s => P s
  | .fault _ => True

theorem Flow.Keeps.mono {P Q : State → Prop} {f : Flow} (h : f.Keeps P) (hPQ : ∀ t, P t → Q t) : f.Keeps Q := by
  cases f with
  | ok s => exact hPQ _ h
  | err e s => exact hPQ _ h
  | fault x => trivial

theorem Flow.Keeps.andThen {P Q : State → Prop} {f : Flow} {k : State → Flow} (h : f.Keeps P) (hPQ : ∀ t, P t → Q t)
    (hk : ∀ t, P t → (k t).Keeps Q) : (f.andThen k).Keeps Q := by
  cases f with
  | ok s => exact hk _ h
  | err e s => exact hPQ _ h
  | fault x => trivial

/-! ## The bus part of the invariant -/

/-- The part of the machine's invariant that is about the bus side. -/
structure State.BusInv (s : State) : Prop where
  fifoBounded : s.cfg.engineKind = .fifo → s.fifo.length ≤ s.cfg.fifoDepth
  directEmpty : s.cfg.engineKind = .direct → s.fifo = [] ∧ s.osr = none
  fifoFits    : ∀ w ∈ s.fifo, wordFits s.cfg.busWidth w.toNat = true
  osrFits     : ∀ w ∈ s.osr, wordFits s.cfg.busWidth w.toNat = true
  dataFits    : wordFits s.cfg.busWidth s.dataOut.toNat = true
  strobeIdle  : s.strobe = .released
  frameWf     : s.panel.frame.wf = true
  panelReads  : s.panel = readTrace s.cfg s.geom s.icfg s.trace
  phasesHeld  : phasesHeld none s.trace = true
  phaseShown  : s.phase? = selectedPhase s.trace

theorem State.Inv.bus {s : State} (h : s.Inv) : s.BusInv :=
  ⟨h.fifoBounded, h.directEmpty, h.fifoFits, h.osrFits, h.dataFits, h.strobeIdle, h.frameWf, h.panelReads, h.phasesHeld, h.phaseShown⟩

/-- A bus operation changes only the bus side and keeps the bus part of the invariant. -/
def BusSound (s t : State) : Prop := BusOnly s t ∧ (s.BusInv → t.BusInv)

theorem BusSound.refl (s : State) : BusSound s s := ⟨rfl, id⟩

theorem BusSound.trans {s t u : State} (h : BusSound s t) (k : BusSound t u) : BusSound s u :=
  ⟨h.1.trans k.1, k.2 ∘ h.2⟩

theorem BusSound.andThen {s : State} {f : Flow} {k : State → Flow} (h : f.Keeps (BusSound s))
    (hk : ∀ t, BusSound s t → (k t).Keeps (BusSound t)) : (f.andThen k).Keeps (BusSound s) :=
  Flow.Keeps.andThen h (fun _ => id) fun t ht => (hk t ht).mono fun _ => ht.trans

/-- FRAME stays in canonical form whatever event the panel reads. -/
theorem take_frame_wf {p : Panel} (h : p.frame.wf = true) (cfg : Params) (g : PanelGeometry) (c : InitConfig) (e : Event) :
    (p.take cfg g c e).frame.wf = true := by
  have hnil : Memory.wf [] = true := rfl
  have hs : ∀ (q : Panel) x, q.frame.wf = true → (q.writeSample x).frame.wf = true := by
    intro q x hq
    unfold Panel.writeSample
    split
    · exact hnil
    · split
      · exact Memory.write_wf hq _ _
      · exact Memory.forget_wf hq _ _ _ _
  unfold Panel.take
  split <;> try exact h
  · unfold Panel.command Panel.arm
    simp only
    split
    · split <;> exact h
    · exact h
  · unfold Panel.data
    split
    · simp only; split
      · unfold Panel.setColumns; simp only; split
        · exact hnil
        · exact h
      · exact h
    · simp only; split
      · unfold Panel.setRows; simp only; split
        · exact hnil
        · exact h
      · exact h
    · exact h
    · exact h
    · simp only; split
      · exact hs _ _ h
      · exact h
    · exact hnil
    · exact hnil
  · exact hnil

/-! ## One event more -/

/-- The panel after one event more has read one event more (R57). -/
theorem readTrace_concat (cfg : Params) (g : PanelGeometry) (c : InitConfig) (es : List Event) (e : Event) :
    readTrace cfg g c (es ++ [e]) = (readTrace cfg g c es).take cfg g c e := by simp [readTrace]

theorem selectedPhase_concat (es : List Event) (e : Event) : selectedPhase (es ++ [e]) = e.phaseAfter (selectedPhase es) := by
  simp [selectedPhase]

theorem phasesHeld_append (q : Option Phase) (es fs : List Event) :
    phasesHeld q (es ++ fs) = (phasesHeld q es && phasesHeld (es.foldl Event.phaseAfter q) fs) := by
  induction es generalizing q with
  | nil => simp [phasesHeld]
  | cons e es ih =>
    cases e <;> simp only [List.cons_append, phasesHeld, ih, List.foldl_cons, Bool.and_assoc]

/-- One event more keeps the phases held, where a `Cyc` has the phase that is selected (R107 c). -/
theorem phasesHeld_concat {es : List Event} (h : phasesHeld none es = true) {e : Event}
    (he : ∀ p w, e = .cyc p w → selectedPhase es = some p) : phasesHeld none (es ++ [e]) = true := by
  rw [phasesHeld_append, h, Bool.true_and]
  cases e with
  | cyc p w => simpa [phasesHeld, selectedPhase] using he p w rfl
  | _ => rfl

/-- An event that neither is a cycle nor selects a phase keeps the bus part of the invariant. -/
theorem BusInv.emit {s : State} (h : s.BusInv) {e : Event} (hc : ∀ p w, e ≠ .cyc p w) (hp : ∀ q, e.phaseAfter q = q) :
    (s.emit e).BusInv :=
  ⟨h.fifoBounded, h.directEmpty, h.fifoFits, h.osrFits, h.dataFits, h.strobeIdle, take_frame_wf h.frameWf _ _ _ _,
    by simp [readTrace_concat, ← h.panelReads], phasesHeld_concat h.phasesHeld fun p w he => absurd he (hc p w),
    by rw [emit_trace, selectedPhase_concat, hp]; exact h.phaseShown⟩

theorem emit_sound (s : State) {e : Event} (hc : ∀ p w, e ≠ .cyc p w) (hp : ∀ q, e.phaseAfter q = q) :
    BusSound s (s.emit e) :=
  ⟨by simp [BusOnly, State.emit], fun h => BusInv.emit h hc hp⟩

theorem busCycle_sound {p : Phase} {w : BusWord} {s : State} (hp : s.phase? = some p)
    (hw : s.BusInv → wordFits s.cfg.busWidth w.toNat = true) : BusSound s (busCycle p w s) := by
  refine ⟨by simp [BusOnly, busCycle, State.emit], fun h => ?_⟩
  refine ⟨h.fifoBounded, h.directEmpty, h.fifoFits, h.osrFits, hw h, rfl, take_frame_wf h.frameWf _ _ _ _,
    by simp [readTrace_concat, ← h.panelReads], phasesHeld_concat h.phasesHeld fun q v he => ?_, ?_⟩
  · cases he; rw [← hp]; exact h.phaseShown.symm
  · rw [busCycle_trace, selectedPhase_concat]; exact h.phaseShown

theorem strobeWord_sound {w : BusWord} (s : State) (hw : s.BusInv → wordFits s.cfg.busWidth w.toNat = true) :
    (strobeWord w s).Keeps (BusSound s) := by
  unfold strobeWord
  split
  · next p hp => exact busCycle_sound hp hw
  · trivial

theorem pull_sound (s : State) : BusSound s (pull s) := by
  refine ⟨?_, fun h => ?_⟩
  · unfold pull; split <;> simp [BusOnly]
  · unfold pull
    split
    · next w ws hf =>
      refine ⟨fun hk => ?_, fun hk => ?_, fun v hv => h.fifoFits v ?_, fun v hv => ?_, h.dataFits, h.strobeIdle, h.frameWf, h.panelReads, h.phasesHeld, h.phaseShown⟩
      · have := h.fifoBounded hk; rw [hf] at this; simp at this ⊢; omega
      · have := (h.directEmpty hk).1; rw [hf] at this; cases this
      · rw [hf]; exact List.mem_cons_of_mem _ hv
      · refine h.fifoFits v ?_
        rw [hf]
        simp at hv
        simp [hv]
    · exact h

/-- One engine step. -/
theorem engineStep_sound (s : State) : (engineStep s).Keeps (BusSound s) := by
  unfold engineStep
  cases hk : s.cfg.engineKind with
  | direct => simp only [State.enginePhase, hk]; exact BusSound.refl s
  | fifo =>
    cases ho : s.osr with
    | some w =>
      simp only [State.enginePhase, hk, ho, emitWord]
      refine BusSound.andThen (strobeWord_sound s fun h => h.osrFits w (by simp [ho])) fun t ht => ?_
      refine ⟨by simp [BusOnly], fun h => ⟨h.fifoBounded, fun hd => ⟨(h.directEmpty hd).1, rfl⟩, h.fifoFits, ?_, h.dataFits,
        h.strobeIdle, h.frameWf, h.panelReads, h.phasesHeld, h.phaseShown⟩⟩
      simp
    | none =>
      cases hf : s.fifo with
      | nil => simp only [State.enginePhase, hk, ho, hf]; exact BusSound.refl s
      | cons w ws => simp only [State.enginePhase, hk, ho, hf]; exact pull_sound s

theorem runEngine_sound (n : Nat) (s : State) : (runEngine n s).Keeps (BusSound s) := by
  induction n generalizing s with
  | zero => exact BusSound.refl s
  | succ n ih => exact BusSound.andThen (engineStep_sound s) fun t _ => ih t

theorem drain_sound (s : State) : (drain s).Keeps (BusSound s) := runEngine_sound _ s

/-- A drive of DC to the level its event tells keeps the bus part of the invariant: TRACE shows the phase that DC has (R21). -/
theorem driveDc_sound (s : State) {l : PinLevel} {e : Event} (hc : ∀ p w, e ≠ .cyc p w)
    (he : ∀ q, e.phaseAfter q = pinPhase l) : BusSound s ((s.pinDrawn.withPin .dc l).emit e) := by
  refine ⟨by simp [BusOnly, State.emit, State.withPin, State.pinDrawn], fun h => ?_⟩
  refine ⟨h.fifoBounded, h.directEmpty, h.fifoFits, h.osrFits, h.dataFits, h.strobeIdle, take_frame_wf h.frameWf _ _ _ _,
    by simp [readTrace_concat, ← h.panelReads], phasesHeld_concat h.phasesHeld fun p w he => absurd he (hc p w), ?_⟩
  rw [emit_trace, selectedPhase_concat, he]; rfl

theorem setPin_dc_sound (p : Phase) (s : State) : (setPin .dc (phaseLevel p) (.sel p) s).Keeps (BusSound s) := by
  unfold setPin
  split
  · exact driveDc_sound s (by simp) fun _ => rfl
  · exact driveDc_sound s (by simp) fun _ => by simp [Event.phaseAfter]

theorem selectPhase_sound (p : Phase) (s : State) : (selectPhase p s).Keeps (BusSound s) :=
  BusSound.andThen (drain_sound s) fun t _ => setPin_dc_sound p t

/-- Before a push the FIFO is not full any more, and has not grown. -/
theorem engineStep_fifo (s : State) : (engineStep s).Keeps (fun t => t.fifo.length ≤ s.fifo.length ∧
    (s.osr = none → s.cfg.engineKind = .fifo → s.fifo ≠ [] → t.fifo.length + 1 = s.fifo.length) ∧
    (s.osr ≠ none → s.cfg.engineKind = .fifo → t.osr = none)) := by
  unfold engineStep
  cases hk : s.cfg.engineKind with
  | direct => simp [State.enginePhase, hk, Flow.Keeps]
  | fifo =>
    cases ho : s.osr with
    | some w =>
      simp only [State.enginePhase, hk, ho, emitWord, strobeWord]
      split <;> simp [Flow.Keeps, phaseUnset]
    | none =>
      cases hf : s.fifo with
      | nil => simp [State.enginePhase, hk, ho, hf, Flow.Keeps]
      | cons w ws => simp [State.enginePhase, hk, ho, hf, Flow.Keeps, pull]

theorem engineTurns_sound (s : State) : (engineTurns s).Keeps (BusSound s) := by
  unfold engineTurns
  split
  · refine (runEngine_sound _ _).mono fun t ht => BusSound.trans ⟨by simp [BusOnly, State.turnsDrawn], fun h => ?_⟩ ht
    exact ⟨h.fifoBounded, h.directEmpty, h.fifoFits, h.osrFits, h.dataFits, h.strobeIdle, h.frameWf, h.panelReads, h.phasesHeld, h.phaseShown⟩
  · exact BusSound.refl s

theorem holdWhileFull_sound (s : State) : (holdWhileFull s).Keeps (BusSound s) := by
  unfold holdWhileFull
  split
  · refine BusSound.andThen (engineStep_sound s) fun t _ => ?_
    split
    · exact engineStep_sound t
    · exact BusSound.refl t
  · exact BusSound.refl s

/-- The hold ends with room for a word. -/
theorem holdWhileFull_room {s : State} (hk : s.cfg.engineKind = .fifo) (hb : s.fifo.length ≤ s.cfg.fifoDepth) :
    (holdWhileFull s).Keeps (fun t => t.fifo.length < s.cfg.fifoDepth) ∨ ∃ x, holdWhileFull s = .fault x := by
  have hcfg : ∀ t, engineStep s = .ok t → t.cfg = s.cfg := fun t ht => by
    have := engineStep_sound s; rw [ht] at this; exact this.1.cfg
  have hpos : 0 < s.cfg.fifoDepth := Nat.succ_pos _
  unfold holdWhileFull
  by_cases hf : s.txFull = true
  · have hlen : s.fifo.length = s.cfg.fifoDepth := by simpa [State.txFull, hk] using hf
    have hne : s.fifo ≠ [] := by intro h; rw [h] at hlen; simp at hlen; omega
    rw [if_pos hf]
    have h1 := engineStep_fifo s
    cases he : engineStep s with
    | fault x => exact .inr ⟨x, rfl⟩
    | err e t =>
      rw [he] at h1
      by_cases ho : s.osr = none
      · exact .inl (by have := h1.2.1 ho hk hne; simp only [Flow.andThen, Flow.Keeps]; omega)
      · exfalso
        unfold engineStep State.enginePhase at he
        obtain ⟨w, hw⟩ := Option.ne_none_iff_exists'.mp ho
        simp only [hk, hw, emitWord, strobeWord] at he
        cases hp : s.phase? <;> simp [hp, phaseUnset] at he
    | ok t =>
      rw [he] at h1
      rw [andThen_ok]
      have hct := hcfg t he
      by_cases ht : t.txFull = true
      · rw [if_pos ht]
        have hlt : t.fifo.length = s.cfg.fifoDepth := by simpa [State.txFull, hct, hk] using ht
        have ho : s.osr ≠ none := fun ho => by have := h1.2.1 ho hk hne; omega
        have hot := h1.2.2 ho hk
        have hnt : t.fifo ≠ [] := by intro h; rw [h] at hlt; simp at hlt; omega
        have h2 := engineStep_fifo t
        refine .inl (h2.mono fun u hu => ?_)
        have := hu.2.1 hot (by rw [hct]; exact hk) hnt
        omega
      · rw [if_neg ht]
        have hne' : t.fifo.length ≠ s.cfg.fifoDepth := fun h => ht (by simp [State.txFull, hct, hk, h])
        have := h1.1
        exact .inl (by simp only [Flow.Keeps]; omega)
  · rw [if_neg hf]
    have hne : s.fifo.length ≠ s.cfg.fifoDepth := fun h => hf (by simp [State.txFull, hk, h])
    exact .inl (by simp only [Flow.Keeps]; omega)

theorem push_sound {s : State} {w : BusWord} (hk : s.cfg.engineKind = .fifo)
    (hb : s.BusInv → s.fifo.length < s.cfg.fifoDepth) (hw : wordFits s.cfg.busWidth w.toNat = true) :
    BusSound s { s with fifo := s.fifo ++ [w] } := by
  refine ⟨by simp [BusOnly], fun h => ⟨fun _ => ?_, fun hd => ?_, fun v hv => ?_, h.osrFits, h.dataFits, h.strobeIdle,
    h.frameWf, h.panelReads, h.phasesHeld, h.phaseShown⟩⟩
  · have := hb h; simp; omega
  · simp only at hd; rw [hk] at hd; cases hd
  · simp only [List.mem_append, List.mem_singleton] at hv
    rcases hv with hv | rfl
    · exact h.fifoFits v hv
    · exact hw

/-- WRITE of a word the bus has. -/
theorem writeWord_sound {w : BusWord} (s : State) (hw : wordFits s.cfg.busWidth w.toNat = true) :
    (writeWord w s).Keeps (BusSound s) := by
  unfold writeWord
  cases hk : s.cfg.engineKind with
  | direct => exact strobeWord_sound s fun _ => hw
  | fifo =>
    simp only
    rw [andThen_assoc]
    refine BusSound.andThen (engineTurns_sound s) fun t ht => ?_
    have hkt : t.cfg.engineKind = .fifo := by rw [ht.1.cfg]; exact hk
    have hs := holdWhileFull_sound t
    have hroom := @holdWhileFull_room t hkt
    cases hh : holdWhileFull t with
    | fault x => trivial
    | err e u => rw [hh] at hs; exact hs
    | ok u =>
      rw [hh] at hs hroom
      have hcu : u.cfg = t.cfg := hs.1.cfg
      rw [andThen_ok]
      refine ⟨hs.1.trans (by simp [BusOnly]), fun h => ?_⟩
      have hlt : u.fifo.length < u.cfg.fifoDepth := by
        rcases hroom (h.fifoBounded hkt) with h1 | ⟨x, h1⟩
        · rw [hcu]; exact h1
        · cases h1
      exact (push_sound (by rw [hcu]; exact hkt) (fun _ => hlt) (by rw [hcu, ht.1.cfg]; exact hw)).2 (hs.2 h)

theorem writeWords_sound (ws : List BusWord) (s : State) (hw : ∀ w ∈ ws, wordFits s.cfg.busWidth w.toNat = true) :
    (writeWords ws s).Keeps (BusSound s) := by
  induction ws generalizing s with
  | nil => exact BusSound.refl s
  | cons w ws ih =>
    exact BusSound.andThen (writeWord_sound s (hw w List.mem_cons_self)) fun t ht =>
      ih t fun v hv => by rw [ht.1.cfg]; exact hw v (List.mem_cons_of_mem _ hv)

theorem byteWord_fits (bw : BusWidth) (b : Byte) : wordFits bw (byteWord b).toNat = true := by
  have := b.isLt
  unfold wordFits byteWord
  cases bw <;> simp [BusWidth.bits] <;> omega

theorem serialize_fits (bw : BusWidth) (pf : PixelFormat) (x : Sample) : ∀ w ∈ serialize bw pf x, wordFits bw w.toNat = true := by
  intro w hw
  cases bw with
  | w16 => have := w.isLt; exact decide_eq_true this
  | w8 =>
    cases pf <;> simp only [serialize, List.mem_cons, List.not_mem_nil, or_false] at hw
    · rcases hw with rfl | rfl <;> exact byteWord_fits _ _
    · rcases hw with rfl | rfl | rfl <;> exact byteWord_fits _ _
    · rcases hw with rfl | rfl | rfl <;> exact byteWord_fits _ _

theorem sendCommand_sound (op : Byte) (ps : List Byte) (s : State) : (sendCommand op ps s).Keeps (BusSound s) := by
  refine BusSound.andThen (selectPhase_sound _ s) fun t _ =>
    BusSound.andThen (writeWord_sound t (byteWord_fits _ _)) fun u _ => ?_
  split
  · exact BusSound.refl u
  · refine BusSound.andThen (selectPhase_sound _ u) fun v _ => writeWords_sound _ v fun w hw => ?_
    obtain ⟨b, -, rfl⟩ := List.mem_map.mp hw
    exact byteWord_fits _ _

theorem waitUs_sound (us : Nat) (s : State) : (waitUs us s).Keeps (BusSound s) := by
  refine BusSound.andThen (drain_sound s) fun t _ => ?_
  split
  · exact emit_sound t (by simp) fun _ => rfl
  · exact BusSound.refl t

theorem sendInitList_sound (es : List InitEntry) (s : State) : (sendInitList es s).Keeps (BusSound s) := by
  induction es generalizing s with
  | nil => exact BusSound.refl s
  | cons e es ih =>
    exact BusSound.andThen (BusSound.andThen (sendCommand_sound _ _ s) fun t _ => waitUs_sound _ t) fun t _ => ih t

theorem whenReady_sound {f : State → Flow} {s : State} (h : (f s).Keeps (BusSound s)) :
    (whenReady f s).Keeps (BusSound s) := by
  unfold whenReady
  split
  · exact h
  · exact BusSound.refl s

theorem setWindow_sound (x0 y0 x1 y1 : Coord) (s : State) : (setWindow x0 y0 x1 y1 s).Keeps (BusSound s) := by
  refine whenReady_sound ?_
  split
  · exact BusSound.refl s
  · exact BusSound.andThen (sendCommand_sound _ _ s) fun t _ =>
      BusSound.andThen (sendCommand_sound _ _ t) fun u _ => sendCommand_sound _ _ u

theorem streamSamples_sound (ss : List Sample) (s : State) : (streamSamples ss s).Keeps (BusSound s) := by
  refine whenReady_sound (BusSound.andThen (selectPhase_sound _ s) fun t _ => writeWords_sound _ t fun w hw => ?_)
  obtain ⟨x, -, hx⟩ := List.mem_flatMap.mp hw
  exact serialize_fits _ _ _ _ hx

theorem fillWindow_sound (x0 y0 x1 y1 : Coord) (c : Color) (s : State) :
    (fillWindow x0 y0 x1 y1 c s).Keeps (BusSound s) :=
  whenReady_sound (BusSound.andThen (setWindow_sound _ _ _ _ s) fun t _ => streamSamples_sound _ t)

theorem drawPixels_sound (ps : List Pixel) (s : State) : (drawPixels ps s).Keeps (BusSound s) := by
  induction ps generalizing s with
  | nil => exact BusSound.refl s
  | cons q qs ih =>
    unfold drawPixels
    split
    · exact BusSound.andThen
        (BusSound.andThen (setWindow_sound _ _ _ _ s) fun t _ => streamSamples_sound _ t) fun t _ => ih t
    · split
      · exact ih s
      · exact BusSound.refl s

/-! ## The reset pin and INIT -/

/-- An operation of the sequencer that also drives RST or moves CTRL keeps the bus part of the invariant. -/
def SequencerSound (s t : State) : Prop := SequencerOnly s t ∧ (s.BusInv → t.BusInv)

theorem SequencerSound.trans {s t u : State} (h : SequencerSound s t) (k : SequencerSound t u) : SequencerSound s u :=
  ⟨h.1.trans k.1, k.2 ∘ h.2⟩

theorem BusSound.sequencer {s t : State} (h : BusSound s t) : SequencerSound s t := ⟨h.1.sequencer, h.2⟩

theorem SequencerSound.andThen {s : State} {f : Flow} {k : State → Flow} (h : f.Keeps (SequencerSound s))
    (hk : ∀ t, SequencerSound s t → (k t).Keeps (SequencerSound t)) : (f.andThen k).Keeps (SequencerSound s) :=
  Flow.Keeps.andThen h (fun _ => id) fun t ht => (hk t ht).mono fun _ => ht.trans

theorem setPin_rst_sound (l : Level) (s : State) : (setPin .rst l (.rst l) s).Keeps (SequencerSound s) := by
  have h1 : ∀ m, SequencerSound s (s.pinDrawn.withPin .rst m) := fun m =>
    ⟨by simp [SequencerOnly, State.withPin, State.pinDrawn], fun h =>
      ⟨h.fifoBounded, h.directEmpty, h.fifoFits, h.osrFits, h.dataFits, h.strobeIdle, h.frameWf, h.panelReads, h.phasesHeld, h.phaseShown⟩⟩
  unfold setPin
  split
  · exact (h1 _).trans (emit_sound _ (by simp) fun _ => rfl).sequencer
  · exact (h1 _).trans (emit_sound _ (by simp) fun _ => rfl).sequencer

theorem pulseReset_sound (s : State) : (pulseReset s).Keeps (SequencerSound s) := by
  have hb : ∀ {s : State} {f : Flow}, f.Keeps (BusSound s) → f.Keeps (SequencerSound s) :=
    fun h => h.mono fun _ => BusSound.sequencer
  exact SequencerSound.andThen (SequencerSound.andThen (hb (drain_sound s)) fun t _ => setPin_rst_sound _ t) fun t _ =>
    SequencerSound.andThen (hb (waitUs_sound _ t)) fun u _ =>
      SequencerSound.andThen (setPin_rst_sound _ u) fun v _ => hb (waitUs_sound _ v)

/-- A reset pulse leaves CTRL alone. -/
theorem pulseReset_ctrl (s : State) : (pulseReset s).Keeps (fun t => t.ctrl = s.ctrl) := by
  have hb : ∀ {s : State} {f : Flow}, f.Keeps (BusSound s) → f.Keeps (fun t => t.ctrl = s.ctrl) :=
    fun h => h.mono fun _ ht => ht.1.ctrl
  have hp : ∀ l e (s : State), (setPin .rst l e s).Keeps (fun t => t.ctrl = s.ctrl) := by
    intro l e s; unfold setPin; split <;> rfl
  have ha : ∀ {s : State} {f : Flow} {k : State → Flow}, f.Keeps (fun t => t.ctrl = s.ctrl) →
      (∀ t, (k t).Keeps (fun u => u.ctrl = t.ctrl)) → (f.andThen k).Keeps (fun t => t.ctrl = s.ctrl) :=
    fun h hk => Flow.Keeps.andThen h (fun _ => id) fun t ht => (hk t).mono fun _ hu => hu.trans ht
  exact ha (ha (hb (drain_sound s)) fun t => hp _ _ t) fun t => ha (hb (waitUs_sound _ t)) fun u =>
    ha (hp _ _ u) fun v => hb (waitUs_sound _ v)

theorem withCtrl_sound (s : State) (c : Ctrl) : SequencerSound s (s.withCtrl c) :=
  ⟨by simp [SequencerOnly, State.withCtrl], fun h =>
    ⟨h.fifoBounded, h.directEmpty, h.fifoFits, h.osrFits, h.dataFits, h.strobeIdle, h.frameWf, h.panelReads, h.phasesHeld, h.phaseShown⟩⟩

/-- INIT ends Ready or Faulted. -/
theorem runInit_sound (s : State) :
    (runInit s).Keeps (fun t => SequencerSound s t ∧ (t.ctrl = .ready ∨ t.ctrl = .faulted)) := by
  have hb : ∀ {s : State} {f : Flow}, f.Keeps (BusSound s) → f.Keeps (SequencerSound s) :=
    fun h => h.mono fun _ => BusSound.sequencer
  have hr : (resetPhase (s.withCtrl .resetting)).Keeps (SequencerSound s) := by
    refine Flow.Keeps.mono ?_ fun t ht => (withCtrl_sound s .resetting).trans ht
    unfold resetPhase
    split
    · exact pulseReset_sound _
    · exact hb (waitUs_sound _ _)
  unfold runInit
  cases h1 : resetPhase (s.withCtrl .resetting) with
  | fault x => trivial
  | err e t =>
    rw [h1] at hr
    exact ⟨SequencerSound.trans hr (withCtrl_sound t _), .inr rfl⟩
  | ok t =>
    rw [h1] at hr
    have ht : SequencerSound s (t.withCtrl .configuring) := SequencerSound.trans hr (withCtrl_sound t _)
    have hi := hb (sendInitList_sound (initSeq t.cfg t.geom t.icfg) (t.withCtrl .configuring))
    rw [andThen_ok]
    cases h2 : sendInitList (initSeq t.cfg t.geom t.icfg) (t.withCtrl .configuring) with
    | fault x => trivial
    | err e u => rw [h2] at hi; exact ⟨(ht.trans hi).trans (withCtrl_sound u _), .inr rfl⟩
    | ok u => rw [h2] at hi; exact ⟨(ht.trans hi).trans (withCtrl_sound u _), .inl rfl⟩

end Sys2Proof.Machine
end

