-- ==== Sys2Proof/Laws/NoFault.lean ====
section
/-! SUPPORT. The sequencer's operations never fault where no word is queued without a phase, and how a pin drive that fails leaves
the state (spec/60_exceptions.md R138, R144, R145; spec/70_reset_and_hazards.md R161). -/

namespace Sys2Proof.Machine

/-- The state a failed pin drive leaves: nothing is queued, the failure is the last event, and the pin is Unset. -/
def State.failed (p : Pin) (t : State) : Prop :=
  t.pending = [] ∧ t.trace.getLast? = some (.pinFault p) ∧ ((p = .dc ∧ t.dc = .unset) ∨ (p = .rst ∧ t.rst = .unset))

/-- The operation does not fault: it goes on in a state with `Q`, or returns an error; a BusFault leaves the failed pin's state. -/
def Flow.Tame (Q : State → Prop) : Flow → Prop
  | .ok t => Q t
  | .err e t => t.phaseKnown ∧ ∀ p, e = .busFault p → t.failed p
  | .fault _ => False

theorem Flow.Tame.andThen {P Q : State → Prop} {f : Flow} {k : State → Flow} (h : f.Tame P) (hk : ∀ t, P t → (k t).Tame Q) :
    (f.andThen k).Tame Q := by
  cases f with
  | ok s => exact hk _ h
  | err e s => exact h
  | fault x => exact h

theorem Flow.Tame.mono {P Q : State → Prop} {f : Flow} (h : f.Tame P) (hPQ : ∀ t, P t → Q t) : f.Tame Q := by
  cases f with
  | ok s => exact hPQ _ h
  | err e s => exact h
  | fault x => exact h

/-- DC's level is known. -/
abbrev State.dcKnown (s : State) : Prop := ∃ p, s.phase? = some p

theorem State.dcKnown.phaseKnown {s : State} (h : s.dcKnown) : s.phaseKnown := phaseKnown_of_phase? h.choose_spec

theorem drain_tame {s : State} (hk : s.phaseKnown) : (drain s).Tame (fun t => t.pending = []) := by
  obtain ⟨t, ht, -, -, hp, -, -⟩ := drain_spec hk
  rw [ht]; exact hp

theorem setPin_tame {p : Pin} (hp : p ≠ .bl) (l : Level) (e : Event) {s : State} (hs : s.pending = []) :
    (setPin p l e s).Tame (fun t => t.pending = [] ∧ (p = .dc → t.dcKnown)) := by
  have hq : ∀ l e, ((s.pinDrawn.withPin p l).emit e).pending = [] := fun l e => by simpa [State.pending] using hs
  unfold setPin
  split
  · refine ⟨.inl (hq _ _), fun q hq' => ?_⟩
    cases hq'
    refine ⟨hq _ _, by simp, ?_⟩
    cases p <;> simp_all
  · refine ⟨hq _ _, ?_⟩
    rintro rfl
    exact ⟨match l with | .low => .command | .high => .data, by cases l <;> rfl⟩

theorem selectPhase_tame (p : Phase) {s : State} (hk : s.phaseKnown) : (selectPhase p s).Tame State.dcKnown :=
  (drain_tame hk).andThen fun t ht => (setPin_tame (by simp) _ _ ht).mono fun _ h => h.2 rfl

theorem writeWord_tame (w : BusWord) {s : State} (h : s.dcKnown) : (writeWord w s).Tame State.dcKnown := by
  obtain ⟨p, hp⟩ := h
  obtain ⟨t, ht, -, -, hq, -⟩ := writeWord_ok w hp
  rw [ht]; exact ⟨p, hq⟩

theorem writeWords_tame (ws : List BusWord) {s : State} (h : s.dcKnown) : (writeWords ws s).Tame State.dcKnown := by
  obtain ⟨p, hp⟩ := h
  obtain ⟨t, ht, -, -, hq, -⟩ := writeWords_ok ws hp
  rw [ht]; exact ⟨p, hq⟩

theorem sendCommand_tame (op : Byte) (ps : List Byte) {s : State} (hk : s.phaseKnown) :
    (sendCommand op ps s).Tame State.dcKnown := by
  refine (selectPhase_tame _ hk).andThen fun t ht => (writeWord_tame _ ht).andThen fun u hu => ?_
  split
  · exact hu
  · exact (selectPhase_tame _ hu.phaseKnown).andThen fun v hv => writeWords_tame _ hv

theorem waitUs_tame (us : Nat) {s : State} (hk : s.phaseKnown) : (waitUs us s).Tame (fun t => t.pending = []) := by
  obtain ⟨t, ht, -, hp, -⟩ := waitUs_trace us hk
  rw [ht]; exact hp

theorem pulseReset_tame {s : State} (hk : s.phaseKnown) : (pulseReset s).Tame (fun t => t.pending = []) :=
  ((drain_tame hk).andThen fun t ht => (setPin_tame (by simp) _ _ ht)).andThen fun t ht =>
    (waitUs_tame _ (.inl ht.1)).andThen fun u hu =>
      (setPin_tame (by simp) _ _ hu).andThen fun v hv => waitUs_tame _ (.inl hv.1)

theorem sendInitList_tame (es : List InitEntry) {s : State} (hk : s.phaseKnown) :
    (sendInitList es s).Tame State.phaseKnown := by
  induction es generalizing s with
  | nil => exact hk
  | cons e es ih =>
    exact ((sendCommand_tame _ _ hk).andThen fun t ht => waitUs_tame _ ht.phaseKnown).andThen fun t ht => ih (.inl ht)

/-! ## Which errors an operation returns -/

/-- An error the operation returns has the property. -/
def Flow.Errs (E : Error → Prop) : Flow → Prop
  | .ok _ => True
  | .err e _ => E e
  | .fault _ => True

theorem Flow.Errs.andThen {E : Error → Prop} {f : Flow} {k : State → Flow} (h : f.Errs E) (hk : ∀ t, (k t).Errs E) :
    (f.andThen k).Errs E := by
  cases f with
  | ok s => exact hk s
  | err e s => exact h
  | fault x => trivial

theorem Flow.Errs.mono {E G : Error → Prop} {f : Flow} (h : f.Errs E) (hEG : ∀ e, E e → G e) : f.Errs G := by
  cases f with
  | ok s => trivial
  | err e s => exact hEG _ h
  | fault x => trivial

/-- The engine and a push return no error. -/
theorem strobeWord_errs (E : Error → Prop) (w : BusWord) (s : State) : (strobeWord w s).Errs E := by
  unfold strobeWord; split <;> trivial

theorem engineStep_errs (E : Error → Prop) (s : State) : (engineStep s).Errs E := by
  unfold engineStep
  split
  · trivial
  · trivial
  · unfold emitWord
    split
    · exact (strobeWord_errs E _ s).andThen fun _ => trivial
    · trivial

theorem runEngine_errs (E : Error → Prop) (n : Nat) (s : State) : (runEngine n s).Errs E := by
  induction n generalizing s with
  | zero => trivial
  | succ n ih => exact (engineStep_errs E s).andThen ih

theorem writeWord_errs (E : Error → Prop) (w : BusWord) (s : State) : (writeWord w s).Errs E := by
  unfold writeWord
  split
  · refine Flow.Errs.andThen (Flow.Errs.andThen ?_ fun t => ?_) fun _ => trivial
    · unfold engineTurns
      split
      · exact runEngine_errs E _ _
      · trivial
    · unfold holdWhileFull
      split
      · refine (engineStep_errs E t).andThen fun u => ?_
        split
        · exact engineStep_errs E u
        · trivial
      · trivial
  · exact strobeWord_errs E w s

theorem writeWords_errs (E : Error → Prop) (ws : List BusWord) (s : State) : (writeWords ws s).Errs E := by
  induction ws generalizing s with
  | nil => trivial
  | cons w ws ih => exact (writeWord_errs E w s).andThen ih

theorem waitUs_errs (E : Error → Prop) (us : Nat) (s : State) : (waitUs us s).Errs E :=
  (runEngine_errs E _ s).andThen fun _ => trivial

/-- A pin drive returns the BusFault of that pin. -/
theorem setPin_errs (p : Pin) (l : Level) (e : Event) (s : State) : (setPin p l e s).Errs (· = .busFault p) := by
  unfold setPin
  split
  · rfl
  · trivial

theorem selectPhase_errs (p : Phase) (s : State) : (selectPhase p s).Errs (· = .busFault .dc) :=
  (runEngine_errs _ _ s).andThen fun t => setPin_errs _ _ _ t

theorem sendCommand_errs (op : Byte) (ps : List Byte) (s : State) : (sendCommand op ps s).Errs (· = .busFault .dc) := by
  refine (selectPhase_errs _ s).andThen fun t => (writeWord_errs _ _ t).andThen fun u => ?_
  split
  · trivial
  · exact (selectPhase_errs _ u).andThen fun v => writeWords_errs _ _ v

theorem sendInitList_errs (es : List InitEntry) (s : State) : (sendInitList es s).Errs (· = .busFault .dc) := by
  induction es generalizing s with
  | nil => trivial
  | cons e es ih => exact ((sendCommand_errs _ _ s).andThen fun t => waitUs_errs _ _ t).andThen ih

theorem pulseReset_errs (s : State) : (pulseReset s).Errs (· = .busFault .rst) :=
  ((runEngine_errs _ _ s).andThen fun t => setPin_errs _ _ _ t).andThen fun t =>
    (waitUs_errs _ _ t).andThen fun u => (setPin_errs _ _ _ u).andThen fun v => waitUs_errs _ _ v

/-- The errors of a drawing operation: the only BusFault is DC's (R145). -/
abbrev drawErr (e : Error) : Prop := ∀ p, e = .busFault p → p = .dc

theorem drawErr_of_dc {e : Error} (h : e = .busFault .dc) : drawErr e := by
  subst h; intro p hp; cases hp; rfl

theorem whenReady_errs {f : State → Flow} {s : State} (h : (f s).Errs drawErr) : (whenReady f s).Errs drawErr := by
  unfold whenReady
  split
  · exact h
  · intro p hp; cases hp

theorem setWindow_errs (x0 y0 x1 y1 : Coord) (s : State) : (setWindow x0 y0 x1 y1 s).Errs drawErr := by
  refine whenReady_errs ?_
  split
  · intro p hp; cases hp
  · exact Flow.Errs.mono ((sendCommand_errs _ _ s).andThen fun t => (sendCommand_errs _ _ t).andThen fun u =>
      sendCommand_errs _ _ u) fun _ => drawErr_of_dc

theorem streamSamples_errs (ss : List Sample) (s : State) : (streamSamples ss s).Errs drawErr :=
  whenReady_errs (Flow.Errs.mono ((selectPhase_errs _ s).andThen fun t => writeWords_errs _ _ t) fun _ => drawErr_of_dc)

theorem fillWindow_errs (x0 y0 x1 y1 : Coord) (c : Color) (s : State) : (fillWindow x0 y0 x1 y1 c s).Errs drawErr :=
  whenReady_errs ((setWindow_errs _ _ _ _ s).andThen fun t => streamSamples_errs _ t)

theorem drawPixels_errs (ps : List Pixel) (s : State) : (drawPixels ps s).Errs drawErr := by
  induction ps generalizing s with
  | nil => trivial
  | cons q qs ih =>
    unfold drawPixels
    split
    · exact ((setWindow_errs _ _ _ _ s).andThen fun t => streamSamples_errs _ t).andThen ih
    · split
      · exact ih s
      · intro p hp; cases hp

/-- INIT ends Ready, or Faulted with the BusFault of the pin that failed (R117, R145). -/
theorem runInit_tame {s : State} (hk : s.phaseKnown) :
    (∃ t, runInit s = .ok t ∧ t.phaseKnown ∧ t.ctrl = .ready) ∨
      ∃ p t, runInit s = .err (.busFault p) t ∧ t.phaseKnown ∧ t.ctrl = .faulted ∧ t.failed p := by
  have h1 : (resetPhase (s.withCtrl .resetting)).Tame (fun t => t.pending = []) := by
    unfold resetPhase
    split
    · exact pulseReset_tame hk
    · exact waitUs_tame _ hk
  have b1 : (resetPhase (s.withCtrl .resetting)).Errs (· = .busFault .rst) := by
    unfold resetPhase
    split
    · exact pulseReset_errs _
    · exact waitUs_errs _ _ _
  unfold runInit
  cases hr : resetPhase (s.withCtrl .resetting) with
  | fault x => rw [hr] at h1; exact h1.elim
  | err e t =>
    rw [hr] at h1 b1
    cases b1
    exact .inr ⟨_, _, rfl, h1.1, rfl, h1.2 _ rfl⟩
  | ok t =>
    rw [hr] at h1
    have h2 : (sendInitList (initSeq t.cfg t.geom t.icfg) (t.withCtrl .configuring)).Tame State.phaseKnown :=
      sendInitList_tame _ (.inl h1)
    rw [andThen_ok]
    cases hi : sendInitList (initSeq t.cfg t.geom t.icfg) (t.withCtrl .configuring) with
    | fault x => rw [hi] at h2; exact h2.elim
    | err e u =>
      have b2 := sendInitList_errs (initSeq t.cfg t.geom t.icfg) (t.withCtrl .configuring)
      rw [hi] at h2 b2
      cases b2
      exact .inr ⟨_, _, rfl, h2.1, rfl, h2.2 _ rfl⟩
    | ok u => rw [hi] at h2; exact .inl ⟨_, rfl, h2, rfl⟩

theorem whenReady_tame {f : State → Flow} {s : State} (hk : s.phaseKnown) (h : (f s).Tame State.phaseKnown) :
    (whenReady f s).Tame State.phaseKnown := by
  unfold whenReady
  split
  · exact h
  · exact ⟨hk, fun p hp => by cases hp⟩

theorem setWindow_tame (x0 y0 x1 y1 : Coord) {s : State} (hk : s.phaseKnown) :
    (setWindow x0 y0 x1 y1 s).Tame State.phaseKnown := by
  refine whenReady_tame hk ?_
  split
  · exact ⟨hk, fun p hp => by cases hp⟩
  · exact (sendCommand_tame _ _ hk).andThen fun t ht => (sendCommand_tame _ _ ht.phaseKnown).andThen fun u hu =>
      (sendCommand_tame _ _ hu.phaseKnown).mono fun _ h => h.phaseKnown

theorem streamSamples_tame (ss : List Sample) {s : State} (hk : s.phaseKnown) :
    (streamSamples ss s).Tame State.phaseKnown :=
  whenReady_tame hk ((selectPhase_tame _ hk).andThen fun _ ht => (writeWords_tame _ ht).mono fun _ h => h.phaseKnown)

theorem fillWindow_tame (x0 y0 x1 y1 : Coord) (c : Color) {s : State} (hk : s.phaseKnown) :
    (fillWindow x0 y0 x1 y1 c s).Tame State.phaseKnown :=
  whenReady_tame hk ((setWindow_tame _ _ _ _ hk).andThen fun _ ht => streamSamples_tame _ ht)

theorem drawPixels_tame (ps : List Pixel) {s : State} (hk : s.phaseKnown) : (drawPixels ps s).Tame State.phaseKnown := by
  induction ps generalizing s with
  | nil => exact hk
  | cons q qs ih =>
    unfold drawPixels
    split
    · exact ((setWindow_tame _ _ _ _ hk).andThen fun _ ht => streamSamples_tame _ ht).andThen fun _ ht => ih ht
    · split
      · exact ih hk
      · exact ⟨hk, fun p hp => by cases hp⟩

end Sys2Proof.Machine
end

