-- ==== Sys2Proof/Laws/Step.lean ====
section
/-! SUPPORT. What a step does: which agent takes it, the engine's step, and a run of several steps (spec/00_scope.md R5, R6,
spec/40_transport.md R106). -/

namespace Sys2Proof.Machine

/-- ENGINE can move exactly where something is queued or in flight. -/
@[simp] theorem engineEnabled_iff (s : State) : s.engineEnabled = true ↔ s.pending ≠ [] := by
  rw [State.engineEnabled, Bool.not_eq_true', Bool.eq_false_iff, ne_eq, idle_iff]

theorem hostEnabled_iff (s : State) : s.hostEnabled = true ↔ s.idx < s.prog.length := by simp [State.hostEnabled]

/-- The agents that can move, and the state each moves from. -/
theorem nextAgent_host {s t : State} (h : nextAgent s = (some .host, t)) :
    s.idx < s.prog.length ∧ (t = s ∧ s.pending = [] ∨ t = s.scheduleDrawn ∧ s.pending ≠ []) := by
  unfold nextAgent at h
  split at h
  · next hh =>
    refine ⟨(hostEnabled_iff s).1 hh, ?_⟩
    split at h
    · next he =>
      split at h
      · simp at h
      · simp at h; exact .inr ⟨h.symm, (engineEnabled_iff s).1 he⟩
    · next he =>
      simp at h
      exact .inl ⟨h.symm, by simpa using he⟩
  · split at h <;> simp at h

theorem nextAgent_engine {s t : State} (h : nextAgent s = (some .engine, t)) :
    (t = s ∨ t = s.scheduleDrawn) ∧ s.pending ≠ [] := by
  unfold nextAgent at h
  split at h
  · split at h
    · next he =>
      split at h
      · simp at h; exact ⟨.inr h.symm, (engineEnabled_iff s).1 he⟩
      · simp at h
    · simp at h
  · split at h
    · next he => simp at h; exact ⟨.inl h.symm, (engineEnabled_iff s).1 he⟩
    · simp at h

theorem nextAgent_none {s t : State} (h : nextAgent s = (none, t)) : t = s := by
  unfold nextAgent at h
  split at h
  · split at h
    · split at h <;> simp at h
    · simp at h
  · split at h
    · simp at h
    · simp at h; exact h.symm

/-- The engine's instruction is the engine's step. -/
theorem exec_engineInstr (s : State) : exec (engineInstr s) s = (engineStep s).silent := by
  unfold engineInstr engineStep
  cases h : s.enginePhase <;> simp [exec, execEnginePull, execEngineEmit, h]

/-- A host call that answers a next state: the instruction is one HOST may call, CMD only where no driver is, it has run, and the
statement index is one on (R74, R94, R157). -/
theorem hostCall_next {i : Instr} {s u : State} (h : hostCall i s = .next u) :
    hostMayCall i = true ∧ (isCmd i = true → s.owner ≠ .driver) ∧ ∃ v, exec i s = .next v ∧ u = { v with idx := v.idx + 1 } := by
  unfold hostCall at h
  split at h
  · cases h
  · next hm =>
    split at h
    · cases h
    · next hc =>
      refine ⟨by simpa using hm, by simpa using hc, ?_⟩
      cases he : exec i s with
      | next v => rw [he] at h; simp [advance] at h; exact ⟨v, rfl, h.symm⟩
      | fault f => rw [he] at h; cases h
      | refused r => rw [he] at h; cases h

theorem fetch_scheduleDrawn (s : State) : fetch s.scheduleDrawn = fetch s := rfl

/-- Everything a step that answers a next state can be: a placed line, the normal end, an ENGINE step, or a call of HOST's. -/
theorem step_cases {s u : State} (h : step s = .next u) :
    s.faultedModel = false ∧ s.refused = false ∧
      ((∃ l i, s.probe = some l ∧ decode s.cfg.opcodes l = .ok i ∧ exec i { s with probe := none } = .next u) ∨
        s.probe = none ∧
          (u = s ∨
            (∃ t, (t = s ∨ t = s.scheduleDrawn) ∧ s.pending ≠ [] ∧ (engineStep t).silent = .next u) ∨
            ∃ t i v, (t = s ∨ t = s.scheduleDrawn) ∧ fetch s = .ok i ∧ hostMayCall i = true ∧
              (isCmd i = true → s.owner ≠ .driver) ∧ exec i t = .next v ∧ u = { v with idx := v.idx + 1 })) := by
  unfold step at h
  split at h
  · cases h
  · next hf =>
    split at h
    · cases h
    · next hr =>
      refine ⟨by simpa using hf, by simpa using hr, ?_⟩
      split at h
      · next l hl =>
        unfold probeStep fetch State.line? at h
        simp only [hl] at h
        split at h
        · next i hd => exact .inl ⟨l, i, hl, hd, h⟩
        · cases h
      · next hl =>
        refine .inr ⟨hl, ?_⟩
        split at h
        · next t ha => cases h; exact .inl (nextAgent_none ha)
        · next t ha =>
          obtain ⟨h1, h2⟩ := nextAgent_engine ha
          exact .inr (.inl ⟨t, h1, h2, by rw [← exec_engineInstr]; exact h⟩)
        · next t ha =>
          have ht : t = s ∨ t = s.scheduleDrawn := (nextAgent_host ha).2.imp And.left And.left
          have hfe : fetch t = fetch s := by rcases ht with rfl | rfl <;> rfl
          have hto : t.owner = s.owner := by rcases ht with rfl | rfl <;> rfl
          unfold hostStep at h
          rw [hfe] at h
          split at h
          · next i hd =>
            obtain ⟨hm, hc, v, hv, rfl⟩ := hostCall_next h
            exact .inr (.inr ⟨t, i, v, ht, hd, hm, by rw [← hto]; exact hc, hv, rfl⟩)
          · cases h

/-! ## Runs -/

theorem run_zero (s : State) : Sys2Proof.core.run 0 s = .next s := rfl

theorem run_succ {s t : State} (h : step s = .next t) (n : Nat) :
    Sys2Proof.core.run (n + 1) s = Sys2Proof.core.run n t := by
  have : Sys2Proof.core.step s = .next t := h
  simp [Host.Core.run, this]

end Sys2Proof.Machine
end

