-- ==== Sys2Proof/Laws/Exec.lean ====
section
/-! SUPPORT. What an instruction that answers a next state can have changed, for each of the five shapes an instruction has: on the
bus alone, on the reset pin and CTRL too, on BL, and the three that build or give away the machine's parts. -/

namespace Sys2Proof.Machine

/-- The instruction builds or gives away a part of the machine: TAKE, TRANSPORT_NEW, DRIVER_NEW. -/
def constructs : Instr → Bool
  | .take => true
  | .transportNew _ _ _ _ _ => true
  | .driverNew _ _ _ _ _ _ _ _ => true
  | _ => false

/-- Only the bus side, the pins, CTRL and the returned result have changed. -/
def PinsOnly (s t : State) : Prop :=
  t = { s with
    fifo := t.fifo, osr := t.osr, dataOut := t.dataOut, strobe := t.strobe, dc := t.dc, trace := t.trace
    panel := t.panel, env := t.env, rst := t.rst, bl := t.bl, ctrl := t.ctrl, result := t.result }

theorem PinsOnly.trans {s t u : State} (h : PinsOnly s t) (k : PinsOnly t u) : PinsOnly s u := by
  cases s; cases t; cases u; simp_all [PinsOnly]

theorem SequencerOnly.pins {s t : State} (h : SequencerOnly s t) : PinsOnly s t := by
  cases s; cases t; simp_all [SequencerOnly, PinsOnly]

theorem BusOnly.pins {s t : State} (h : BusOnly s t) : PinsOnly s t := h.sequencer.pins

theorem PinsOnly.withResult {s t : State} (h : PinsOnly s t) (r : Option Result) : PinsOnly s { t with result := r } := by
  cases s; cases t; simp_all [PinsOnly]

theorem PinsOnly.cfg {s t : State} (h : PinsOnly s t) : t.cfg = s.cfg := by rw [h]
theorem PinsOnly.prog {s t : State} (h : PinsOnly s t) : t.prog = s.prog := by rw [h]
theorem PinsOnly.idx {s t : State} (h : PinsOnly s t) : t.idx = s.idx := by rw [h]
theorem PinsOnly.probe {s t : State} (h : PinsOnly s t) : t.probe = s.probe := by rw [h]
theorem PinsOnly.taken {s t : State} (h : PinsOnly s t) : t.taken = s.taken := by rw [h]
theorem PinsOnly.handle {s t : State} (h : PinsOnly s t) : t.handle = s.handle := by rw [h]
theorem PinsOnly.tcfg {s t : State} (h : PinsOnly s t) : t.tcfg = s.tcfg := by rw [h]
theorem PinsOnly.owner {s t : State} (h : PinsOnly s t) : t.owner = s.owner := by rw [h]
theorem PinsOnly.geom {s t : State} (h : PinsOnly s t) : t.geom = s.geom := by rw [h]
theorem PinsOnly.icfg {s t : State} (h : PinsOnly s t) : t.icfg = s.icfg := by rw [h]
theorem PinsOnly.rstPin {s t : State} (h : PinsOnly s t) : t.rstPin = s.rstPin := by rw [h]
theorem PinsOnly.blPin {s t : State} (h : PinsOnly s t) : t.blPin = s.blPin := by rw [h]
theorem PinsOnly.faultedModel {s t : State} (h : PinsOnly s t) : t.faultedModel = s.faultedModel := by rw [h]
theorem PinsOnly.refused {s t : State} (h : PinsOnly s t) : t.refused = s.refused := by rw [h]

/-- What an instruction that builds nothing keeps: the frame, the bus part of the invariant, and CTRL, but for INIT, which leaves
Faulted as it is and else ends Ready or Faulted. -/
structure Kept (i : Instr) (s t : State) : Prop where
  frame : PinsOnly s t
  bus   : s.BusInv → t.BusInv
  ctrl  : t.ctrl = s.ctrl ∨ (i = .init ∧ s.ctrl ≠ .faulted ∧ (t.ctrl = .ready ∨ t.ctrl = .faulted))

theorem BusInv.withResult {s : State} (h : s.BusInv) (r : Option Result) : State.BusInv { s with result := r } :=
  ⟨h.fifoBounded, h.directEmpty, h.fifoFits, h.osrFits, h.dataFits, h.strobeIdle, h.frameWf, h.panelReads, h.phasesHeld, h.phaseShown⟩

/-- What an operation that drives pins and leaves CTRL alone keeps. -/
def PinsSound (s t : State) : Prop := PinsOnly s t ∧ (s.BusInv → t.BusInv) ∧ t.ctrl = s.ctrl

theorem BusSound.pins {s t : State} (h : BusSound s t) : PinsSound s t := ⟨h.1.pins, h.2, h.1.ctrl⟩

theorem kept_of_pins {i : Instr} {f : Flow} {s t : State} {v : Value} (h : f.Keeps (PinsSound s)) (he : f.finish v = .next t) :
    Kept i s t := by
  cases f with
  | ok u => simp at he; subst he; exact ⟨h.1.withResult _, fun hb => BusInv.withResult (h.2.1 hb) _, .inl h.2.2⟩
  | err e u => simp at he; subst he; exact ⟨h.1.withResult _, fun hb => BusInv.withResult (h.2.1 hb) _, .inl h.2.2⟩
  | fault x => simp at he

theorem kept_of_finish {i : Instr} {f : Flow} {s t : State} {v : Value} (h : f.Keeps (BusSound s)) (he : f.finish v = .next t) :
    Kept i s t := kept_of_pins (h.mono fun _ => BusSound.pins) he

/-- RESET_PULSE (R113). -/
theorem pulseReset_pins (s : State) : (pulseReset s).Keeps (PinsSound s) := by
  have h := pulseReset_sound s
  have hc := pulseReset_ctrl s
  cases hf : pulseReset s with
  | ok u => rw [hf] at h hc; exact ⟨h.1.pins, h.2, hc⟩
  | err e u => rw [hf] at h hc; exact ⟨h.1.pins, h.2, hc⟩
  | fault x => trivial

/-- A drive of BL (R119). -/
theorem setPin_bl_sound (l : Level) (s : State) : (setPin .bl l (.bl l) s).Keeps (PinsSound s) := by
  have h1 : ∀ m (e : Event), (∀ p w, e ≠ .cyc p w) → (∀ q, e.phaseAfter q = q) →
      PinsSound s ((s.pinDrawn.withPin .bl m).emit e) := fun m e hc hp =>
    ⟨by simp [PinsOnly, State.emit, State.withPin, State.pinDrawn], fun h => BusInv.emit (s := s.pinDrawn.withPin .bl m)
      ⟨h.fifoBounded, h.directEmpty, h.fifoFits, h.osrFits, h.dataFits, h.strobeIdle, h.frameWf, h.panelReads, h.phasesHeld,
        h.phaseShown⟩ hc hp, rfl⟩
  unfold setPin
  split
  · exact h1 _ _ (by simp) fun _ => rfl
  · exact h1 _ _ (by simp) fun _ => rfl

theorem kept_of_silent {i : Instr} {f : Flow} {s t : State} (h : f.Keeps (BusSound s)) (he : f.silent = .next t) :
    Kept i s t := by
  cases f with
  | ok u => simp at he; subst he; exact ⟨h.1.pins, h.2, .inl h.1.ctrl⟩
  | err e u => simp at he; subst he; exact ⟨h.1.pins, h.2, .inl h.1.ctrl⟩
  | fault x => simp at he

theorem kept_of_asTransport {i : Instr} {f : State → Flow} {s t : State} (h : (f s).Keeps (BusSound s))
    (he : asTransport f s = .next t) : Kept i s t := by
  unfold asTransport at he
  split at he
  · cases he
  · cases he
  · exact kept_of_finish h he

theorem kept_of_asDriver {i : Instr} {f : State → Flow} {v : Value} {s t : State} (h : (f s).Keeps (BusSound s))
    (he : asDriver v f s = .next t) : Kept i s t := by
  unfold asDriver at he
  split at he
  · exact kept_of_finish h he
  · cases he
  · cases he

theorem cycle_sound (p : Phase) {w : BusWord} (s : State) (hw : wordFits s.cfg.busWidth w.toNat = true) :
    (((selectPhase p s).andThen (writeWord w)).andThen drain).Keeps (BusSound s) :=
  BusSound.andThen (BusSound.andThen (selectPhase_sound p s) fun t ht => writeWord_sound t (by rw [ht.1.cfg]; exact hw))
    fun t _ => drain_sound t

theorem wordFits_ofNat {bw : BusWidth} {w : Nat} (h : wordFits bw w = true) :
    wordFits bw (BitVec.ofNat 16 w).toNat = true := by
  have hlt : w < 2 ^ 16 := by
    have := of_decide_eq_true h
    cases bw <;> simp [BusWidth.bits] at this <;> omega
  rw [BitVec.toNat_ofNat, Nat.mod_eq_of_lt hlt]; exact h

theorem onBus_fits (bw : BusWidth) (w : BusWord) : wordFits bw (onBus bw w).toNat = true := by
  refine decide_eq_true ?_
  cases bw <;> simp [onBus, BusWidth.bits] <;> omega

/-- Every instruction but the three constructions. -/
theorem exec_kept {i : Instr} {s t : State} (hi : constructs i = false) (he : exec i s = .next t) : Kept i s t := by
  have hself : ∀ {i : Instr} {s t : State}, (Host.Outcome.next s : Host.Outcome State Fault Refusal) = .next t → Kept i s t := by
    intro i s t h; cases h; exact ⟨rfl, id, .inl rfl⟩
  cases i with
  | slpout => exact kept_of_finish (cycle_sound _ s (byteWord_fits _ _)) he
  | colmod => exact kept_of_finish (cycle_sound _ s (byteWord_fits _ _)) he
  | caset => exact kept_of_finish (cycle_sound _ s (byteWord_fits _ _)) he
  | raset => exact kept_of_finish (cycle_sound _ s (byteWord_fits _ _)) he
  | ramwr => exact kept_of_finish (cycle_sound _ s (byteWord_fits _ _)) he
  | madctl => exact kept_of_finish (cycle_sound _ s (byteWord_fits _ _)) he
  | dispon => exact kept_of_finish (cycle_sound _ s (byteWord_fits _ _)) he
  | busCmd w =>
    simp only [exec, execBusCmd] at he
    split at he
    · next h => exact kept_of_finish (cycle_sound _ s h) he
    · cases he
  | busData w =>
    simp only [exec, execBusData] at he
    split at he
    · next h => exact kept_of_finish (cycle_sound _ s h) he
    · cases he
  | take => cases hi
  | transportNew _ _ _ _ _ => cases hi
  | select p => exact kept_of_asTransport (selectPhase_sound p s) he
  | write w =>
    simp only [exec, execWrite] at he
    split at he
    · next h => exact kept_of_asTransport (writeWord_sound s (wordFits_ofNat h)) he
    · cases he
  | burst ws =>
    simp only [exec, execBurst] at he
    split at he
    · next h =>
      refine kept_of_asTransport (writeWords_sound _ s fun x hx => ?_) he
      obtain ⟨w, hw, rfl⟩ := List.mem_map.1 hx
      simp only [wordsFit, List.all_eq_true] at h
      exact wordFits_ofNat (h w hw)
    · cases he
  | driverNew _ _ _ _ _ _ _ _ => cases hi
  | init =>
    simp only [exec, execInit, asDriver] at he
    split at he
    · unfold initPanel at he
      split at he
      · simp [raise] at he; subst he; exact ⟨rfl, fun hb => BusInv.withResult hb _, .inl rfl⟩
      · next hc =>
        have h := runInit_sound s
        cases hf : runInit s with
        | ok u =>
          rw [hf] at h he; simp at he; subst he
          exact ⟨h.1.1.pins.withResult _, fun hb => BusInv.withResult (h.1.2 hb) _, .inr ⟨rfl, hc, h.2⟩⟩
        | err e u =>
          rw [hf] at h he; simp at he; subst he
          exact ⟨h.1.1.pins.withResult _, fun hb => BusInv.withResult (h.1.2 hb) _, .inr ⟨rfl, hc, h.2⟩⟩
        | fault x => rw [hf] at he; simp at he
    · cases he
    · cases he
  | backlight on =>
    simp only [exec, execBacklight] at he
    split at he
    · split at he
      · exact kept_of_pins (setPin_bl_sound _ s) he
      · cases he
    · cases he
    · cases he
  | setWindow _ _ _ _ => exact kept_of_asDriver (setWindow_sound _ _ _ _ s) he
  | stream ss =>
    simp only [exec, execStream] at he
    split at he
    · exact kept_of_asDriver (streamSamples_sound _ s) he
    · cases he
  | fill _ _ _ _ _ =>
    simp only [exec, execFill] at he
    split at he
    · exact kept_of_asDriver (fillWindow_sound _ _ _ _ _ s) he
    · cases he
  | clear c =>
    simp only [exec, execClear] at he
    split at he
    · exact kept_of_asDriver (f := clearPanel c) (fillWindow_sound _ _ _ _ _ s) he
    · cases he
  | draw ps =>
    simp only [exec, execDraw] at he
    split at he
    · exact kept_of_asDriver (whenReady_sound (drawPixels_sound ps s)) he
    · cases he
  | bbox => exact kept_of_asDriver (f := fun t => .ok t) (BusSound.refl s) he
  | enginePull =>
    simp only [exec, execEnginePull] at he
    split at he
    · cases he; exact ⟨(pull_sound s).1.pins, (pull_sound s).2, .inl (pull_sound s).1.ctrl⟩
    · exact hself he
    · exact hself he
  | engineEmit =>
    simp only [exec, execEngineEmit] at he
    split at he
    · next h =>
      have := engineStep_sound s
      simp only [engineStep, h] at this
      exact kept_of_silent this he
    · exact hself he
    · exact hself he
  | cmd op ps =>
    simp only [exec, execCmd] at he
    split at he
    · cases he
    · exact kept_of_finish (sendCommand_sound op ps s) he
    · exact kept_of_finish (sendCommand_sound op ps s) he
  | delay us => exact kept_of_finish (waitUs_sound us s) he
  | resetPulse =>
    simp only [exec, execResetPulse] at he
    split at he
    · split at he
      · exact kept_of_pins (pulseReset_pins s) he
      · cases he
    · cases he
    · cases he

end Sys2Proof.Machine
end

