-- ==== Sys2Proof/Laws/Panel.lean ====
section
/-! SUPPORT. The panel reference model: reading FRAME after a window is forgotten, a whole sample at the cursor, the window the three
commands of SET_WINDOW leave, and a bus cycle run as an instruction (spec/20_memory.md R59 to R64). -/

namespace Sys2Proof.Machine

/-! ## Bytes -/

theorem toNat_append_add {m n : Nat} (a : BitVec m) (b : BitVec n) : (a ++ b).toNat = a.toNat * 2 ^ n + b.toNat := by
  rw [BitVec.toNat_append, ← Nat.shiftLeft_add_eq_or_of_lt b.isLt, Nat.shiftLeft_eq]

@[simp] theorem lowByte_byteWord (b : Byte) : lowByte (byteWord b) = b := by
  apply BitVec.eq_of_toNat_eq
  have := b.isLt
  simp [lowByte, byteWord]
  omega

theorem pairValue_hi_lo (x : Coord) : pairValue (hiByte x) (loByte x) = x.toNat := by
  have := x.isLt
  simp only [pairValue, hiByte, loByte, BitVec.extractLsb'_toNat, Nat.shiftRight_eq_div_pow]
  omega

/-! ## FRAME -/

theorem Memory.read_filter (m : Memory) (f : Nat → Bool) (k : Nat) :
    Memory.read (m.filter (fun c => f c.1)) k = if f k then Memory.read m k else none := by
  induction m with
  | nil => simp [Memory.read]
  | cons c r ih =>
    obtain ⟨a, v⟩ := c
    by_cases hf : f a = true
    · rw [List.filter_cons_of_pos (by simpa using hf)]
      simp only [Memory.read, ih]
      by_cases hak : a = k
      · subst hak; simp [hf]
      · simp [hak]
    · rw [List.filter_cons_of_neg (by simpa using hf), ih]
      simp only [Memory.read]
      by_cases hak : a = k
      · subst hak; simp [hf]
      · simp [hak]

/-- After a window is forgotten, its pixels are unknown and every other pixel is as before (R64). -/
theorem Memory.read_forget (m : Memory) (xs ys xe ye : Nat) {x y : Nat} (hx : x < 65536) :
    Memory.read (Memory.forget m xs ys xe ye) (pixelKey x y) =
      if xs ≤ x ∧ x ≤ xe ∧ ys ≤ y ∧ y ≤ ye then none else Memory.read m (pixelKey x y) := by
  have e1 : pixelKey x y % 65536 = x := by unfold pixelKey; omega
  have e2 : pixelKey x y / 65536 = y := by unfold pixelKey; omega
  rw [Memory.forget, Memory.read_filter m (fun k => !inWindow xs ys xe ye k)]
  simp only [inWindow, e1, e2]
  by_cases h : xs ≤ x ∧ x ≤ xe ∧ ys ≤ y ∧ y ≤ ye
  · simp [h]
  · rw [if_neg h, if_pos (by simp; omega)]

/-! ## A whole sample -/

theorem Panel.writeSample_noWindow {p : Panel} (h : p.win = none) (x : Sample) :
    p.writeSample x = { p with frame := [] } := by simp [Panel.writeSample, h]

theorem Panel.writeSample_inside {p : Panel} {xs ys xe ye : Nat} (h : p.win = some (xs, ys, xe, ye))
    (hc : p.count < (xe - xs + 1) * (ye - ys + 1)) (x : Sample) :
    p.writeSample x = { p with
      frame := p.frame.write (pixelKey p.cx p.cy) x
      count := p.count + 1
      cx := (nextCursor xs ys xe ye p.cx p.cy).1
      cy := (nextCursor xs ys xe ye p.cx p.cy).2 } := by simp [Panel.writeSample, h, hc]

theorem Panel.writeSample_past {p : Panel} {xs ys xe ye : Nat} (h : p.win = some (xs, ys, xe, ye))
    (hc : (xe - xs + 1) * (ye - ys + 1) ≤ p.count) (x : Sample) :
    p.writeSample x = { p with frame := p.frame.forget xs ys xe ye, count := p.count + 1 } := by
  simp [Panel.writeSample, h, Nat.not_lt.2 hc]

/-- A Data word in memory-write mode. -/
theorem Panel.data_ramWrite {p : Panel} (h : p.mode = .ramWrite) (bw : BusWidth) (pf : PixelFormat) (width height : Nat)
    (w : BusWord) :
    p.data bw pf width height w =
      if p.bbuf.length + 1 = wordsPerSample bw pf then
        Panel.writeSample { p with bbuf := [] } (deserialize bw pf (p.bbuf ++ [w]))
      else { p with bbuf := p.bbuf ++ [w] } := by
  simp [Panel.data, h]

/-! ## The window SET_WINDOW leaves -/

/-- A column range of four bytes (R60). -/
theorem take_casetEvents {cfg : Params} {g : PanelGeometry} {c : InitConfig} {x0 x1 : Coord} (p : Panel)
    (hd : cfg.opcodes.distinct) (hx : ¬(x1.toNat < x0.toNat ∨ g.width ≤ x1.toNat)) :
    (commandEvents cfg.opcodes.caset [hiByte x0, loByte x0, hiByte x1, loByte x1]).foldl (Panel.take cfg g c) p =
      { p with
        winc := some (x0.toNat, x1.toNat), mode := .other, pbuf := [hiByte x0, loByte x0, hiByte x1, loByte x1]
        bbuf := [] } := by
  simp only [Opcodes.distinct, Opcodes.all, List.nodup_cons, List.mem_cons, List.not_mem_nil, or_false, not_or] at hd
  obtain ⟨⟨-, -, a3, -⟩, -, -, ⟨-, -, d3⟩, -⟩ := hd
  simp [commandEvents, Panel.take, Panel.command, Panel.data, modeOf, Panel.setColumns, pairValue_hi_lo]
  rw [if_neg hx]
  simp [Ne.symm a3, d3]

/-- A row range of four bytes (R60). -/
theorem take_rasetEvents {cfg : Params} {g : PanelGeometry} {c : InitConfig} {y0 y1 : Coord} (p : Panel)
    (hd : cfg.opcodes.distinct) (hy : ¬(y1.toNat < y0.toNat ∨ g.height ≤ y1.toNat)) :
    (commandEvents cfg.opcodes.raset [hiByte y0, loByte y0, hiByte y1, loByte y1]).foldl (Panel.take cfg g c) p =
      { p with
        winr := some (y0.toNat, y1.toNat), mode := .other, pbuf := [hiByte y0, loByte y0, hiByte y1, loByte y1]
        bbuf := [] } := by
  simp only [Opcodes.distinct, Opcodes.all, List.nodup_cons, List.mem_cons, List.not_mem_nil, or_false, not_or] at hd
  obtain ⟨⟨-, -, -, a4, -⟩, -, -, ⟨d1, -, -⟩, ⟨-, e2⟩, -⟩ := hd
  simp [commandEvents, Panel.take, Panel.command, Panel.data, modeOf, Panel.setRows, pairValue_hi_lo, Ne.symm d1]
  rw [if_neg hy]
  simp [Ne.symm a4, e2]

/-- A memory-write command with a window (R61). -/
theorem take_ramwrEvents {cfg : Params} {g : PanelGeometry} {c : InitConfig} {xs ys xe ye : Nat} {p : Panel}
    (hd : cfg.opcodes.distinct) (hx : p.winc = some (xs, xe)) (hy : p.winr = some (ys, ye)) :
    (commandEvents cfg.opcodes.ramwr []).foldl (Panel.take cfg g c) p =
      { p with cx := xs, cy := ys, count := 0, mode := .ramWrite, pbuf := [], bbuf := [] } := by
  simp only [Opcodes.distinct, Opcodes.all, List.nodup_cons, List.mem_cons, List.not_mem_nil, or_false, not_or] at hd
  obtain ⟨⟨-, -, -, -, a5, -⟩, ⟨-, -, -, b4, -⟩, ⟨-, -, c3, -⟩, ⟨-, d2, -⟩, ⟨e1, -⟩, f1, -⟩ := hd
  simp [commandEvents, Panel.take, Panel.command, modeOf, Panel.arm, Panel.win, hx, hy, Ne.symm a5, Ne.symm b4, Ne.symm c3,
    Ne.symm d2, Ne.symm e1, f1]

/-- After the three commands of a legal window the window is set, the cursor at its origin, and no sample counted (R60, R61). -/
theorem take_windowEvents {cfg : Params} {g : PanelGeometry} {c : InitConfig} {x0 y0 x1 y1 : Coord} (p : Panel)
    (hd : cfg.opcodes.distinct) (hw : outOfBounds g x0 y0 x1 y1 = false) :
    (windowEvents cfg.opcodes x0 y0 x1 y1).foldl (Panel.take cfg g c) p =
      { p with
        winc := some (x0.toNat, x1.toNat), winr := some (y0.toNat, y1.toNat), cx := x0.toNat, cy := y0.toNat
        count := 0, mode := .ramWrite, pbuf := [], bbuf := [] } := by
  simp only [outOfBounds, Bool.or_eq_false_iff, decide_eq_false_iff_not] at hw
  rw [windowEvents, List.foldl_append, List.foldl_append, take_casetEvents p hd (by omega),
    take_rasetEvents _ hd (by omega), take_ramwrEvents hd rfl rfl]

/-! ## Samples in a window -/

/-- The words of a sample on the bus are WPS words, and they are the sample (R62, R123). -/
theorem deserialize_serialize {bw : BusWidth} {pf : PixelFormat} {x : Sample} (h : bw = .w16 → pf = .pf16)
    (hx : sampleFits pf x.toNat = true) : deserialize bw pf (serialize bw pf x) = x := by
  have hx := of_decide_eq_true hx
  have hb (b : Byte) : lowByte (byteWord b) = b := lowByte_byteWord b
  cases bw <;> cases pf <;> simp only [PixelFormat.bits] at hx
  · have e : deserialize .w8 .pf16 (serialize .w8 .pf16 x) =
        (x.extractLsb' 8 8 ++ x.extractLsb' 0 8 : BitVec (8 + 8)).setWidth 24 := by
      simp only [serialize, deserialize, List.getD_cons_zero, List.getD_cons_succ, hb]
    rw [e]; apply BitVec.eq_of_toNat_eq
    rw [BitVec.toNat_setWidth, toNat_append_add]
    simp only [BitVec.extractLsb'_toNat, Nat.shiftRight_eq_div_pow]; omega
  · have e : deserialize .w8 .pf18 (serialize .w8 .pf18 x) =
        ((x.extractLsb' 12 6 ++ x.extractLsb' 6 6 : BitVec (6 + 6)) ++ x.extractLsb' 0 6 : BitVec (6 + 6 + 6)).setWidth 24 := by
      have h6 : ∀ v : BitVec 6, (v ++ 0#2 : BitVec 8).extractLsb' 2 6 = v := by intro v; decide +revert
      simp only [serialize, deserialize, List.getD_cons_zero, List.getD_cons_succ, hb, h6]
    rw [e]; apply BitVec.eq_of_toNat_eq
    rw [BitVec.toNat_setWidth, toNat_append_add, toNat_append_add]
    simp only [BitVec.extractLsb'_toNat, Nat.shiftRight_eq_div_pow]; omega
  · have e : deserialize .w8 .pf24 (serialize .w8 .pf24 x) =
        ((x.extractLsb' 16 8 ++ x.extractLsb' 8 8 : BitVec (8 + 8)) ++ x.extractLsb' 0 8 : BitVec (8 + 8 + 8)) := by
      simp only [serialize, deserialize, List.getD_cons_zero, List.getD_cons_succ, hb]
    rw [e]; apply BitVec.eq_of_toNat_eq
    rw [toNat_append_add, toNat_append_add]
    simp only [BitVec.extractLsb'_toNat, Nat.shiftRight_eq_div_pow]; omega
  · apply BitVec.eq_of_toNat_eq
    simp [serialize, deserialize]; omega
  · cases h rfl
  · cases h rfl

/-- A whole sample's words in memory-write mode (R62, R63). -/
theorem take_sample {cfg : Params} {g : PanelGeometry} {c : InitConfig} {p : Panel} {x : Sample} (hm : p.mode = .ramWrite)
    (hb : p.bbuf = []) (h : cfg.busWidth = .w16 → c.pixelFormat = .pf16) (hx : sampleFits c.pixelFormat x.toNat = true) :
    ((serialize cfg.busWidth c.pixelFormat x).map (fun w => Event.cyc .data w)).foldl (Panel.take cfg g c) p =
      p.writeSample x := by
  have hd := deserialize_serialize h hx
  obtain ⟨frame, winc, winr, cx, cy, count, mode, pbuf, bbuf, awake, dispOn, colmodV, madctlV⟩ := p
  simp only at hm hb
  subst hm hb
  cases hbw : cfg.busWidth <;> cases hpf : c.pixelFormat <;> rw [hbw, hpf] at hd
  · simp [serialize] at hd
    simp [serialize, Panel.take, hbw, hpf, Panel.data_ramWrite, wordsPerSample, hd]
  · simp [serialize] at hd
    simp [serialize, Panel.take, hbw, hpf, Panel.data_ramWrite, wordsPerSample, hd]
  · simp [serialize] at hd
    simp [serialize, Panel.take, hbw, hpf, Panel.data_ramWrite, wordsPerSample, hd]
  · simp only [serialize] at hd
    simp [serialize, Panel.take, hbw, hpf, Panel.data_ramWrite, wordsPerSample, hd]
  · have := h hbw; rw [hpf] at this; cases this
  · have := h hbw; rw [hpf] at this; cases this

/-- The cursor of sample `n` in raster order (R63). -/
theorem nextCursor_raster {xs ys xe ye n : Nat} (hx : xs ≤ xe) (hy : ys ≤ ye)
    (hn : n + 1 < (xe - xs + 1) * (ye - ys + 1)) :
    nextCursor xs ys xe ye (xs + n % (xe - xs + 1)) (ys + n / (xe - xs + 1)) =
      (xs + (n + 1) % (xe - xs + 1), ys + (n + 1) / (xe - xs + 1)) := by
  have hW : 0 < xe - xs + 1 := Nat.succ_pos _
  have hlt := Nat.mod_lt n hW
  have hdiv : (n + 1) / (xe - xs + 1) < ye - ys + 1 := Nat.div_lt_of_lt_mul hn
  have hmono : n / (xe - xs + 1) ≤ (n + 1) / (xe - xs + 1) := Nat.div_le_div_right (Nat.le_succ n)
  by_cases hc : n % (xe - xs + 1) + 1 < xe - xs + 1
  · have h1 : (n + 1) % (xe - xs + 1) = n % (xe - xs + 1) + 1 := by
      rw [Nat.add_mod, Nat.mod_eq_of_lt (show 1 < xe - xs + 1 by omega), Nat.mod_eq_of_lt hc]
    have h2 : (n + 1) / (xe - xs + 1) = n / (xe - xs + 1) := by
      rw [Nat.add_div hW, Nat.div_eq_of_lt (show 1 < xe - xs + 1 by omega),
        Nat.mod_eq_of_lt (show 1 < xe - xs + 1 by omega), if_neg (by omega), Nat.add_zero, Nat.add_zero]
    rw [nextCursor, if_neg (by omega), if_neg (by omega), h1, h2, Nat.add_assoc]
  · have he : n % (xe - xs + 1) + 1 = xe - xs + 1 := by omega
    have h0 : n + 1 = (xe - xs + 1) * (n / (xe - xs + 1) + 1) := by
      have := Nat.div_add_mod n (xe - xs + 1)
      rw [Nat.mul_add, Nat.mul_one]; omega
    have h1 : (n + 1) % (xe - xs + 1) = 0 := by rw [h0]; exact Nat.mul_mod_right _ _
    have h2 : (n + 1) / (xe - xs + 1) = n / (xe - xs + 1) + 1 := by
      conv_lhs => rw [h0]
      exact Nat.mul_div_cancel_left _ hW
    rw [nextCursor, if_pos (by omega), if_neg (by omega), h1, h2, Nat.add_zero]
    simp [Nat.add_assoc]

/-- A window's raster holds `n` whole samples of one colour and the cursor stands at the next one. -/
structure Panel.Filled (p0 : Panel) (xs ys xe ye : Nat) (x : Sample) (n : Nat) (p : Panel) : Prop where
  win    : p.win = some (xs, ys, xe, ye)
  mode   : p.mode = .ramWrite
  bbuf   : p.bbuf = []
  count  : p.count = n
  cursor : n < (xe - xs + 1) * (ye - ys + 1) →
    p.cx = xs + n % (xe - xs + 1) ∧ p.cy = ys + n / (xe - xs + 1)
  pixels : ∀ a b, a < 65536 → p.pixel a b =
    if xs ≤ a ∧ a ≤ xe ∧ ys ≤ b ∧ (b - ys) * (xe - xs + 1) + (a - xs) < n then some x else p0.pixel a b

/-- One more sample in raster order (R63). -/
theorem Panel.Filled.next {p0 p : Panel} {xs ys xe ye n : Nat} {x : Sample} (h : Filled p0 xs ys xe ye x n p) (hx : xs ≤ xe)
    (hy : ys ≤ ye) (hxe : xe < 65536) (hn : n < (xe - xs + 1) * (ye - ys + 1)) :
    Filled p0 xs ys xe ye x (n + 1) (p.writeSample x) := by
  obtain ⟨hcx, hcy⟩ := h.cursor hn
  have hW : 0 < xe - xs + 1 := Nat.succ_pos _
  have hlt := Nat.mod_lt n hW
  rw [Panel.writeSample_inside h.win (by rw [h.count]; exact hn)]
  refine ⟨h.win, h.mode, h.bbuf, by simp [h.count], fun hn' => ?_, fun a b ha => ?_⟩
  · simp only [hcx, hcy]
    rw [nextCursor_raster hx hy hn']
    exact ⟨rfl, rfl⟩
  · have hp := h.pixels a b ha
    simp only [Panel.pixel] at hp ⊢
    have hdm := Nat.div_add_mod n (xe - xs + 1)
    rw [Nat.mul_comm] at hdm
    by_cases hk : pixelKey a b = pixelKey p.cx p.cy
    · obtain ⟨rfl, rfl⟩ := pixelKey_inj ha (by omega) hk
      rw [Memory.read_write_same, if_pos]
      refine ⟨by rw [hcx]; exact Nat.le_add_right _ _, by rw [hcx]; omega, by rw [hcy]; exact Nat.le_add_right _ _, ?_⟩
      rw [hcx, hcy]
      rw [Nat.add_sub_cancel_left, Nat.add_sub_cancel_left]; omega
    · rw [Memory.read_write_other _ _ hk, hp]
      have hne : ¬(a = p.cx ∧ b = p.cy) := fun hh => hk (by rw [hh.1, hh.2])
      by_cases hin : xs ≤ a ∧ a ≤ xe ∧ ys ≤ b
      · have hneq : (b - ys) * (xe - xs + 1) + (a - xs) ≠ n := by
          intro he
          apply hne
          have h1 : n % (xe - xs + 1) = a - xs := by
            rw [← he, Nat.add_comm, Nat.add_mul_mod_self_right, Nat.mod_eq_of_lt (by omega)]
          have h2 : n / (xe - xs + 1) = b - ys := by
            rw [← he, Nat.add_comm, Nat.add_mul_div_right _ _ hW, Nat.div_eq_of_lt (by omega), Nat.zero_add]
          rw [hcx, hcy, h1, h2]
          omega
        by_cases hl : (b - ys) * (xe - xs + 1) + (a - xs) < n
        · rw [if_pos ⟨hin.1, hin.2.1, hin.2.2, hl⟩, if_pos ⟨hin.1, hin.2.1, hin.2.2, by omega⟩]
        · rw [if_neg (fun h => hl h.2.2.2), if_neg (fun h => by omega)]
      · rw [if_neg (fun h => hin ⟨h.1, h.2.1, h.2.2.1⟩), if_neg (fun h => hin ⟨h.1, h.2.1, h.2.2.1⟩)]

/-- A stream of `n` whole samples of one colour into a fresh window. -/
theorem take_streamEvents {cfg : Params} {g : PanelGeometry} {c : InitConfig} {p0 : Panel} {xs ys xe ye : Nat} {x : Sample}
    (h : cfg.busWidth = .w16 → c.pixelFormat = .pf16) (hf : sampleFits c.pixelFormat x.toNat = true) (hx : xs ≤ xe)
    (hy : ys ≤ ye) (hxe : xe < 65536) (m : Nat) {p : Panel} {n : Nat} (hP : Panel.Filled p0 xs ys xe ye x n p) (hm : n + m ≤ (xe - xs + 1) * (ye - ys + 1)) :
    Panel.Filled p0 xs ys xe ye x (n + m)
      ((streamEvents cfg.busWidth c.pixelFormat (List.replicate m x)).foldl (Panel.take cfg g c) p) := by
  have key : ∀ m n (p : Panel), Panel.Filled p0 xs ys xe ye x n p → n + m ≤ (xe - xs + 1) * (ye - ys + 1) →
      Panel.Filled p0 xs ys xe ye x (n + m)
        ((((List.replicate m x).flatMap (serialize cfg.busWidth c.pixelFormat)).map (fun w => Event.cyc .data w)).foldl
          (Panel.take cfg g c) p) := by
    intro m
    induction m with
    | zero => intro n p hP _; exact hP
    | succ m ih =>
      intro n p hP hm
      rw [List.replicate_succ, List.flatMap_cons, List.map_append, List.foldl_append,
        take_sample hP.mode hP.bbuf h hf]
      have := ih (n + 1) _ (hP.next hx hy hxe (by omega)) (by omega)
      rw [show n + (m + 1) = n + 1 + m by omega]
      exact this
  simpa [streamEvents, Panel.take] using key m n p hP hm

/-- The panel after the events of a legal FILL: every pixel of the window holds the colour, no other pixel has changed. -/
theorem take_fillEvents {cfg : Params} {g : PanelGeometry} {c : InitConfig} {x0 y0 x1 y1 : Coord} {x : Sample} (p : Panel)
    (hd : cfg.opcodes.distinct) (h : cfg.busWidth = .w16 → c.pixelFormat = .pf16)
    (hf : sampleFits c.pixelFormat x.toNat = true) (hw : outOfBounds g x0 y0 x1 y1 = false) {a b : Nat} (ha : a < 65536) :
    ((windowEvents cfg.opcodes x0 y0 x1 y1 ++ streamEvents cfg.busWidth c.pixelFormat
      (List.replicate ((x1.toNat - x0.toNat + 1) * (y1.toNat - y0.toNat + 1)) x)).foldl (Panel.take cfg g c) p).pixel a b =
      if x0.toNat ≤ a ∧ a ≤ x1.toNat ∧ y0.toNat ≤ b ∧ b ≤ y1.toNat then some x else p.pixel a b := by
  have hw' := hw
  simp only [outOfBounds, Bool.or_eq_false_iff, decide_eq_false_iff_not] at hw'
  have hx : x0.toNat ≤ x1.toNat := by omega
  have hy : y0.toNat ≤ y1.toNat := by omega
  rw [List.foldl_append, take_windowEvents p hd hw]
  have hP := take_streamEvents (g := g) (n := 0) (p0 := p) h hf hx hy x1.isLt
    ((x1.toNat - x0.toNat + 1) * (y1.toNat - y0.toNat + 1))
    (p := { p with
        winc := some (x0.toNat, x1.toNat), winr := some (y0.toNat, y1.toNat), cx := x0.toNat, cy := y0.toNat
        count := 0, mode := .ramWrite, pbuf := [], bbuf := [] })
    ⟨by simp [Panel.win], rfl, rfl, rfl, fun _ => by simp, fun _ _ _ => by simp [Panel.pixel]⟩ (by omega)
  rw [hP.pixels a b ha, Nat.zero_add]
  by_cases hin : x0.toNat ≤ a ∧ a ≤ x1.toNat ∧ y0.toNat ≤ b
  · have hiff : (b - y0.toNat) * (x1.toNat - x0.toNat + 1) + (a - x0.toNat) <
        (x1.toNat - x0.toNat + 1) * (y1.toNat - y0.toNat + 1) ↔ b ≤ y1.toNat := by
      constructor
      · intro hl
        by_contra hb
        have h1 : (y1.toNat - y0.toNat + 1) ≤ b - y0.toNat := by omega
        have h2 := Nat.mul_le_mul_right (x1.toNat - x0.toNat + 1) h1
        rw [Nat.mul_comm] at h2
        omega
      · intro hb
        have h1 : b - y0.toNat + 1 ≤ y1.toNat - y0.toNat + 1 := by omega
        have h2 := Nat.mul_le_mul_right (x1.toNat - x0.toNat + 1) h1
        rw [Nat.mul_comm (y1.toNat - y0.toNat + 1), Nat.add_mul, Nat.one_mul] at h2
        omega
    simp only [hiff]
  · rw [if_neg (fun h => hin ⟨h.1, h.2.1, h.2.2.1⟩), if_neg (fun h => hin ⟨h.1, h.2.1, h.2.2.1⟩)]

/-! ## Bus cycles as instructions -/

/-- Where nothing is queued and the phase is known, a word written and drained is one complete cycle, in either kind. -/
theorem writeThenDrain {p : Phase} (w : BusWord) {s : State} (hp : s.pending = []) (h : s.phase? = some p) :
    ∃ t, (writeWord w s).andThen drain = .ok t ∧ t = { busCycle p w s with fifo := t.fifo, osr := t.osr } ∧ t.pending = [] := by
  unfold writeWord
  cases hk : s.cfg.engineKind with
  | direct =>
    have hr : ∀ n, runEngine n (busCycle p w s) = .ok (busCycle p w s) := by
      intro n
      induction n with
      | zero => rfl
      | succ n ih => simp [runEngine, engineStep, State.enginePhase, hk, ih]
    refine ⟨busCycle p w s, by simp only [strobeWord, h, andThen_ok]; exact hr _, rfl, by simp [State.pending, hk]⟩
  | fifo =>
    have hf : s.fifo = [] := by simp only [State.pending, hk, List.append_eq_nil_iff] at hp; exact hp.2
    have ho : s.osr = none := by
      simp only [State.pending, hk, List.append_eq_nil_iff] at hp
      cases hos : s.osr with
      | none => rfl
      | some v => rw [hos] at hp; simp at hp
    have hidle : s.engineEnabled = false := by simp [State.engineEnabled, (idle_iff s).2 hp]
    have hfull : s.txFull = false := by simp [State.txFull, hk, hf, Params.fifoDepth]
    have hph : State.phase? { s with fifo := [], osr := some w } = some p := h
    refine ⟨{ busCycle p w { s with fifo := [], osr := some w } with osr := none }, ?_, ?_, by simp [State.pending, hk]⟩
    · simp [engineTurns, hidle, holdWhileFull, hfull, drain, runEngine, engineStep, State.enginePhase, hk, hf, ho, pull,
        emitWord, strobeWord, hph]
    · simp [busCycle, State.emit]

/-- A bus cycle on its own: what is queued goes out first, then the phase is selected, and then the cycle is complete. -/
theorem cycleInstruction_ok (p : Phase) (w : BusWord) {s : State} (hk : s.phaseKnown) (h : s.pinAnswer 0 = false) :
    ∃ t, cycleInstruction p w s = .next t ∧ BusAndResult s t ∧ t.result = some (.ok .unit) ∧ t.pending = [] ∧
      t.dc = (phaseLevel p).pin ∧ t.strobe = .released ∧ t.dataOut = w ∧
      t.trace = s.settledTrace ++ [.sel p, .cyc p w] ∧
      t.panel = s.settledPanel.take s.cfg s.geom s.icfg (.cyc p w) := by
  obtain ⟨a, ha, hBa, -, hpa, hph, htr, hpn, -⟩ := selectPhase_ok p hk (fun k hk' => by rwa [Nat.lt_one_iff.1 hk'])
  obtain ⟨b, hb, hBb, hpb⟩ := writeThenDrain w hpa hph
  have hBO : BusOnly a b := by rw [hBb]; simp [BusOnly, busCycle, State.emit]
  refine ⟨{ b with result := some (.ok .unit) }, ?_, (hBa.trans hBO).withResult _, rfl, hpb, ?_, ?_, ?_, ?_, ?_⟩
  · simp [cycleInstruction, ha, hb]
  · rw [show State.dc { b with result := some (.ok .unit) } = b.dc from rfl, hBb]; exact dc_of_phase? hph
  · rw [show State.strobe { b with result := some (.ok .unit) } = b.strobe from rfl, hBb]; rfl
  · rw [show State.dataOut { b with result := some (.ok .unit) } = b.dataOut from rfl, hBb]; rfl
  · rw [show State.trace { b with result := some (.ok .unit) } = b.trace from rfl, hBb]; simp [htr]
  · rw [show State.panel { b with result := some (.ok .unit) } = b.panel from rfl, hBb]
    simp [hpn, hBa.cfg, hBa.geom, hBa.icfg]

/-- A bus cycle whose SELECT fails: no cycle is brought about (R138). -/
theorem cycleInstruction_fails (p : Phase) (w : BusWord) {s : State} (hk : s.phaseKnown) (h : s.pinAnswer 0 = true) :
    ∃ t, cycleInstruction p w s = .next t ∧ BusAndResult s t ∧ t.result = some (.err (.busFault .dc)) ∧ t.pending = [] ∧
      t.dc = .unset ∧ t.trace = s.settledTrace ++ [.pinFault .dc] ∧ t.panel = s.settledPanel := by
  obtain ⟨d, hd, hE, -, hp, htr, hpa⟩ := drain_spec hk
  have ha : d.pinAnswer 0 = true := by rw [← h]; simp [State.pinAnswer, hE.env]
  refine ⟨_, by simp only [cycleInstruction, selectPhase, hd, andThen_ok, setPin_fails _ _ _ ha]; rfl, ?_, rfl, ?_, rfl, ?_, ?_⟩
  · exact (hE.bus.trans (by simp [BusOnly, State.emit, State.withPin, State.pinDrawn] :
      BusOnly d ((d.pinDrawn.withPin .dc .unset).emit (.pinFault .dc)))).withResult _
  · simpa [State.pending] using hp
  · simp [htr]
  · simp [hpa, Panel.take]

end Sys2Proof.Machine
end

