-- ==== Sys2Proof/Tests/Slice0.lean ====
section
/-! SUPPORT. The model's own tests, by `decide`: ill-formed instructions the check refuses, lines written out from the spec's encodings,
the vectors of spec/95_test_vectors.md as single steps, and, for every statement with hypotheses, a concrete state and operands
that meet them. Every expected result is the spec's. -/

namespace Sys2Proof.Machine.Tests

/-! ## Small states -/

/-- The default configuration of spec/95_test_vectors.md section 0, with numbers for the delays. -/
def params : Params :=
  { bus := .fifo8, fifoDepthLess1 := 3, clipPolicy := .skip, opcodes := Opcodes.default
    colmodOf := ColmodTable.default, madctlOf := MadctlTable.default, extraInit := [], tRstLowUs := 10, tRstSettleUs := 20
    tSlpoutUs := 30, tDisponUs := 40, sysClkHz := ⟨124999999, 0⟩, cyclesPerWord := 2 }

/-- The environment's answers: the given pin answers, no failed install, no engine step before a push. -/
def answers (pins : List Bool) : Env := ⟨⟨pins, 0⟩, ⟨[false], 0⟩, ⟨List.replicate 40 0, 0⟩, ⟨[], 0⟩, ⟨[0], 0⟩⟩

/-- No pin drive fails. -/
def calm : Env := answers (List.replicate 30 false)

/-- A transport on the 8-bit bus, FIFO kind, DC Unset. -/
def transport : State :=
  { State.reset with
    cfg := params, taken := true, owner := .transport, tcfg := some ⟨8, 0, 8, 9, ⟨0, 0⟩, .fifo, 4⟩, env := calm }

/-- A transport on the 16-bit bus, Direct kind. -/
def direct : State :=
  { transport with
    cfg := { params with bus := .direct16 }
    tcfg := some ⟨16, 0, 16, 17, ⟨0, 0⟩, .direct, 0⟩ }

/-- A driver over the transport, Uninitialized. -/
def driver : State := { transport with owner := .driver, rstPin := some 10, blPin := some 11 }

/-- READY, with TRACE emptied so that a test shows the events of its own step. -/
def ready : State := { driver with ctrl := .ready, dc := .low, rst := .high }

/-- READY on the 16-bit bus, Direct kind. -/
def ready16 : State := { ready with cfg := direct.cfg, tcfg := direct.tcfg }

/-- A state with a panel of so many columns and rows. -/
def sized (s : State) (width height : Nat) : State := { s with geom := ⟨width, height, .r0⟩ }

/-- The events and the result of a step that answers a next state, once ENGINE is idle. -/
def shown (o : Host.Outcome State Fault Refusal) : Option (List Event × Option Result) :=
  match o with
  | .next t => some (t.settledTrace, t.result)
  | .fault _ => none
  | .refused _ => none

/-- The next state, if there is one. -/
def after (o : Host.Outcome State Fault Refusal) : Option State :=
  match o with
  | .next t => some t
  | .fault _ => none
  | .refused _ => none

/-- The name of the stop, if there is one. -/
def stopped (o : Host.Outcome State Fault Refusal) : String :=
  match o with
  | .next _ => "next"
  | .fault (.phaseUnset _) => "PhaseUnset"
  | .refused (.wordTooWide _) => "WordTooWide"
  | .refused (.sampleTooWide _) => "SampleTooWide"
  | .refused (.infiniteSequence _) => "InfiniteSequence"
  | .refused (.noTransport _) => "NoTransport"
  | .refused (.rawAfterDriver _) => "RawAfterDriver"
  | .refused (.noDriver _) => "NoDriver"
  | .refused (.noBacklightPin _) => "NoBacklightPin"
  | .refused (.noHandle _) => "NoHandle"
  | .refused (.noResetPin _) => "NoResetPin"
  | .refused (.notCallable _) => "NotCallable"
  | .refused _ => "other"

/-- Ok with no value. -/
abbrev done : Option Result := some (.ok .unit)

/-! ## WellFormed: each check refuses an ill-formed term -/

theorem test_wf_busCmd_named : (Instr.busCmd 0x2A).wellFormed params .pf16 = false := by decide
theorem test_wf_busCmd_wide : (Instr.busCmd 0x100).wellFormed params .pf16 = false := by decide
theorem test_wf_busData_wide : (Instr.busData 0x100).wellFormed params .pf16 = false := by decide
theorem test_wf_write_wide : (Instr.write 0x100).wellFormed params .pf16 = false := by decide
theorem test_wf_burst_wide : (Instr.burst [1, 0x100]).wellFormed params .pf16 = false := by decide
theorem test_wf_stream_wide : (Instr.stream [0x10000]).wellFormed params .pf16 = false := by decide
theorem test_wf_fill_wide : (Instr.fill 0 0 1 1 (.native 0x10000)).wellFormed params .pf16 = false := by decide
theorem test_wf_clear_wide : (Instr.clear (.native 0x40000)).wellFormed params .pf18 = false := by decide
theorem test_wf_draw_wide : (Instr.draw [⟨0, 0, .native 0x1000000⟩]).wellFormed params .pf24 = false := by decide

/-! ## Decoding: words and lines written out from spec/opcode_table.json and R93 -/

/-- The nine bus rows: bit 16 is the phase, bits 15 to 0 the word (R71). -/
theorem test_decode_named :
    [0x00011, 0x0003A, 0x00036, 0x0002A, 0x0002B, 0x0002C, 0x00029].map (decodeTableWord 24) =
      [some .slpout, some .colmod, some .madctl, some .caset, some .raset, some .ramwr, some .dispon] := by decide
theorem test_decode_cycles :
    decodeTableWord 24 0x000E0 = some (.busCmd 0xE0) ∧ decodeTableWord 24 0x01111 = some (.busCmd 0x1111) ∧
      decodeTableWord 24 0x1002A = some (.busData 0x2A) ∧ decodeTableWord 24 0x1F800 = some (.busData 0xF800) := by decide
/-- Bits 23 to 17 are no part of a cycle word. -/
theorem test_decode_reserved : decodeTableWord 24 0x2002A = none := by decide

/-- A line under the default opcodes. -/
def line (s : String) : Except DecodeError Instr := decode Opcodes.default (ascii s)

theorem test_decode_take : line "TAKE" = .ok .take := by decide
theorem test_decode_transport : line "NEW_TRANSPORT 8, 0, 8, 9, 1" = .ok (.transportNew 8 0 8 9 ⟨0, 0⟩) := by decide
/-- The divisor is positive (R7). -/
theorem test_decode_divisor :
    line "NEW_TRANSPORT 8, 0, 8, 9, 5/2" = .ok (.transportNew 8 0 8 9 ⟨4, 1⟩) ∧
      line "NEW_TRANSPORT 8, 0, 8, 9, 0" = .error .badDivisor ∧ line "NEW_TRANSPORT 8, 0, 8, 9, 1/0" = .error .badDivisor := by
  decide
theorem test_decode_select :
    line "SELECT CMD" = .ok (.select .command) ∧ line "SELECT DATA" = .ok (.select .data) := by decide
theorem test_decode_write : line "WRITE 0x2C" = .ok (.write 0x2C) := by decide
theorem test_decode_burst : line "BURST 0xF8, 0x00, 0x07" = .ok (.burst [0xF8, 0, 7]) := by decide
theorem test_decode_driver :
    line "NEW_DRIVER rst=10, bl=none, 480, 320, 90, false, BGR, PF18" =
      .ok (.driverNew (some 10) none 480 320 .r90 false .bgr .pf18) := by decide
theorem test_decode_init : line "INIT  ; fails: BusFault(DC)" = .ok .init := by decide
theorem test_decode_backlight : line "BACKLIGHT OFF" = .ok (.backlight false) := by decide
theorem test_decode_window : line "SET_WINDOW 300, 256, 479, 319" = .ok (.setWindow 300 256 479 319) := by decide
theorem test_decode_stream : line "STREAM 0x1234 * 2, 7" = .ok (.stream [0x1234, 0x1234, 7]) := by decide
theorem test_decode_fill :
    line "FILL 0, 0, 1, 1, native(0xF800)" = .ok (.fill 0 0 1 1 (.native 0xF800)) := by decide
theorem test_decode_clear : line "CLEAR rgb(255, 0, 0)" = .ok (.clear (.rgb888 255 0 0)) := by decide
theorem test_decode_draw :
    line "DRAW (-1, 5, rgb(0,255,0)), (3, 4, native(31))" =
      .ok (.draw [⟨-1, 5, .rgb888 0 255 0⟩, ⟨3, 4, .native 31⟩]) := by decide
theorem test_decode_bbox : line "BBOX" = .ok .bbox := by decide
theorem test_decode_cmd : line "CMD 0xE0, 1, 2" = .ok (.cmd 0xE0 [1, 2]) := by decide
theorem test_decode_internal :
    line "(internal) DELAY 5" = .ok (.delay 5) ∧ line "(internal) RESET_PULSE" = .ok .resetPulse ∧
      line "(engine step) ENGINE_PULL" = .ok .enginePull ∧ line "(engine step) ENGINE_EMIT" = .ok .engineEmit := by decide
theorem test_decode_rejects :
    line "" = .error .noOperation ∧ line "JUMP 4" = .error .unknownWord ∧ line "SELECT 3" = .error .badOperands ∧
      line "SET_WINDOW 0, 0, 65536, 0" = .error .coordTooWide ∧ line "CLEAR rgb(256, 0, 0)" = .error .byteTooWide ∧
      line "STREAM 1, ..." = .error .infiniteSequence ∧
      line "DRAW ..." = .error .infiniteSequence ∧ line "STREAM 1, ." = .error .badOperands ∧
      line "STREAM ...5" = .error .badOperands ∧ line "STREAM ..., 1" = .error .badOperands ∧ line "WRITE 0x" = .error .badNumber := by decide

/-! ## The Parallel Bus Engine (vectors T1 to T18) -/

theorem test_take : (shown (exec .take State.reset)).map Prod.snd = some (some (.ok (.handle true))) := by decide
theorem test_take_twice : (shown (exec .take transport)).map Prod.snd = some (some (.ok (.handle false))) := by decide
/-- T2. -/
theorem test_transportNew_width :
    (after (exec (.transportNew 16 0 8 9 ⟨0, 0⟩) { transport with owner := .none, tcfg := none, handle := true })).map
      (fun t => (t.owner, t.handle, t.trace, t.result)) =
    some (.none, false, [], some (.err (.configuration .widthMismatch))) := by decide
/-- R98; the panel, which had read a cycle before, has read nothing (notes/assumptions/3.md). -/
theorem test_transportNew_builds :
    (after (exec (.transportNew 8 0 8 9 ⟨0, 0⟩)
      { transport with owner := .none, tcfg := none, handle := true, dc := .high, panel := { Panel.initial with awake := true } })).map
      (fun t => (t.owner, t.handle, t.dc, t.tcfg, [t.txFull, t.txEmpty, t.idle, t.panel.awake])) =
    some (.transport, false, .unset, some ⟨8, 0, 8, 9, ⟨0, 0⟩, .fifo, 4⟩, [false, true, true, false]) := by decide
/-- T4: what was pushed goes out before the second selection. -/
theorem test_select_drains :
    shown (exec (.select .data) { transport with dc := .low, fifo := [0x2A] }) =
      some ([.cyc .command 0x2A, .sel .data], done) := by decide
/-- T5. -/
theorem test_select_pinFault :
    (after (exec (.select .data) { transport with dc := .low, env := answers [true] })).map
      (fun t => (t.trace, t.dc, t.result)) =
    some ([.pinFault .dc], .unset, some (.err (.busFault .dc))) := by decide
/-- T6: the push happens, though DC is Unset. -/
theorem test_write_unset :
    (after (exec (.write 1) transport)).map (fun t => (t.fifo, t.result)) = some ([1], done) := by decide
/-- T15. -/
theorem test_write_holds :
    (after (exec (.write 3) { transport with
      cfg := { params with fifoDepthLess1 := 1 }, fifo := [1, 2], osr := some 0, dc := .high })).map
      (fun t => (t.fifo, t.osr, t.trace)) = some ([2, 3], some 1, [.cyc .data 0]) := by decide
/-- T7, T8, T12, T18. -/
theorem test_write_stops :
    stopped (exec (.write 0x1234) direct) = "PhaseUnset" ∧ stopped (exec (.write 0x100) transport) = "WordTooWide" ∧
      stopped (exec (.burst [1, 0x100]) transport) = "WordTooWide" ∧
      stopped (exec (.write 0) driver) = "RawAfterDriver" := by decide
/-- T16: the cycle is complete when WRITE returns. -/
theorem test_write_direct :
    (after (exec (.write 0xF800) { direct with dc := .high })).map (fun t => (t.trace, t.idle)) =
      some ([.cyc .data 0xF800], true) := by decide
/-- T13: FIFO_DEPTH = 1. -/
theorem test_burst_order :
    (after (exec (.burst [1, 2, 3]) { transport with cfg := { params with fifoDepthLess1 := 0 }, dc := .high })).map
      (fun t => (t.settledTrace, decide (t.fifo.length ≤ 1))) =
    some ([.cyc .data 1, .cyc .data 2, .cyc .data 3], true) := by decide
/-- T14. -/
theorem test_enginePull :
    (after (exec .enginePull { transport with
      cfg := { params with fifoDepthLess1 := 0 }, fifo := [5], dc := .high })).map
      (fun t => (t.txFull, t.txEmpty, t.idle, t.osr)) = some (false, true, false, some 5) := by decide
theorem test_engineEmit :
    (after (exec .engineEmit { transport with
      cfg := { params with fifoDepthLess1 := 0 }, osr := some 5, dc := .high })).map
      (fun t => (t.txFull, t.txEmpty, t.idle, t.trace)) = some (false, true, true, [.cyc .data 5]) := by decide
/-- T6: no cycle without a phase. -/
theorem test_engineEmit_unset : stopped (exec .engineEmit { transport with osr := some 1 }) = "PhaseUnset" := by decide

/-! ## Construction and initialization (vectors I1 to I21) -/

/-- I1, I3: geometry is checked first. -/
theorem test_driverNew_geometry :
    (shown (exec (.driverNew none none 0 320 .r0 false .rgb .pf24) direct)).map Prod.snd =
      some (some (.err (.configuration .badGeometry))) := by decide
/-- I2. -/
theorem test_driverNew_format :
    (after (exec (.driverNew none none 480 320 .r0 false .rgb .pf18) direct)).map (fun t => (t.owner, t.result)) =
      some (.none, some (.err (.configuration .unsupportedFormat))) := by decide
/-- R7, D27: the pixel read under the stand-in format is read again under the format of the driver (a 16-bit sample is no whole
sample of 18 bits). -/
theorem test_driverNew_readsTrace :
    (after (exec (.driverNew none none 480 320 .r0 false .rgb .pf18) { transport with
      trace := [.sel .command, .cyc .command 0x2C, .sel .data, .cyc .data 1, .cyc .data 2] })).map
      (fun t => (t.owner, t.ctrl, t.panel.mode, t.panel.bbuf)) =
    some (.driver, .uninitialized, .ramWrite, [1, 2]) := by decide
/-- INIT_TRACE (I5). -/
theorem test_init :
    (after (exec .init driver)).map (fun t => (t.trace, t.ctrl, t.dc, t.rst, t.result)) =
      some ([.rst .low, .delay 10, .rst .high, .delay 20, .sel .command, .cyc .command 0x11, .delay 30,
        .sel .command, .cyc .command 0x3A, .sel .data, .cyc .data 0x55, .sel .command, .cyc .command 0x36,
        .sel .data, .cyc .data 0x00, .sel .command, .cyc .command 0x29, .delay 40], .ready, .low, .high, done) := by decide
/-- I12, and I10's missing reset pin. -/
theorem test_init_faults :
    (after (exec .init { driver with env := answers [false, true] })).map (fun t => (t.trace, t.ctrl, t.rst, t.result)) =
      some ([.rst .low, .delay 10, .pinFault .rst], .faulted, .unset, some (.err (.busFault .rst))) ∧
    (shown (exec .init { driver with rstPin := none })).map (fun r => r.1.take 3) =
      some [.delay 20, .sel .command, .cyc .command 0x11] := by decide
/-- I7, I8. -/
theorem test_parameterBytes :
    colmodByte ColmodTable.default .pf18 = 0x66 ∧ madctlByte MadctlTable.default .r90 false .bgr = 0x68 ∧
      madctlByte MadctlTable.default .r270 true .bgr = 0xE8 ∧ madctlByte MadctlTable.default .r180 true .rgb = 0x80 := by
  decide
/-- I16, with a word still queued, which stays queued. -/
theorem test_backlight :
    (after (exec (.backlight true) { ready with fifo := [1] })).map (fun t => (t.trace, t.bl, t.fifo)) =
      some ([.bl .high], .high, [1]) := by decide
/-- I17, I18, I19. -/
theorem test_backlight_stops :
    stopped (exec (.backlight true) { ready with blPin := none }) = "NoBacklightPin" ∧
      stopped (exec (.backlight true) transport) = "NoDriver" ∧
      (after (exec (.backlight true) { ready with env := answers [true] })).map (fun t => (t.trace, t.bl, t.ctrl)) =
        some ([.pinFault .bl], .unset, .ready) := by decide
/-- R111, I13. -/
theorem test_cmd :
    shown (exec (.cmd 0xE0 [1, 2]) transport) =
      some ([.sel .command, .cyc .command 0xE0, .sel .data, .cyc .data 1, .cyc .data 2], done) := by decide
/-- I20, I21. -/
theorem test_delay :
    shown (exec (.delay 40) { transport with fifo := [0x29], dc := .low }) = some ([.cyc .command 0x29, .delay 40], done) ∧
      shown (exec (.delay 0) { transport with fifo := [0x29], dc := .low }) = some ([.cyc .command 0x29], done) := by decide
/-- R113, R66. -/
theorem test_resetPulse :
    (after (exec .resetPulse { ready with panel := { Panel.initial with awake := true, frame := [(0, 1)] } })).map
      (fun t => (t.trace, t.panel.awake, t.panel.frame)) =
    some ([.rst .low, .delay 10, .rst .high, .delay 20], false, []) := by decide

/-! ## Conversion and serialisation (vectors V1 to V13) -/

/-- V7, V9, V10. -/
theorem test_convert :
    convert .pf16 (.rgb888 0x12 0x34 0x56) = 0x11AA ∧ convert .pf18 (.rgb888 0x12 0x34 0x56) = 0x04355 ∧
      convert .pf24 (.rgb888 0x12 0x34 0x56) = 0x123456 := by decide
theorem test_serialize :
    serialize .w8 .pf16 0x11AA = [0x11, 0xAA] ∧ serialize .w16 .pf16 0x11AA = [0x11AA] ∧
      serialize .w8 .pf18 0x04355 = [0x10, 0x34, 0x54] ∧ serialize .w8 .pf24 0x123456 = [0x12, 0x34, 0x56] := by decide

/-! ## Addressing and streaming (vectors W1 to PX5) -/

/-- W1. -/
theorem test_setWindow :
    shown (exec (.setWindow 300 256 479 319) ready) =
      some ([.sel .command, .cyc .command 0x2A, .sel .data, .cyc .data 0x01, .cyc .data 0x2C, .cyc .data 0x01,
        .cyc .data 0xDF, .sel .command, .cyc .command 0x2B, .sel .data, .cyc .data 0x01, .cyc .data 0x00, .cyc .data 0x01,
        .cyc .data 0x3F, .sel .command, .cyc .command 0x2C], done) := by decide
/-- W4, W5. -/
theorem test_setWindow_errors :
    shown (exec (.setWindow 0 0 480 319) ready) = some ([], some (.err (.outOfBoundsWindow 0 0 480 319))) ∧
      shown (exec (.setWindow 0 0 480 0) driver) = some ([], some (.err .notInitialized)) := by decide
/-- W6. -/
theorem test_setWindow_busFault :
    (after (exec (.setWindow 0 0 9 9) { ready with env := answers [false, false, true] })).map
      (fun t => (t.trace, t.dc, t.ctrl, t.result)) =
    some ([.sel .command, .cyc .command 0x2A, .sel .data, .cyc .data 0x00, .cyc .data 0x00, .cyc .data 0x00,
      .cyc .data 0x09, .pinFault .dc], .unset, .ready, some (.err (.busFault .dc))) := by decide
/-- S2. -/
theorem test_stream :
    shown (exec (.stream [0x07E0]) ready) = some ([.sel .data, .cyc .data 0x07, .cyc .data 0xE0], done) := by decide
/-- V12, S1. -/
theorem test_stream_stops :
    stopped (exec (.stream [0x10000]) ready) = "SampleTooWide" ∧ shown (exec (.stream []) ready) = some ([.sel .data], done) := by
  decide
/-- L1-1's opcode and data, on a panel of one column and two rows. -/
theorem test_fill :
    shown (exec (.fill 0 0 0 1 (.native 0xF800)) ready16) =
      some ([.sel .command, .cyc .command 0x2A, .sel .data, .cyc .data 0, .cyc .data 0, .cyc .data 0, .cyc .data 0,
        .sel .command, .cyc .command 0x2B, .sel .data, .cyc .data 0, .cyc .data 0, .cyc .data 0, .cyc .data 1,
        .sel .command, .cyc .command 0x2C, .sel .data, .cyc .data 0xF800, .cyc .data 0xF800], done) := by decide
/-- F2. -/
theorem test_fill_illegal :
    shown (exec (.fill 5 5 4 5 (.rgb888 1 2 3)) ready) = some ([], some (.err (.outOfBoundsWindow 5 5 4 5))) := by decide
/-- P2's CLEAR: the four pixels. -/
theorem test_clear :
    (after (exec (.clear (.rgb888 255 0 0)) (sized ready 2 2))).map
      (fun t => [t.settledPanel.pixel 0 0, t.settledPanel.pixel 1 0, t.settledPanel.pixel 0 1, t.settledPanel.pixel 1 1,
        t.settledPanel.pixel 2 0]) =
    some [some 0xF800, some 0xF800, some 0xF800, some 0xF800, none] := by decide
/-- PX1. -/
theorem test_draw_skip :
    (after (exec (.draw [⟨-1, 5, .rgb888 0 255 0⟩, ⟨3, 4, .rgb888 0 255 0⟩, ⟨3, 4, .rgb888 0 0 255⟩]) ready16)).map
      (fun t => (t.result, t.settledPanel.pixel 3 4, (t.trace.drop 16).take 2)) =
    some (done, some 0x001F, [.sel .data, .cyc .data 0x07E0]) := by decide
/-- PX2. -/
theorem test_draw_error :
    shown (exec (.draw [⟨-1, 5, .rgb888 0 255 0⟩]) { ready16 with cfg := { ready16.cfg with clipPolicy := .error } }) =
      some ([], some (.err (.outOfBoundsPoint (-1) 5))) := by decide
/-- B1. -/
theorem test_bbox : shown (exec .bbox driver) = some ([], some (.ok (.rect 0 0 480 320))) := by decide

/-! ## The panel (R59 to R67) -/

/-- R59, with the word queued before it (P1's end: DISP_ON, MODE = Other, the partial sample discarded). -/
theorem test_dispon :
    (after (exec .dispon { transport with
      fifo := [7], dc := .high, panel := { Panel.initial with mode := .ramWrite } })).map
      (fun t => (t.trace, t.panel.dispOn, t.panel.mode, t.panel.bbuf)) =
    some ([.cyc .data 7, .sel .command, .cyc .command 0x29], true, .other, []) := by decide
/-- A row on its own whose selection fails brings no cycle about (R138). -/
theorem test_dispon_fails :
    (after (exec .dispon { transport with env := answers [true] })).map (fun t => (t.trace, t.dc, t.result)) =
      some ([.pinFault .dc], .unset, some (.err (.busFault .dc))) := by decide
theorem test_slpout : (after (exec .slpout ready)).map (fun t => (t.panel.awake, t.dc)) = some (true, .low) := by decide
theorem test_modes :
    [Instr.colmod, .madctl, .caset, .raset, .ramwr, .busCmd 0xE0].map
      (fun i => (after (exec i ready)).map (fun t => t.panel.mode)) =
    [some .colmod, some .madctl, some (.caset 0), some (.raset 0), some .ramWrite, some .other] := by decide
/-- R60: a range that leaves the geometry makes the frame unknown. -/
theorem test_caset_illegal :
    (after (exec (.busData 0xE0) { ready with
      panel := { Panel.initial with frame := [(0, 1)], mode := .caset 3, pbuf := [0, 0, 1] } })).map
      (fun t => (t.panel.winc, t.panel.frame)) = some (none, []) := by decide
/-- S4: the second sample overruns a window of one pixel. -/
theorem test_overrun :
    (after (exec (.busData 0x22) { ready with
      panel := { Panel.initial with
        frame := [(0, 0x1111), (1, 5)], winc := some (0, 0), winr := some (0, 0), count := 1, mode := .ramWrite
        bbuf := [0x22] } })).map
      (fun t => (t.panel.frame, t.panel.count)) = some ([(1, 5)], 2) := by decide
/-- S5: the cursor goes on in raster order. -/
theorem test_cursor :
    (after (exec (.busData 0x11) { ready with
      panel := { Panel.initial with
        winc := some (0, 1), winr := some (0, 0), mode := .ramWrite, bbuf := [0x11] } })).map
      (fun t => (t.panel.pixel 0 0, t.panel.cx, t.panel.cy)) = some (some 0x1111, 1, 0) := by decide
/-- R65: data in no mode that takes it. -/
theorem test_busData_orphan :
    (after (exec (.busData 3) { ready with panel := { Panel.initial with frame := [(0, 1)] } })).map
      (fun t => t.panel.frame) = some [] := by decide
/-- R78's width on the bus. -/
theorem test_busData_wide : stopped (exec (.busData 0x100) ready) = "WordTooWide" := by decide

/-! ## The step -/

/-- A table word placed for the next step runs as the first instruction after reset. -/
theorem test_step_fetches :
    (after (step (State.reset.withFetchWord 24 0x0002C))).map (fun t => (t.trace, t.panel.mode, t.idx)) =
      some ([.sel .command, .cyc .command 0x2C], .ramWrite, 0) := by decide
theorem test_step_host :
    (after (step { transport with prog := [ascii "SELECT CMD"] })).map (fun t => (t.trace, t.idx)) =
      some ([.sel .command], 1) := by decide
/-- After HOST's last operation ENGINE alone moves. -/
theorem test_step_engine : (after (step { transport with fifo := [7] })).map (fun t => t.osr) = some (some 7) := by decide
/-- R74, R94: what HOST cannot call. -/
theorem test_step_notCallable :
    ["(internal) DELAY 5", "(internal) RESET_PULSE", "(engine step) ENGINE_PULL", "(engine step) ENGINE_EMIT"].map 
      (fun l => stopped (step { ready with prog := [ascii l] })) =
      ["NotCallable", "NotCallable", "NotCallable", "NotCallable"] ∧
    stopped (step { transport with prog := [cycleLine 0x0002A] }) = "NotCallable" ∧
    stopped (step { ready with prog := [ascii "CMD 0x28"] }) = "RawAfterDriver" ∧
    stopped (step { transport with prog := [ascii "CMD 0x28"] }) = "next" := by decide
/-- A placed line is taken whatever may call it, and HOST's own line stands as it was. -/
theorem test_step_probe :
    (after (step { ready with prog := [ascii "BBOX"], probe := some (ascii "(internal) DELAY 5") })).map
      (fun t => (t.trace, t.idx, t.probe)) =
      some ([.delay 5], 0, none) := by decide
theorem test_step_infinite :
    stopped (step { ready with prog := [ascii "STREAM 1, ..."] }) = "InfiniteSequence" := by decide

/-! ## Witnesses: for every statement with hypotheses, a state and operands that meet them, each clause at a boundary -/

/-- A state that meets the invariant, with a word queued and one in flight. -/
def busy : State := { ready with fifo := [0xFF], osr := some 0, trace := [.sel .command] }

theorem busy_inv : busy.Inv := by
  refine ⟨by decide, by decide, ?_, ?_, by decide, rfl, .inr (.inl rfl), by decide, by decide, by decide, ?_, by decide,
    by decide, by decide, by decide, by decide, by decide⟩
  · intro w hw; cases List.mem_singleton.mp hw; decide
  · intro w hw; cases hw; decide
  · intro c hc; cases hc; decide

theorem witness_DecodeInvertsEncode :
    params.opcodes.distinct ∧ (Instr.busCmd 0xFF).wellFormed params .pf16 = true ∧
      (Instr.transportNew 8 0 8 9 ⟨2, 1⟩).wellFormed params .pf16 = true ∧
      (Instr.stream [0xFFFF, 0]).wellFormed params .pf16 = true ∧
      (Instr.draw [⟨-1, 5, .native 0xFFFF⟩]).wellFormed params .pf16 = true := by decide

theorem witness_StepRunsDecodedInstruction :
    (let s := { ready with prog := [ascii "BBOX"] }
     s.faultedModel = false ∧ s.refused = false ∧ s.probe = none ∧ s.prog[s.idx]? = some (ascii "BBOX") ∧
      decode s.cfg.opcodes (ascii "BBOX") = .ok .bbox ∧ hostMayCall .bbox = true ∧ s.pending = [] ∧
      (nextAgent s).1 = some .host) ∧
    (let s := { busy with prog := [ascii "BBOX"], env := { calm with schedule := ⟨[false], 0⟩ } }
     s.prog[s.idx]? = some (ascii "BBOX") ∧ s.pending ≠ [] ∧ s.env.schedule.coming.head? = some false) ∧
    (let s := { transport with prog := [ascii "CMD 0xE0"] }
     decode s.cfg.opcodes (ascii "CMD 0xE0") = .ok (.cmd 0xE0 []) ∧ s.owner ≠ .driver ∧ s.pending = []) ∧
    (let s := { busy with probe := some (ascii "(internal) DELAY 5") }
     s.faultedModel = false ∧ s.refused = false ∧ decode s.cfg.opcodes (ascii "(internal) DELAY 5") = .ok (.delay 5)) := by decide

theorem witness_StepRunsEngineInstruction :
    (let s := { busy with prog := [ascii "BBOX"], env := { calm with schedule := ⟨[true], 0⟩ } }
     s.faultedModel = false ∧ s.refused = false ∧ s.probe = none ∧ (nextAgent s).1 = some .engine) ∧
    (busy.probe = none ∧ busy.prog.length ≤ busy.idx ∧ busy.pending ≠ [] ∧ busy.osr ≠ none) ∧
    (let s := { ready with fifo := [1] }; s.prog.length ≤ s.idx ∧ s.pending ≠ [] ∧ s.osr = none) := by decide

theorem witness_MarkedStateTakesNoStep :
    (let s := { ready with faultedModel := true }; s.faultedModel = true) ∧
      (let s := { ready with refused := true }; s.faultedModel = false ∧ s.refused = true) := by decide

theorem witness_RunReachesNormalEnd :
    busy.probe = none ∧ busy.prog.length ≤ busy.idx ∧ busy.faultedModel = false ∧ busy.refused = false ∧ busy.phaseKnown ∧
      2 * busy.fifo.length + busy.osr.toList.length = 3 := by decide

theorem witness_StepKeepsInvariant : busy.Inv ∧ ∃ t, step busy = .next t := ⟨busy_inv, _, rfl⟩

theorem witness_StepKeepsConfiguration :
    (∃ t, step busy = .next t) ∧ busy.taken = true ∧ busy.Inv ∧ busy.tcfg = some ⟨8, 0, 8, 9, ⟨0, 0⟩, .fifo, 4⟩ ∧
      busy.owner = .driver :=
  ⟨⟨_, rfl⟩, rfl, busy_inv, rfl, rfl⟩

theorem witness_DriverNeverFaults :
    busy.driven ∧ busy.phaseKnown ∧ busy.faultedModel = false ∧ (after (step busy)).isSome = true ∧
      driver.driven ∧ driver.dc = .unset ∧ driver.phaseKnown := by decide

theorem witness_ControllerTransitions :
    (let s := { driver with prog := [ascii "INIT"] }
     s.driven ∧ (after (step s)).map (fun t => t.ctrl) = some .ready ∧ s.ctrl = .uninitialized) ∧
    (let s := { driver with prog := [ascii "INIT"], ctrl := .faulted }
     s.driven ∧ (after (step s)).map (fun t => t.ctrl) = some .faulted) := by decide

theorem witness_TakeGivesHandleOnce : State.reset.taken = false ∧ transport.taken = true := by decide

/-- After TAKE. -/
def handed : State := { transport with owner := .none, tcfg := none, handle := true }

/-- A transport with a word queued and DC Low. -/
def queued : State := { transport with fifo := [0x2A], dc := .low }

theorem witness_TransportNewOutcomes :
    handed.handle = true ∧ 16 ≠ handed.cfg.busWidth.bits ∧ 8 = handed.cfg.busWidth.bits ∧ handed.installAnswer = false ∧
      State.installAnswer { handed with env := { calm with install := ⟨[true], 0⟩ } } = true := by decide

theorem witness_SelectDrainsThenDrives :
    queued.owner = .transport ∧ queued.phaseKnown ∧ queued.pinAnswer 0 = false ∧
      (let s := { queued with env := answers [true] }
       s.owner = .transport ∧ s.phaseKnown ∧ s.pinAnswer 0 = true) := by decide

theorem witness_WriteAddsOneCycle :
    let s := { queued with fifo := [1, 2, 3, 4] }
    s.owner = .transport ∧ s.cfg.engineKind = .fifo ∧ wordFits s.cfg.busWidth 0xFF = true ∧ s.phase? = some .command ∧
      s.fifo.length ≤ s.cfg.fifoDepth := by decide

theorem witness_WritePushesOrHolds :
    (transport.owner = .transport ∧ transport.cfg.engineKind = .fifo ∧ wordFits transport.cfg.busWidth 0xFF = true ∧
      transport.pending = [] ∧ transport.txFull = false ∧ transport.dc = .unset) ∧
    (let s := { queued with fifo := [1, 2, 3, 4], osr := some 0 }
     s.owner = .transport ∧ s.cfg.engineKind = .fifo ∧ s.pending ≠ [] ∧ s.turnsAnswer = 0 ∧ s.txFull = true ∧
      s.phase? = some .command ∧ s.fifo = 1 :: [2, 3, 4]) := by decide

theorem witness_WriteDirectStrobes :
    direct.owner = .transport ∧ direct.cfg.engineKind = .direct ∧ wordFits direct.cfg.busWidth 0x10000 = false ∧
      wordFits direct.cfg.busWidth 0xFFFF = true ∧ direct.dc = .unset ∧
      State.phase? { direct with dc := .low } = some .command ∧ State.phase? { direct with dc := .high } = some .data := by
  decide

theorem witness_BurstWritesInOrder :
    queued.owner = .transport ∧ (∃ w ∈ [0xFF, 0x100], wordFits queued.cfg.busWidth w = false) ∧
      (∀ w ∈ [0xFF, 0], wordFits queued.cfg.busWidth w = true) ∧ queued.phase? = some .command := by decide

theorem witness_EnginePullTakesHead :
    queued.cfg.engineKind = .fifo ∧ queued.osr = none ∧ queued.fifo = 0x2A :: [] ∧ queued.enginePhase = .readyToPull := by
  decide

theorem witness_EngineEmitStrobesOnce :
    (busy.cfg.engineKind = .fifo ∧ busy.osr = some 0 ∧ busy.phase? = some .command ∧ busy.enginePhase = .busy) ∧
      (let s := { transport with osr := some 1 }; s.cfg.engineKind = .fifo ∧ s.osr = some 1 ∧ s.dc = .unset) := by decide

theorem witness_DisabledEngineStepChangesNothing :
    direct.cfg.engineKind = .direct ∧ busy.osr ≠ none ∧ transport.fifo = [] ∧ transport.osr = none := by decide

/-- A word queued whose phase is not known, over a transport, over a driver, in Ready, and without an owner. -/
theorem witness_DrainOfUnknownPhaseFaults :
    (let s := { transport with fifo := [1] }
     s.pending ≠ [] ∧ s.dc = .unset ∧ s.owner = .transport ∧ wordFits s.cfg.busWidth (0xFF : BusWord).toNat = true) ∧
    (let s := { driver with fifo := [1] }
     s.pending ≠ [] ∧ s.dc = .unset ∧ s.owner = .driver ∧ s.rstPin ≠ none ∧ s.ctrl ≠ .faulted) ∧
    (let s := { driver with osr := some 1, ctrl := .ready }
     s.pending ≠ [] ∧ s.dc = .unset ∧ s.ctrl = .ready ∧ 1 ≤ s.geom.width ∧ s.geom.width ≤ 65535 ∧ 1 ≤ s.geom.height ∧
      s.geom.height ≤ 65535 ∧ (479 : Coord).toNat < s.geom.width ∧ (319 : Coord).toNat < s.geom.height ∧
      [Instr.setWindow 0 0 479 319, .fill 0 0 479 319 (.native 0xFFFF), .stream [0xFFFF], .clear (.native 0xFFFF),
        .draw [⟨480, 0, .native 0xFFFF⟩, ⟨479, 319, .native 0xFFFF⟩]].map (samplesFit s.icfg.pixelFormat) =
          [true, true, true, true, true] ∧
      onPanel s.geom 479 319 = true ∧ onPanel s.geom 480 0 = false ∧ s.cfg.clipPolicy = .skip) ∧
    (let s := { transport with fifo := [1], owner := .none }; s.pending ≠ [] ∧ s.dc = .unset) := by decide

theorem witness_TooWideOperandsRefused :
    wordFits params.busWidth (0x100 : BusWord).toNat = false ∧ wordFits params.busWidth 0x100 = false ∧
      sampleFits ready.icfg.pixelFormat 0x10000 = false := by decide

theorem witness_OwnershipRefusals :
    handed.owner = .none ∧ wordFits handed.cfg.busWidth 0xFF = true ∧ ready.owner = .driver ∧ transport.handle = false ∧
      transport.owner ≠ .driver ∧ drawsPanel (.stream [0xFFFF]) = true ∧
      samplesFit transport.icfg.pixelFormat (.stream [0xFFFF]) = true ∧ State.rstPin { ready with rstPin := none } = none := by
  decide

theorem witness_UndecodableLineRefused :
    (let s := { transport with prog := [ascii "STREAM 1, ..."] }
     s.faultedModel = false ∧ s.refused = false ∧ s.probe = none ∧ s.pending = [] ∧
      s.prog[s.idx]? = some (ascii "STREAM 1, ...") ∧
      decode s.cfg.opcodes (ascii "STREAM 1, ...") = .error .infiniteSequence) ∧
    decode transport.cfg.opcodes (ascii "JUMP 4") = .error .unknownWord ∧
    decode transport.cfg.opcodes (ascii "(internal) DELAY 5") = .ok (.delay 5) ∧
    decode transport.cfg.opcodes (cycleLine 0x1002A) = .ok (.busData 0x2A) ∧
    decode ready.cfg.opcodes (ascii "CMD 1") = .ok (.cmd 1 []) ∧ ready.owner = .driver ∧ ready.pending = [] := by decide

theorem witness_DriverNewOutcomes :
    handed.owner ≠ .transport ∧ transport.owner = .transport ∧ ¬(1 ≤ 65536 ∧ 65536 ≤ 65535) ∧ direct.cfg.busWidth = .w16 ∧
      direct.owner = .transport ∧ (transport.cfg.busWidth = .w16 → PixelFormat.pf24 = .pf16) := by decide

theorem witness_CmdSendsFrame :
    (queued.owner ≠ .none ∧ queued.phaseKnown ∧ queued.pinsHold (if ([1, 2] : List Byte) = [] then 1 else 2) ∧
      queued.pinsHold (if ([] : List Byte) = [] then 1 else 2)) ∧
    (let s := { queued with env := answers [true] }; s.owner ≠ .none ∧ s.phaseKnown ∧ s.pinAnswer 0 = true) ∧
      (let s := { queued with env := answers [false, true] }
       s.owner ≠ .none ∧ s.phaseKnown ∧ s.pinAnswer 0 = false ∧ s.pinAnswer 1 = true) := by decide

theorem witness_DelayDrainsThenRecords : queued.phaseKnown := by decide

theorem witness_ResetPulseDrivesLowThenHigh :
    busy.owner = .driver ∧ busy.rstPin ≠ none ∧ busy.phaseKnown ∧ busy.pinsHold 2 ∧
      State.pinAnswer { busy with env := answers [true] } 0 = true ∧
      (let s := { busy with env := answers [false, true] }; s.pinAnswer 0 = false ∧ s.pinAnswer 1 = true) := by decide

theorem witness_InitRunsSequence :
    (driver.owner = .driver ∧ driver.ctrl ≠ .faulted ∧ driver.phaseKnown ∧ driver.pinsHold (initDrives driver)) ∧
      (let s := { busy with rstPin := none }
       s.owner = .driver ∧ s.ctrl ≠ .faulted ∧ s.phaseKnown ∧ s.pinsHold (initDrives s)) := by decide

/-- A driver with an entry of EXTRA_INIT, another format, rotation, mirror and colour order. -/
def extra : State :=
  { driver with
    cfg := { params with extraInit := [⟨0xF0, [1], 0⟩] }, geom := ⟨480, 320, .r270⟩, icfg := ⟨true, .bgr, .pf18⟩ }

theorem witness_InitTraceOfDefaults :
    (driver.owner = .driver ∧ driver.ctrl ≠ .faulted ∧ driver.phaseKnown ∧ driver.pinsHold (initDrives driver) ∧
      driver.rstPin ≠ none ∧ driver.cfg.opcodes = Opcodes.default ∧ driver.cfg.colmodOf = ColmodTable.default ∧
      driver.cfg.madctlOf = MadctlTable.default ∧ 0 < driver.cfg.tRstLowUs ∧ 0 < driver.cfg.tRstSettleUs ∧
      0 < driver.cfg.tSlpoutUs ∧ 0 < driver.cfg.tDisponUs) ∧
    (extra.owner = .driver ∧ extra.phaseKnown ∧ extra.pinsHold (initDrives extra) ∧ initDrives extra = 10) := by decide

/-- R114, R117: EXTRA_INIT's entry after the reset, and the bytes of the other format, rotation, mirror and colour order. -/
theorem test_init_extra :
    (after (exec .init extra)).map (fun t => t.trace) =
      some [.rst .low, .delay 10, .rst .high, .delay 20, .sel .command, .cyc .command 0xF0, .sel .data, .cyc .data 1,
        .sel .command, .cyc .command 0x11, .delay 30, .sel .command, .cyc .command 0x3A, .sel .data, .cyc .data 0x66,
        .sel .command, .cyc .command 0x36, .sel .data, .cyc .data 0xE8, .sel .command, .cyc .command 0x29, .delay 40] := by
  decide

theorem witness_InitEndsReadyOrFaulted :
    driver.owner = .driver ∧ driver.ctrl ≠ .faulted ∧ driver.phaseKnown ∧ (after (exec .init driver)).isSome = true ∧
      (after (exec .init { driver with env := answers [true] })).map (fun t => t.ctrl) = some .faulted := by decide

theorem witness_BacklightDrivesWithoutDrain :
    transport.owner ≠ .driver ∧ busy.owner = .driver ∧ State.blPin { busy with blPin := none } = none ∧ busy.blPin ≠ none ∧
      busy.pinAnswer 0 = false ∧ State.pinAnswer { busy with env := answers [true] } 0 = true := by decide

theorem witness_NotReadyChangesNothing :
    (driver.owner = .driver ∧ driver.ctrl ≠ .ready ∧ transport.owner ≠ .driver ∧
      drawsPanel (.clear (.native 0xFFFF)) = true ∧
      samplesFit driver.icfg.pixelFormat (.clear (.native 0xFFFF)) = true) ∧
      State.ctrl { driver with ctrl := .faulted } = .faulted := by decide

theorem witness_SetWindowAddresses :
    busy.owner = .driver ∧ busy.ctrl = .ready ∧ busy.phaseKnown ∧ busy.pinsHold 5 ∧
      (479 : Coord).toNat ≤ (479 : Coord).toNat ∧ (479 : Coord).toNat < busy.geom.width ∧
      (0 : Coord).toNat ≤ (319 : Coord).toNat ∧ (319 : Coord).toNat < busy.geom.height := by decide

theorem witness_IllegalWindowChangesNothing :
    ready.owner = .driver ∧ ready.ctrl = .ready ∧ ready.geom.width ≤ (480 : Coord).toNat ∧
      ready.geom.height ≤ (320 : Coord).toNat ∧ (9 : Coord).toNat < (10 : Coord).toNat ∧
      (Color.native 0xFFFF).fits ready.icfg.pixelFormat = true := by decide

theorem witness_StreamSelectsOnce :
    busy.owner = .driver ∧ busy.ctrl = .ready ∧ busy.phaseKnown ∧
      (∀ x ∈ [0xFFFF, 0], sampleFits busy.icfg.pixelFormat x = true) ∧ busy.pinsHold 1 ∧
      State.pinAnswer { busy with env := answers [true] } 0 = true := by decide

theorem witness_FillSendsArea :
    busy.owner = .driver ∧ busy.ctrl = .ready ∧ busy.phaseKnown ∧ busy.pinsHold 6 ∧
      (Color.native 0xFFFF).fits busy.icfg.pixelFormat = true ∧ (0 : Coord).toNat ≤ (479 : Coord).toNat ∧
      (479 : Coord).toNat < busy.geom.width ∧ (319 : Coord).toNat ≤ (319 : Coord).toNat ∧
      (319 : Coord).toNat < busy.geom.height := by decide

theorem witness_ClearIsFullFill :
    busy.owner = .driver ∧ busy.ctrl = .ready ∧ busy.phaseKnown ∧ busy.pinsHold 6 ∧
      (Color.rgb888 255 0 255).fits busy.icfg.pixelFormat = true ∧ 1 ≤ busy.geom.width ∧ busy.geom.width ≤ 65535 ∧
      1 ≤ busy.geom.height ∧ busy.geom.height ≤ 65535 := by decide

/-- One pixel in the last corner and one just past it; and, under the other policy, a list that lies on the panel. -/
theorem witness_DrawSendsPixelsOnPanel :
    (busy.owner = .driver ∧ busy.ctrl = .ready ∧ busy.phaseKnown ∧ busy.cfg.clipPolicy = .skip ∧ busy.geom.width ≤ 65535 ∧
      busy.geom.height ≤ 65535 ∧ busy.pinsHold (drawDrives busy [⟨479, 319, .native 0xFFFF⟩, ⟨480, 0, .native 0⟩]) ∧
      drawDrives busy [⟨479, 319, .native 0xFFFF⟩, ⟨480, 0, .native 0⟩] = 6 ∧
      (∀ q ∈ [(⟨479, 319, .native 0xFFFF⟩ : Pixel), ⟨480, 0, .native 0⟩], q.color.fits busy.icfg.pixelFormat = true)) ∧
    (let s := { busy with cfg := { params with clipPolicy := .error } }
     s.phaseKnown ∧ (∀ q ∈ [(⟨479, 319, .native 0xFFFF⟩ : Pixel)], onPanel s.geom q.x q.y = true) ∧
      s.pinsHold (drawDrives s [⟨479, 319, .native 0xFFFF⟩])) := by decide

/-- Two pairs at one corner and one pair off the panel; and, under the other policy, a list that lies on the panel. -/
theorem witness_DrawSetsListedPixels :
    (let ps : List Pixel := [⟨479, 319, .native 0xFFFF⟩, ⟨480, 0, .native 0⟩, ⟨479, 319, .native 1⟩]
     busy.owner = .driver ∧ busy.ctrl = .ready ∧ busy.phaseKnown ∧ busy.cfg.clipPolicy = .skip ∧
      busy.pinsHold (drawDrives busy ps) ∧ busy.cfg.opcodes.distinct ∧
      (∀ q ∈ ps, q.color.fits busy.icfg.pixelFormat = true) ∧ (busy.cfg.busWidth = .w16 → busy.icfg.pixelFormat = .pf16) ∧
      busy.geom.width ≤ 65535 ∧ busy.geom.height ≤ 65535 ∧
      ps = [⟨479, 319, .native 0xFFFF⟩, ⟨480, 0, .native 0⟩] ++ ⟨479, 319, .native 1⟩ :: [] ∧
      onPanel busy.geom 479 319 = true) ∧
    (let s := { busy with cfg := { params with clipPolicy := .error } }
     s.phaseKnown ∧ (∀ q ∈ [(⟨0, 0, .native 0xFFFF⟩ : Pixel)], onPanel s.geom q.x q.y = true) ∧
      s.pinsHold (drawDrives s [⟨0, 0, .native 0xFFFF⟩])) := by decide

theorem witness_DrawErrorPolicyStopsAtPoint :
    let s := { busy with cfg := { params with clipPolicy := .error } }
    s.owner = .driver ∧ s.ctrl = .ready ∧ s.phaseKnown ∧ s.cfg.clipPolicy = .error ∧ s.geom.width ≤ 65535 ∧
      s.geom.height ≤ 65535 ∧ onPanel s.geom 3 4 = true ∧ onPanel s.geom 480 0 = false ∧ onPanel s.geom 0 (-1) = false ∧
      (∀ q ∈ [(⟨3, 4, .native 1⟩ : Pixel), ⟨480, 0, .native 2⟩], q.color.fits s.icfg.pixelFormat = true) ∧
      s.pinsHold (6 * [(⟨3, 4, .native 1⟩ : Pixel)].length) := by decide

theorem witness_BboxReturnsRectangle : driver.owner = .driver := by decide

theorem witness_BusOperationsFrame :
    [Instr.fill 0 0 1 0 (.native 1), .stream [1], .cmd 1 [2], .delay 3].map (fun i => (after (exec i ready)).isSome) =
      [true, true, true, true] ∧
    [Instr.select .data, .write 1, .burst [1]].map (fun i => (after (exec i queued)).isSome) = [true, true, true] ∧
    [Instr.ramwr, .busCmd 0xE0, .busData 1].map (fun i => (after (exec i queued)).isSome) = [true, true, true] := by decide

theorem witness_DrawingBusFault :
    let s := { ready with fifo := [1], env := answers [true] }
    s.owner = .driver ∧ s.phaseKnown ∧ drawsPanel (.stream [1]) = true ∧
      (after (exec (.stream [1]) s)).map (fun t => t.result) = some (some (.err (.busFault .dc))) := by decide

theorem witness_ConvertTruncates : sampleFits .pf18 0x3FFFF = true := by decide

theorem witness_SerializeRoundTrips :
    sampleFits .pf16 (0xFFFF : Sample).toNat = true ∧ sampleFits .pf24 (0xFFFFFF : Sample).toNat = true := by decide

theorem witness_CommandCyclesReachPanel :
    busy.phaseKnown ∧ busy.cfg.opcodes.distinct ∧ busy.pinAnswer 0 = false ∧
      State.pinAnswer { busy with env := answers [true] } 0 = true := by decide

theorem witness_BusCmdReachesPanel :
    busy.phaseKnown ∧ busy.pinAnswer 0 = false ∧ State.pinAnswer { busy with env := answers [true] } 0 = true ∧
      wordFits busy.cfg.busWidth (0xFF : BusWord).toNat = true ∧ lowByte 0xFF ∉ busy.cfg.opcodes.all ∧
      lowByte 0x1111 = ready16.cfg.opcodes.slpout ∧
      wordFits ready16.cfg.busWidth (0x1111 : BusWord).toNat = true := by decide

/-- A state whose settled panel waits in a mode. -/
def waiting (m : PanelMode) : State := { ready with panel := { Panel.initial with mode := m, pbuf := [0, 0, 1] } }

theorem witness_DataCycleOutsidePixelData :
    (waiting (.caset 2)).phaseKnown ∧ (waiting (.caset 2)).pinAnswer 0 = false ∧
      wordFits (waiting (.caset 2)).cfg.busWidth (0xFF : BusWord).toNat = true ∧
      State.pinAnswer { waiting (.caset 2) with env := answers [true] } 0 = true ∧ (waiting (.caset 2)).settledPanel.mode = .caset 2 ∧
      (waiting (.raset 0)).settledPanel.mode = .raset 0 ∧ (waiting .colmod).settledPanel.mode = .colmod ∧
      (waiting .madctl).settledPanel.mode = .madctl ∧ (waiting .other).settledPanel.mode = .other ∧
      (waiting .idle).settledPanel.mode = .idle := by decide

/-- The last legal column (479 = 0x1DF), the first illegal one (480), and a reversed row range. -/
theorem witness_FourthParameterSetsRange :
    (waiting (.caset 3)).phaseKnown ∧ (waiting (.caset 3)).pinAnswer 0 = false ∧
      wordFits (waiting (.caset 3)).cfg.busWidth (0xDF : BusWord).toNat = true ∧
      (waiting (.caset 3)).settledPanel.pbuf = [0, 0, 1] ∧ (waiting (.caset 3)).settledPanel.mode = .caset 3 ∧
      256 * 1 + (lowByte 0xDF).toNat < (waiting (.caset 3)).geom.width ∧
      (waiting (.caset 3)).geom.width ≤ 256 * 1 + (lowByte 0xE0).toNat ∧
      (waiting (.raset 3)).settledPanel.mode = .raset 3 ∧
      256 * 1 + (lowByte 0x3F).toNat < (waiting (.raset 3)).geom.height := by decide

/-- A panel in memory-write mode: the last sample of a window of one pixel and the first one past it. -/
def writing (count : Nat) (bbuf : List BusWord) : State :=
  { ready with
    panel := { Panel.initial with
      winc := some (0, 0), winr := some (0, 0), count := count, mode := .ramWrite, bbuf := bbuf } }

theorem witness_DataCycleWritesPixel :
    (writing 0 [1]).phaseKnown ∧ (writing 0 [1]).pinAnswer 0 = false ∧
      wordFits (writing 0 [1]).cfg.busWidth (0xFF : BusWord).toNat = true ∧
      (writing 0 [1]).settledPanel.mode = .ramWrite ∧ (writing 0 [1]).settledPanel.win = some (0, 0, 0, 0) ∧
      (writing 0 [1]).settledPanel.bbuf.length + 1 = wordsPerSample .w8 .pf16 ∧
      (writing 0 []).settledPanel.bbuf.length + 1 ≠ wordsPerSample .w8 .pf16 ∧
      (writing 0 [1]).settledPanel.count < (0 - 0 + 1) * (0 - 0 + 1) ∧
      (0 - 0 + 1) * (0 - 0 + 1) ≤ (writing 1 [1]).settledPanel.count ∧
      (waiting .ramWrite).settledPanel.win = none ∧
      (let s := { ready with
         panel := { Panel.initial with winc := some (0, 1), winr := some (0, 1), mode := .ramWrite, bbuf := [1] } }
       s.settledPanel.win = some (0, 0, 1, 1) ∧ s.settledPanel.cx < 1 ∧ s.settledPanel.cy < 1) := by decide

theorem witness_FillSetsWindowContent :
    busy.owner = .driver ∧ busy.ctrl = .ready ∧ busy.phaseKnown ∧ busy.pinsHold 6 ∧ busy.cfg.opcodes.distinct ∧
      (Color.native 0xFFFF).fits busy.icfg.pixelFormat = true ∧ (busy.cfg.busWidth = .w16 → busy.icfg.pixelFormat = .pf16) ∧
      (479 : Coord).toNat ≤ (479 : Coord).toNat ∧ (479 : Coord).toNat < busy.geom.width ∧
      (0 : Coord).toNat ≤ (319 : Coord).toNat ∧ (319 : Coord).toNat < busy.geom.height := by decide

theorem witness_ClearSetsEveryPixel :
    busy.owner = .driver ∧ busy.ctrl = .ready ∧ busy.phaseKnown ∧ busy.pinsHold 6 ∧ busy.cfg.opcodes.distinct ∧
      (Color.native 0xFFFF).fits busy.icfg.pixelFormat = true ∧ (busy.cfg.busWidth = .w16 → busy.icfg.pixelFormat = .pf16) ∧
      1 ≤ busy.geom.width ∧ busy.geom.width ≤ 65535 ∧ 1 ≤ busy.geom.height ∧ busy.geom.height ≤ 65535 := by decide

end Sys2Proof.Machine.Tests
end

/-! PROOFS, family 00_scope: what a step is (spec/00_scope.md R5, R6). The step of each agent is one call of `exec`; what every
instruction keeps of the machine's configuration then holds of every step. -/

namespace Sys2Proof.Machine

/-! ## The constructions -/

/-- Everything TAKE can answer (R97). -/
theorem exec_take_next {s t : State} (he : exec .take s = .next t) :
    (s.taken = true ∧ t = { s with result := some (.ok (.handle false)) }) ∨
    (s.taken = false ∧ t = { s with taken := true, handle := true, result := some (.ok (.handle true)) }) := by
  simp only [exec, execTake] at he
  split at he
  · next h => cases he; exact .inl ⟨h, rfl⟩
  · next h => cases he; exact .inr ⟨by simpa using h, rfl⟩

/-- Everything TRANSPORT_NEW can answer: it had the handle, which is gone; the width is wrong, the installation fails, or the
transport is built (R98). -/
theorem exec_transportNew_next {width : Nat} {pb sp dp : PinId} {q : Ratio} {s t : State}
    (he : exec (.transportNew width pb sp dp q) s = .next t) :
    s.handle = true ∧
      ((width ≠ s.cfg.busWidth.bits ∧
          t = { s with handle := false, result := some (.err (.configuration .widthMismatch)) }) ∨
        (width = s.cfg.busWidth.bits ∧ s.installAnswer = true ∧
          t = { s.installDrawn with handle := false, result := some (.err (.configuration .installFailed)) }) ∨
        (width = s.cfg.busWidth.bits ∧ s.installAnswer = false ∧
          t = { newTransport width pb sp dp q s.installDrawn with handle := false, result := some (.ok .unit) })) := by
  simp only [exec, execTransportNew] at he
  split at he
  · next hh =>
    refine ⟨hh, ?_⟩
    unfold buildTransport at he
    split at he
    · next hw => cases he; exact .inl ⟨hw, rfl⟩
    · next hw =>
      have hw : width = s.cfg.busWidth.bits := by simpa using hw
      split at he
      · next hi => cases he; exact .inr (.inl ⟨hw, hi, rfl⟩)
      · next hi => cases he; exact .inr (.inr ⟨hw, Bool.eq_false_of_not_eq_true hi, rfl⟩)
  · cases he

/-- Everything DRIVER_NEW can answer: there was a transport, which is consumed; the geometry is bad, the format is not supported,
or the driver is built (R109). -/
theorem exec_driverNew_next {rst bl : Option PinId} {width height : Nat} {rot : Rotation} {mirror : Bool} {order : ColorOrder}
    {pf : PixelFormat} {s t : State} (he : exec (.driverNew rst bl width height rot mirror order pf) s = .next t) :
    s.owner = .transport ∧
      ((geometryOk width height = false ∧
          t = { s with owner := .none, result := some (.err (.configuration .badGeometry)) }) ∨
        (geometryOk width height = true ∧ formatOk s.cfg.busWidth pf = false ∧
          t = { s with owner := .none, result := some (.err (.configuration .unsupportedFormat)) }) ∨
        (geometryOk width height = true ∧ formatOk s.cfg.busWidth pf = true ∧
          t = { newDriver rst bl ⟨width, height, rot⟩ ⟨mirror, order, pf⟩ s with result := some (.ok .unit) })) := by
  simp only [exec, execDriverNew] at he
  split at he
  · next ho =>
    refine ⟨ho, ?_⟩
    unfold buildDriver at he
    split at he
    · next hg => cases he; exact .inl ⟨by simpa using hg, rfl⟩
    · next hg =>
      have hg : geometryOk width height = true := by simpa using hg
      split at he
      · next hf => cases he; exact .inr (.inl ⟨hg, by simpa using hf, rfl⟩)
      · next hf => cases he; exact .inr (.inr ⟨hg, by simpa using hf, rfl⟩)
  · cases he
  · cases he

/-! ## What every instruction keeps -/

/-- What every instruction keeps: parameters, program, index, placed line and marks; TAKEN once set; TCFG and a driver where the
handle is not held; and under a driver all that DRIVER_NEW has fixed (R7, R15, R25, R28, R29, R31). -/
structure ConfigKept (s t : State) : Prop where
  cfg          : t.cfg = s.cfg
  prog         : t.prog = s.prog
  idx          : t.idx = s.idx
  probe        : t.probe = s.probe
  faultedModel : t.faultedModel = s.faultedModel
  refused      : t.refused = s.refused
  taken        : s.taken = true → t.taken = true
  tcfg         : s.handle = false → t.tcfg = s.tcfg
  owner        : s.handle = false → s.owner = .driver → t.owner = .driver
  driver       : s.owner = .driver → t.geom = s.geom ∧ t.icfg = s.icfg ∧ t.rstPin = s.rstPin ∧ t.blPin = s.blPin

theorem PinsOnly.configKept {s t : State} (h : PinsOnly s t) : ConfigKept s t where
  cfg := h.cfg
  prog := h.prog
  idx := h.idx
  probe := h.probe
  faultedModel := h.faultedModel
  refused := h.refused
  taken hk := h.taken.trans hk
  tcfg _ := h.tcfg
  owner _ ho := h.owner.trans ho
  driver _ := ⟨h.geom, h.icfg, h.rstPin, h.blPin⟩

theorem take_configKept {s t : State} (he : exec .take s = .next t) : ConfigKept s t := by
  obtain ⟨-, rfl⟩ | ⟨-, rfl⟩ := exec_take_next he <;> constructor <;> simp

/-- TRANSPORT_NEW rewrites TCFG and OWNER, but only with the handle; what DRIVER_NEW fixes it leaves alone. -/
theorem transportNew_configKept {width : Nat} {pb sp dp : PinId} {q : Ratio} {s t : State}
    (he : exec (.transportNew width pb sp dp q) s = .next t) : ConfigKept s t := by
  obtain ⟨hh, ⟨-, rfl⟩ | ⟨-, -, rfl⟩ | ⟨-, -, rfl⟩⟩ := exec_transportNew_next he <;> constructor <;> simp [hh]

/-- DRIVER_NEW rewrites what it fixes, but only over a transport. -/
theorem driverNew_configKept {rst bl : Option PinId} {width height : Nat} {rot : Rotation} {mirror : Bool} {order : ColorOrder}
    {pf : PixelFormat} {s t : State} (he : exec (.driverNew rst bl width height rot mirror order pf) s = .next t) :
    ConfigKept s t := by
  obtain ⟨ho, ⟨-, rfl⟩ | ⟨-, -, rfl⟩ | ⟨-, -, rfl⟩⟩ := exec_driverNew_next he <;> constructor <;> simp [ho]

theorem constructs_eq_true {i : Instr} (h : constructs i = true) :
    i = .take ∨ (∃ width pb sp dp q, i = .transportNew width pb sp dp q) ∨
      ∃ rst bl width height rot mirror order pf, i = .driverNew rst bl width height rot mirror order pf := by
  unfold constructs at h
  split at h
  · exact .inl rfl
  · exact .inr (.inl ⟨_, _, _, _, _, rfl⟩)
  · exact .inr (.inr ⟨_, _, _, _, _, _, _, _, rfl⟩)
  · cases h

theorem exec_configKept {i : Instr} {s t : State} (he : exec i s = .next t) : ConfigKept s t := by
  cases hc : constructs i with
  | false => exact (exec_kept hc he).frame.configKept
  | true =>
    obtain rfl | ⟨_, _, _, _, _, rfl⟩ | ⟨_, _, _, _, _, _, _, _, rfl⟩ := constructs_eq_true hc
    · exact take_configKept he
    · exact transportNew_configKept he
    · exact driverNew_configKept he

/-! ## The step of each agent -/

theorem isCmd_eq_true {i : Instr} (h : isCmd i = true) : ∃ op ps, i = .cmd op ps := by
  unfold isCmd at h
  split at h
  · exact ⟨_, _, rfl⟩
  · cases h

/-- A call that HOST may make is run (R74, R94); `hostCall_next` is the converse. -/
theorem hostCall_allowed {i : Instr} {s : State} (hm : hostMayCall i = true) (hc : isCmd i = true → s.owner ≠ .driver) :
    hostCall i s = advance (exec i s) := by
  have hown : ¬(isCmd i && s.owner == .driver) = true := by simpa using hc
  rw [hostCall, if_neg (by simp [hm]), if_neg hown]

/-- HOST's step where its line spells a call that is allowed: the instruction is run (R5, R157). -/
theorem step_of_host {s t : State} {l : Line} {i : Instr} (hf : s.faultedModel = false) (hr : s.refused = false)
    (hp : s.probe = none) (hl : s.prog[s.idx]? = some l) (hd : decode s.cfg.opcodes l = .ok i) (hm : hostMayCall i = true)
    (hc : ∀ op ps, i = .cmd op ps → s.owner ≠ .driver) (ha : nextAgent s = (some .host, t)) :
    step s = advance (exec i t) := by
  have ht : t = s ∨ t = s.scheduleDrawn := (nextAgent_host ha).2.imp And.left And.left
  have hft : fetch t = .ok i := by
    have hfs : fetch s = .ok i := by simp [fetch, State.line?, hp, hl, hd]
    rcases ht with rfl | rfl
    · exact hfs
    · exact (fetch_scheduleDrawn s).trans hfs
  have hct : isCmd i = true → t.owner ≠ .driver := by
    have hto : t.owner = s.owner := by rcases ht with rfl | rfl <;> rfl
    intro h
    obtain ⟨op, ps, hi⟩ := isCmd_eq_true h
    exact hto ▸ hc op ps hi
  simp only [step, hf, hr, hp, ha, hostStep, hft]
  exact hostCall_allowed hm hct

/-- A placed line is run as it stands (R74). -/
theorem step_of_probe {s : State} {l : Line} {i : Instr} (hf : s.faultedModel = false) (hr : s.refused = false)
    (hp : s.probe = some l) (hd : decode s.cfg.opcodes l = .ok i) : step s = exec i { s with probe := none } := by
  simp [step, hf, hr, hp, probeStep, fetch, State.line?, hd]

/-- ENGINE's enabled step is ENGINE_EMIT where a word is in flight, else ENGINE_PULL (R102, R103, R105). -/
theorem engineInstr_of_pending {s : State} (h : s.pending ≠ []) :
    engineInstr s = if s.osr.isSome then .engineEmit else .enginePull := by
  unfold State.pending at h
  cases hk : s.cfg.engineKind with
  | direct => simp [hk] at h
  | fifo =>
    cases ho : s.osr with
    | some w => simp [engineInstr, State.enginePhase, hk, ho]
    | none =>
      obtain ⟨w, ws, hq⟩ := List.exists_cons_of_ne_nil (show s.fifo ≠ [] by simpa [hk, ho] using h)
      simp [engineInstr, State.enginePhase, hk, ho, hq]

theorem step_of_engine {s t : State} (hf : s.faultedModel = false) (hr : s.refused = false) (hp : s.probe = none)
    (ha : nextAgent s = (some .engine, t)) :
    step s = exec (if t.osr.isSome then .engineEmit else .enginePull) t := by
  have hpend : t.pending ≠ [] := by
    obtain ⟨rfl | rfl, h⟩ := nextAgent_engine ha <;> exact h
  simp [step, hf, hr, hp, ha, engineInstr_of_pending hpend]

theorem nextAgent_host_alone {s : State} (hh : s.idx < s.prog.length) (hp : s.pending = []) :
    nextAgent s = (some .host, s) := by
  simp [nextAgent, hostEnabled_iff, hh, hp]

theorem nextAgent_engine_alone {s : State} (hh : s.prog.length ≤ s.idx) (hp : s.pending ≠ []) :
    nextAgent s = (some .engine, s) := by
  simp [nextAgent, hostEnabled_iff, hh, hp]

/-- Where both agents can move, a draw of `false` lets HOST move (R6). -/
theorem nextAgent_host_drawn {s : State} (hh : s.idx < s.prog.length) (hp : s.pending ≠ [])
    (hd : s.env.schedule.coming.head? = some false) : nextAgent s = (some .host, s.scheduleDrawn) := by
  have ha : s.scheduleAnswer = false := by
    rw [List.head?_eq_getElem?] at hd
    simp [State.scheduleAnswer, Draws.answer, hd]
  simp [nextAgent, hostEnabled_iff, hh, hp, ha]

/-- A draw that is listed is taken from the list. -/
theorem Draws.rest_of_head? {α : Type} {d : Draws α} {a : α} (h : d.coming.head? = some a) :
    d.rest = { d with coming := d.coming.tail } := by
  obtain ⟨coming, used⟩ := d
  cases coming with
  | nil => cases h
  | cons b bs => rfl

/-! ## What a step changes of its own -/

theorem idx_of_advance_exec {i : Instr} {s u : State} (h : advance (exec i s) = .next u) : u.idx = s.idx + 1 := by
  cases he : exec i s with
  | next v => rw [he] at h; cases h; exact congrArg (· + 1) (exec_configKept he).idx
  | fault f => rw [he] at h; cases h
  | refused r => rw [he] at h; cases h

/-- A step that answers a next state is the normal end's, or it is `exec` of an instruction: before it only the placed line or the
scheduling draw is gone, after it only the statement index may be one on (R5). -/
theorem step_is_exec {s u : State} (h : step s = .next u) :
    u = s ∨ ∃ i p e v n, exec i { s with probe := p, env := e } = .next v ∧ u = { v with idx := n } := by
  obtain ⟨-, -, ⟨l, i, -, -, he⟩ | ⟨-, rfl | ⟨t, ht, -, he⟩ | ⟨t, i, v, ht, -, -, -, he, rfl⟩⟩⟩ := step_cases h
  · exact .inr ⟨i, none, s.env, u, u.idx, he, rfl⟩
  · exact .inl rfl
  · rw [← exec_engineInstr] at he
    rcases ht with rfl | rfl
    · exact .inr ⟨_, _, _, u, u.idx, he, rfl⟩
    · exact .inr ⟨_, s.probe, _, u, u.idx, he, rfl⟩
  · rcases ht with rfl | rfl
    · exact .inr ⟨i, _, _, v, v.idx + 1, he, rfl⟩
    · exact .inr ⟨i, s.probe, _, v, v.idx + 1, he, rfl⟩

/-- Where TCFG or OWNER stands, the invariant says that the handle is gone: only TRANSPORT_NEW sets them, and it consumes it. -/
theorem State.Inv.handle_gone {s : State} (h : s.Inv) (hs : s.tcfg ≠ none ∨ s.owner ≠ .none) : s.handle = false := by
  by_contra hh
  obtain ⟨-, ho, hc⟩ := h.handleFresh (by simpa using hh)
  exact hs.elim (· hc) (· ho)

/-! ## The obligations -/

/-- Settles O11: a step is `exec` of an instruction, and each instruction keeps the configuration. -/
theorem stepKeepsConfiguration : Obligations.StepKeepsConfiguration := by
  intro s t h
  obtain rfl | ⟨i, p, e, v, n, he, rfl⟩ := step_is_exec h
  · exact ⟨rfl, rfl, id, fun _ _ => id, fun _ => id, fun _ => ⟨rfl, rfl, rfl, rfl⟩⟩
  · have k := exec_configKept he
    refine ⟨k.cfg, k.prog, k.taken, fun hi c hc => ?_, fun hi ho => ?_, k.driver⟩
    · exact (k.tcfg (hi.handle_gone (.inl (by simp [hc])))).trans hc
    · exact k.owner (hi.handle_gone (.inr (by simp [ho]))) ho

/-- Settles O5: in each case the agent that moves is HOST, or a line is placed. -/
theorem stepRunsDecodedInstruction : Obligations.StepRunsDecodedInstruction := by
  intro s l i hf hr hd
  refine ⟨fun hp hl hm hc => ?_, fun hp => ?_⟩
  · have hh : s.idx < s.prog.length := (List.getElem?_eq_some_iff.1 hl).1
    have hrun : ∀ t, nextAgent s = (some .host, t) →
        step s = advance (exec i t) ∧ ∀ u, step s = .next u → u.idx = s.idx + 1 := by
      intro t ha
      have hstep := step_of_host hf hr hp hl hd hm hc ha
      have hidx : t.idx = s.idx := by
        obtain ⟨rfl, -⟩ | ⟨rfl, -⟩ := (nextAgent_host ha).2 <;> rfl
      exact ⟨hstep, fun u hu => by rw [← hidx]; exact idx_of_advance_exec (hstep.symm.trans hu)⟩
    refine ⟨hrun, fun hq => hrun s (nextAgent_host_alone hh hq), fun hq hs => ?_⟩
    rw [← Draws.rest_of_head? hs]
    exact hrun _ (nextAgent_host_drawn hh hq hs)
  · have hstep := step_of_probe hf hr hp hd
    refine ⟨hstep, fun u hu => ?_⟩
    have k := exec_configKept (hstep.symm.trans hu)
    exact ⟨k.idx, k.probe⟩

/-- Settles O6: where ENGINE moves, its instruction is told by the word in flight. -/
theorem stepRunsEngineInstruction : Obligations.StepRunsEngineInstruction := by
  intro s t hf hr hp
  refine ⟨fun ha => ?_, fun hh hq => ?_⟩
  · rw [step_of_engine hf hr hp ha]
    cases t.osr <;> rfl
  · rw [step_of_engine hf hr hp (nextAgent_engine_alone hh hq)]
    cases s.osr <;> rfl

end Sys2Proof.Machine

/-! PROOFS, family 10_state: the machine's invariant (spec/10_state.md R15 to R27, spec/40_transport.md R107). It is the bus part
(`State.BusInv`) and the part about the configuration (`State.ConfigInv`). An instruction that builds nothing keeps the first by
`exec_kept` and leaves the second alone but for CTRL; each construction is taken on its own. -/

namespace Sys2Proof.Machine

/-! ## The two parts of the invariant -/

/-- The part of the machine's invariant that is about CTRL, TAKEN, the handle, OWNER, TCFG, the geometry and the format. -/
structure State.ConfigInv (s : State) : Prop where
  ctrlSettled : s.ctrl = .uninitialized ∨ s.ctrl = .ready ∨ s.ctrl = .faulted
  handleFresh : s.handle = true → s.taken = true ∧ s.owner = .none ∧ s.tcfg = none
  ownerTaken  : s.owner ≠ .none → s.taken = true ∧ s.tcfg ≠ none
  tcfgTaken   : s.tcfg ≠ none → s.taken = true
  tcfgMatches : ∀ c ∈ s.tcfg, c.width = s.cfg.busWidth.bits ∧ c.kind = s.cfg.engineKind ∧
    (c.kind = .fifo → c.depth = s.cfg.fifoDepth) ∧ (c.kind = .direct → c.depth = 0)
  geometryOk  : geometryOk s.geom.width s.geom.height = true
  formatOk    : formatOk s.cfg.busWidth s.icfg.pixelFormat = true

theorem State.inv_iff {s : State} : s.Inv ↔ s.BusInv ∧ s.ConfigInv := by
  constructor
  · intro h
    exact ⟨h.bus, h.ctrlSettled, h.handleFresh, h.ownerTaken, h.tcfgTaken, h.tcfgMatches, h.geometryOk, h.formatOk⟩
  · rintro ⟨hb, hc⟩
    exact { hb, hc with }

/-- The statement index, the placed line, the draws and the returned result are no part of the invariant. -/
theorem State.Inv.withUnread {s : State} (h : s.Inv) (n : Nat) (p : Option Line) (e : Env) (r : Option Result) :
    State.Inv { s with idx := n, probe := p, env := e, result := r } := { h with }

/-- A bus that has nothing queued or in flight and has carried nothing, with DC Unset and the strobe released, meets the bus part:
the bus at power-on and after TRANSPORT_NEW (R32, R98). -/
theorem State.busInv_of_fresh {s : State} (hf : s.fifo = []) (ho : s.osr = none)
    (hd : wordFits s.cfg.busWidth s.dataOut.toNat = true) (hs : s.strobe = .released) (hdc : s.dc = .unset) (ht : s.trace = [])
    (hp : s.panel = Panel.initial) : s.BusInv where
  fifoBounded _ := by simp [hf]
  directEmpty _ := ⟨hf, ho⟩
  fifoFits := by simp [hf]
  osrFits := by simp [ho]
  dataFits := hd
  strobeIdle := hs
  frameWf := by rw [hp]; rfl
  panelReads := by rw [hp, ht]; rfl
  phasesHeld := by rw [ht]; rfl
  phaseShown := by rw [State.phase?, hdc, ht]; rfl

/-- FRAME is in canonical form after reading any trace. -/
theorem readTrace_frame_wf (cfg : Params) (g : PanelGeometry) (c : InitConfig) (es : List Event) :
    (readTrace cfg g c es).frame.wf = true := by
  induction es using List.reverseRecOn with
  | nil => rfl
  | append_singleton es e ih => rw [readTrace_concat]; exact take_frame_wf ih _ _ _ _

/-! ## Each instruction keeps the invariant -/

/-- An instruction that builds nothing leaves the configuration alone but for CTRL, which INIT settles. -/
theorem Kept.configInv {i : Instr} {s t : State} (k : Kept i s t) (h : s.ConfigInv) : t.ConfigInv := by
  have hctrl : t.ctrl = .uninitialized ∨ t.ctrl = .ready ∨ t.ctrl = .faulted := by
    obtain hc | ⟨-, -, hc⟩ := k.ctrl
    · rw [hc]; exact h.ctrlSettled
    · exact .inr hc
  have hf := k.frame
  constructor
  · exact hctrl
  · rw [hf.handle, hf.taken, hf.owner, hf.tcfg]; exact h.handleFresh
  · rw [hf.owner, hf.taken, hf.tcfg]; exact h.ownerTaken
  · rw [hf.tcfg, hf.taken]; exact h.tcfgTaken
  · rw [hf.tcfg, hf.cfg]; exact h.tcfgMatches
  · rw [hf.geom]; exact h.geometryOk
  · rw [hf.cfg, hf.icfg]; exact h.formatOk

/-- TAKE gives the handle only where TAKEN is false, so where there is no owner and no configuration (R97). -/
theorem take_keeps_inv {s t : State} (h : s.Inv) (he : exec .take s = .next t) : t.Inv := by
  obtain ⟨-, rfl⟩ | ⟨hn, rfl⟩ := exec_take_next he
  · exact h.withUnread _ _ _ _
  · have hown : s.owner = .none := by
      by_contra ho
      exact absurd (h.ownerTaken ho).1 (by simp [hn])
    have htc : s.tcfg = none := by
      by_contra hc
      exact absurd (h.tcfgTaken hc) (by simp [hn])
    exact { h with
      handleFresh := fun _ => ⟨rfl, hown, htc⟩
      ownerTaken := fun ho => absurd hown ho
      tcfgTaken := fun _ => rfl }

/-- Giving up the handle keeps the invariant. -/
theorem State.Inv.handleConsumed {s : State} (h : s.Inv) : State.Inv { s with handle := false } :=
  { h with handleFresh := fun hh => by cases hh }

/-- The transport TRANSPORT_NEW builds, the handle consumed, is over a taken state machine, its bus is fresh, and TCFG holds the
parameters (R98). -/
theorem newTransport_inv {s : State} (h : s.Inv) (ht : s.taken = true) (hh : s.handle = false) {width : Nat}
    (hw : width = s.cfg.busWidth.bits) (pb sp dp : PinId) (q : Ratio) : (newTransport width pb sp dp q s).Inv := by
  have hbus : (newTransport width pb sp dp q s).BusInv :=
    State.busInv_of_fresh rfl rfl (onBus_fits _ _) rfl rfl rfl rfl
  refine { hbus, h with
    handleFresh := fun hg => by simp [hh] at hg
    ownerTaken := fun _ => ⟨ht, Option.some_ne_none _⟩
    tcfgTaken := fun _ => ht
    tcfgMatches := fun c hc => ?_ }
  cases hc
  refine ⟨hw, rfl, fun hk => ?_, fun hk => ?_⟩
  · simp only at hk
    simp [hk]
  · simp only at hk
    simp [hk]

theorem transportNew_keeps_inv {width : Nat} {pb sp dp : PinId} {q : Ratio} {s t : State} (h : s.Inv)
    (he : exec (.transportNew width pb sp dp q) s = .next t) : t.Inv := by
  obtain ⟨hh, ⟨-, rfl⟩ | ⟨-, -, rfl⟩ | ⟨hw, -, rfl⟩⟩ := exec_transportNew_next he
  · exact h.handleConsumed.withUnread _ _ _ _
  · exact h.handleConsumed.withUnread _ _ _ _
  · have hd : State.Inv { s.installDrawn with handle := false } := h.handleConsumed.withUnread _ _ _ _
    exact (newTransport_inv hd (h.handleFresh hh).1 rfl hw pb sp dp q).withUnread _ _ _ _

/-- Consuming the transport keeps the invariant: TCFG stays over the taken state machine (R109). -/
theorem State.Inv.ownerConsumed {s : State} (h : s.Inv) : State.Inv { s with owner := .none } :=
  { h with
    handleFresh := fun hh => ⟨(h.handleFresh hh).1, rfl, (h.handleFresh hh).2.2⟩
    ownerTaken := fun ho => absurd rfl ho }

/-- The driver DRIVER_NEW builds is over the transport's taken state machine, and the panel model has read the whole of TRACE again
under the geometry and the format it fixes (R109, R57). -/
theorem newDriver_inv {s : State} (h : s.Inv) (ho : s.owner = .transport) (rst bl : Option PinId) {g : PanelGeometry}
    {c : InitConfig} (hg : geometryOk g.width g.height = true) (hf : formatOk s.cfg.busWidth c.pixelFormat = true) :
    (newDriver rst bl g c s).Inv := by
  have hown : s.owner ≠ .none := by simp [ho]
  exact { h with
    ctrlSettled := .inl rfl
    handleFresh := fun hh => absurd (h.handleFresh hh).2.1 hown
    ownerTaken := fun _ => h.ownerTaken hown
    geometryOk := hg
    formatOk := hf
    frameWf := readTrace_frame_wf _ _ _ _
    panelReads := rfl }

theorem driverNew_keeps_inv {rst bl : Option PinId} {width height : Nat} {rot : Rotation} {mirror : Bool} {order : ColorOrder}
    {pf : PixelFormat} {s t : State} (h : s.Inv) (he : exec (.driverNew rst bl width height rot mirror order pf) s = .next t) :
    t.Inv := by
  obtain ⟨ho, ⟨-, rfl⟩ | ⟨-, -, rfl⟩ | ⟨hg, hf, rfl⟩⟩ := exec_driverNew_next he
  · exact h.ownerConsumed.withUnread _ _ _ _
  · exact h.ownerConsumed.withUnread _ _ _ _
  · exact (newDriver_inv h ho rst bl hg hf).withUnread _ _ _ _

theorem exec_keeps_inv {i : Instr} {s t : State} (h : s.Inv) (he : exec i s = .next t) : t.Inv := by
  cases hc : constructs i with
  | false =>
    have k := exec_kept hc he
    obtain ⟨hb, hconf⟩ := State.inv_iff.1 h
    exact State.inv_iff.2 ⟨k.bus hb, k.configInv hconf⟩
  | true =>
    obtain rfl | ⟨_, _, _, _, _, rfl⟩ | ⟨_, _, _, _, _, _, _, _, rfl⟩ := constructs_eq_true hc
    · exact take_keeps_inv h he
    · exact transportNew_keeps_inv h he
    · exact driverNew_keeps_inv h he

/-! ## The obligations -/

/-- Settles O9: a step is `exec` of an instruction, and each instruction keeps the invariant. -/
theorem stepKeepsInvariant : Obligations.StepKeepsInvariant := by
  intro s t h hs
  obtain rfl | ⟨i, p, e, v, n, he, rfl⟩ := step_is_exec hs
  · exact h
  · have hv : v.Inv := exec_keeps_inv (h.withUnread _ _ _ _) he
    exact hv.withUnread _ _ _ _

/-- Settles O10: the bus is fresh, and nothing is taken, configured or owned. -/
theorem resetMeetsInvariant : Obligations.ResetMeetsInvariant := by
  refine State.inv_iff.2 ⟨State.busInv_of_fresh rfl rfl ?_ rfl rfl rfl rfl, ?_⟩
  · decide
  · exact {
      ctrlSettled := .inl rfl
      handleFresh := nofun
      ownerTaken := fun ho => absurd rfl ho
      tcfgTaken := fun hc => absurd rfl hc
      tcfgMatches := nofun
      geometryOk := by decide
      formatOk := by decide }

end Sys2Proof.Machine

/-! PROOFS, family 20_memory: the panel reference model (spec/20_memory.md R59 to R67). A bus-cycle row on its own is one
`cycleInstruction`, whose two outcomes stand in Laws/Panel.lean; what is left is what one Command cycle and one Data cycle do to the
panel. -/

namespace Sys2Proof.Machine

/-! ## The rows as cycles -/

/-- The seven named rows, each with the opcode its cycle carries and the panel it makes of `p`, but for the two buffers (R59, R61,
R81 to R87). -/
def namedCycles (o : Opcodes) (p : Panel) : List (Instr × Byte × Panel) :=
  [(.slpout, o.slpout, { p with mode := .other, awake := true }),
   (.colmod, o.colmod, { p with mode := .colmod }),
   (.madctl, o.madctl, { p with mode := .madctl }),
   (.caset, o.caset, { p with mode := .caset 0 }),
   (.raset, o.raset, { p with mode := .raset 0 }),
   (.ramwr, o.ramwr, { p with
      mode := .ramWrite, count := 0
      cx := (match p.win with | some w => w.1 | none => p.cx)
      cy := (match p.win with | some w => w.2.1 | none => p.cy) }),
   (.dispon, o.dispon, { p with mode := .other, dispOn := true })]

theorem exec_of_mem_namedCycles {s : State} {p q : Panel} {i : Instr} {op : Byte}
    (h : (i, op, q) ∈ namedCycles s.cfg.opcodes p) : exec i s = cycleInstruction .command (byteWord op) s := by
  simp only [namedCycles, List.mem_cons, Prod.mk.injEq, List.not_mem_nil, or_false] at h
  obtain ⟨rfl, rfl, -⟩ | ⟨rfl, rfl, -⟩ | ⟨rfl, rfl, -⟩ | ⟨rfl, rfl, -⟩ | ⟨rfl, rfl, -⟩ | ⟨rfl, rfl, -⟩ | ⟨rfl, rfl, -⟩ := h <;>
    rfl

theorem exec_busCmd_of_fits {s : State} {w : BusWord} (h : wordFits s.cfg.busWidth w.toNat = true) :
    exec (.busCmd w) s = cycleInstruction .command w s := if_pos h

theorem exec_busData_of_fits {s : State} {w : BusWord} (h : wordFits s.cfg.busWidth w.toNat = true) :
    exec (.busData w) s = cycleInstruction .data w s := if_pos h

/-! ## A Command cycle -/

/-- The panel reads the low byte of a command word only (R59, R72). -/
theorem Panel.command_congr {w v : BusWord} (h : lowByte w = lowByte v) (o : Opcodes) (p : Panel) :
    p.command o w = p.command o v := by
  simp only [Panel.command, h]

/-- An opcode that is none of the seven. -/
theorem modeOf_of_not_mem {o : Opcodes} {op : Byte} (h : op ∉ o.all) : modeOf o op = .other := by
  simp only [Opcodes.all, List.mem_cons, List.not_mem_nil, or_false, not_or] at h
  simp [modeOf, h]

/-- Under different opcodes, the mode of each of the seven (R59). -/
theorem modeOf_named {o : Opcodes} (hd : o.distinct) :
    modeOf o o.slpout = .other ∧ modeOf o o.colmod = .colmod ∧ modeOf o o.madctl = .madctl ∧
      modeOf o o.caset = .caset 0 ∧ modeOf o o.raset = .raset 0 ∧ modeOf o o.ramwr = .ramWrite ∧
      modeOf o o.dispon = .other := by
  simp only [Opcodes.distinct, Opcodes.all, List.nodup_cons, List.mem_cons, List.not_mem_nil, or_false, not_or] at hd
  simp [modeOf, hd, eq_comm]

/-- A command that is no memory-write (R59, R67). -/
theorem Panel.command_of_mode_ne {o : Opcodes} {w : BusWord} (h : modeOf o (lowByte w) ≠ .ramWrite) (p : Panel) :
    p.command o w = { p with
      mode := modeOf o (lowByte w), pbuf := [], bbuf := []
      awake := p.awake || lowByte w == o.slpout
      dispOn := p.dispOn || lowByte w == o.dispon } := if_neg h

section

variable {o : Opcodes} {w : BusWord} {op : Byte} (hb : lowByte w = op) (hs : op ≠ o.slpout) (hn : op ≠ o.dispon)
include hb hs hn

/-- A command that is no memory-write, no SLPOUT and no DISPON sets MODE and empties the two buffers (R59, R67). -/
theorem Panel.command_sets_mode {m : PanelMode} (hm : modeOf o op = m) (h : m ≠ .ramWrite) (p : Panel) :
    p.command o w = { p with mode := m, pbuf := [], bbuf := [] } := by
  subst hb hm
  simp [Panel.command_of_mode_ne h, hs, hn]

/-- A memory-write command arms the panel (R61, R67). -/
theorem Panel.command_arms (hm : modeOf o op = .ramWrite) (p : Panel) :
    p.command o w = Panel.arm { p with mode := .ramWrite, pbuf := [], bbuf := [] } := by
  subst hb
  simp [Panel.command, hm, beq_false_of_ne hs, beq_false_of_ne hn]

end

/-- A command that is none of the seven changes MODE only, and empties the two buffers (R59, R67). -/
theorem Panel.command_of_not_mem {o : Opcodes} {w : BusWord} (h : lowByte w ∉ o.all) (p : Panel) :
    p.command o w = { p with mode := .other, pbuf := [], bbuf := [] } := by
  have hm := modeOf_of_not_mem h
  simp only [Opcodes.all, List.mem_cons, List.not_mem_nil, or_false, not_or] at h
  obtain ⟨hs, -, -, -, -, -, hn⟩ := h
  exact Panel.command_sets_mode rfl hs hn hm nofun p

/-- Under different opcodes, what each of the seven commands does to the panel (R59, R61, R67). -/
theorem Panel.command_of_mem_namedCycles {o : Opcodes} (hd : o.distinct) {p q : Panel} {i : Instr} {op : Byte}
    (h : (i, op, q) ∈ namedCycles o p) : p.command o (byteWord op) = { q with pbuf := [], bbuf := [] } := by
  obtain ⟨ms, mc, mm, mca, mra, mrw, mn⟩ := modeOf_named hd
  simp only [Opcodes.distinct, Opcodes.all, List.nodup_cons, List.mem_cons, List.not_mem_nil, or_false, not_or] at hd
  obtain ⟨⟨sc, sm, sca, sra, srw, sn⟩, ⟨-, -, -, -, cn⟩, ⟨-, -, -, mdn⟩, ⟨-, -, can⟩, ⟨-, ran⟩, rwn, -⟩ := hd
  simp only [namedCycles, List.mem_cons, Prod.mk.injEq, List.not_mem_nil, or_false] at h
  obtain ⟨-, rfl, rfl⟩ | ⟨-, rfl, rfl⟩ | ⟨-, rfl, rfl⟩ | ⟨-, rfl, rfl⟩ | ⟨-, rfl, rfl⟩ | ⟨-, rfl, rfl⟩ | ⟨-, rfl, rfl⟩ := h
  · simp [Panel.command_of_mode_ne, ms, sn]
  · exact Panel.command_sets_mode (lowByte_byteWord _) (Ne.symm sc) cn mc nofun p
  · exact Panel.command_sets_mode (lowByte_byteWord _) (Ne.symm sm) mdn mm nofun p
  · exact Panel.command_sets_mode (lowByte_byteWord _) (Ne.symm sca) can mca nofun p
  · exact Panel.command_sets_mode (lowByte_byteWord _) (Ne.symm sra) ran mra nofun p
  · rw [Panel.command_arms (lowByte_byteWord _) (Ne.symm srw) rwn mrw]
    cases hc : p.winc <;> cases hr : p.winr <;> simp [Panel.arm, Panel.win, hc, hr]
  · simp [Panel.command_of_mode_ne, mn, Ne.symm sn]

/-! ## A Data cycle -/

/-- The first three parameters of a column range are collected (R60). -/
theorem Panel.data_caset {p : Panel} {k : Fin 4} (hk : k ≠ 3) (hm : p.mode = .caset k) (bw : BusWidth) (pf : PixelFormat)
    (width height : Nat) (w : BusWord) :
    p.data bw pf width height w = { p with mode := .caset (k + 1), pbuf := p.pbuf ++ [lowByte w] } := by
  simp [Panel.data, hm, hk]

/-- The first three parameters of a row range are collected (R60). -/
theorem Panel.data_raset {p : Panel} {k : Fin 4} (hk : k ≠ 3) (hm : p.mode = .raset k) (bw : BusWidth) (pf : PixelFormat)
    (width height : Nat) (w : BusWord) :
    p.data bw pf width height w = { p with mode := .raset (k + 1), pbuf := p.pbuf ++ [lowByte w] } := by
  simp [Panel.data, hm, hk]

/-- The fourth parameter completes a column range; one that is reversed or leaves the panel unsets itself and the frame (R60). -/
theorem Panel.data_caset_last {p : Panel} {b0 b1 b2 : Byte} (hm : p.mode = .caset 3) (hb : p.pbuf = [b0, b1, b2])
    (bw : BusWidth) (pf : PixelFormat) (width height : Nat) (w : BusWord) :
    p.data bw pf width height w =
      if pairValue b2 (lowByte w) < pairValue b0 b1 ∨ width ≤ pairValue b2 (lowByte w) then
        { p with mode := .other, pbuf := [b0, b1, b2, lowByte w], winc := none, frame := [] }
      else
        { p with
          mode := .other, pbuf := [b0, b1, b2, lowByte w]
          winc := some (pairValue b0 b1, pairValue b2 (lowByte w)) } := by
  simp [Panel.data, hm, Panel.setColumns, hb]

/-- The fourth parameter completes a row range; one that is reversed or leaves the panel unsets itself and the frame (R60). -/
theorem Panel.data_raset_last {p : Panel} {b0 b1 b2 : Byte} (hm : p.mode = .raset 3) (hb : p.pbuf = [b0, b1, b2])
    (bw : BusWidth) (pf : PixelFormat) (width height : Nat) (w : BusWord) :
    p.data bw pf width height w =
      if pairValue b2 (lowByte w) < pairValue b0 b1 ∨ height ≤ pairValue b2 (lowByte w) then
        { p with mode := .other, pbuf := [b0, b1, b2, lowByte w], winr := none, frame := [] }
      else
        { p with
          mode := .other, pbuf := [b0, b1, b2, lowByte w]
          winr := some (pairValue b0 b1, pairValue b2 (lowByte w)) } := by
  simp [Panel.data, hm, Panel.setRows, hb]

/-- A COLMOD byte is recorded (R65). -/
theorem Panel.data_colmod {p : Panel} (hm : p.mode = .colmod) (bw : BusWidth) (pf : PixelFormat) (width height : Nat)
    (w : BusWord) : p.data bw pf width height w = { p with mode := .other, colmodV := some (lowByte w) } := by
  simp [Panel.data, hm]

/-- A MADCTL byte is recorded (R65). -/
theorem Panel.data_madctl {p : Panel} (hm : p.mode = .madctl) (bw : BusWidth) (pf : PixelFormat) (width height : Nat)
    (w : BusWord) : p.data bw pf width height w = { p with mode := .other, madctlV := some (lowByte w) } := by
  simp [Panel.data, hm]

/-- Data that no command has asked for makes the frame unknown (R65). -/
theorem Panel.data_unasked {p : Panel} (hm : p.mode = .idle ∨ p.mode = .other) (bw : BusWidth) (pf : PixelFormat)
    (width height : Nat) (w : BusWord) : p.data bw pf width height w = { p with frame := [] } := by
  rcases hm with hm | hm <;> simp [Panel.data, hm]

/-! ## A whole sample -/

theorem nextCursor_in_row {xs ys xe ye cx cy : Nat} (hx : cx < xe) :
    nextCursor xs ys xe ye cx cy = (cx + 1, if ye < cy then ys else cy) := if_neg (by omega)

theorem nextCursor_new_row {xs ys xe ye cx cy : Nat} (hx : xe ≤ cx) :
    nextCursor xs ys xe ye cx cy = (xs, if ye < cy + 1 then ys else cy + 1) := if_pos (by omega)

/-- What a whole sample does has nothing to do with the words left in BBUF. -/
theorem Panel.writeSample_emptied (p : Panel) (x : Sample) :
    Panel.writeSample { p with bbuf := [] } x = { p.writeSample x with bbuf := [] } := by
  have hq : Panel.win { p with bbuf := [] } = p.win := rfl
  rcases hw : p.win with _ | ⟨xs, ys, xe, ye⟩
  · rw [Panel.writeSample_noWindow hw, Panel.writeSample_noWindow (hq.trans hw)]
  · rcases Nat.lt_or_ge p.count ((xe - xs + 1) * (ye - ys + 1)) with hc | hc
    · rw [Panel.writeSample_inside hw hc, Panel.writeSample_inside (hq.trans hw) hc]
    · rw [Panel.writeSample_past hw hc, Panel.writeSample_past (hq.trans hw) hc]

/-- A whole sample leaves the window and MODE as they are, wherever it lands (R62 to R64). -/
theorem Panel.writeSample_keeps (p : Panel) (x : Sample) :
    (p.writeSample x).win = p.win ∧ (p.writeSample x).mode = p.mode := by
  unfold Panel.writeSample
  split
  · exact ⟨rfl, rfl⟩
  · split <;> exact ⟨rfl, rfl⟩

/-- A whole sample is counted wherever there is a window (R63, R64). -/
theorem Panel.writeSample_count {p : Panel} {xs ys xe ye : Nat} (h : p.win = some (xs, ys, xe, ye)) (x : Sample) :
    (p.writeSample x).count = p.count + 1 := by
  rcases Nat.lt_or_ge p.count ((xe - xs + 1) * (ye - ys + 1)) with hc | hc
  · rw [Panel.writeSample_inside h hc]
  · rw [Panel.writeSample_past h hc]

/-! ## A cycle on its own, at the panel -/

/-- A Data cycle on its own whose selection does not fail. -/
theorem busData_ok {s : State} (w : BusWord) (hk : s.phaseKnown) (hw : wordFits s.cfg.busWidth w.toNat = true)
    (h : s.pinAnswer 0 = false) :
    ∃ t, exec (.busData w) s = .next t ∧ BusAndResult s t ∧ t.result = some (.ok .unit) ∧ t.pending = [] ∧ t.dc = .high ∧
      t.strobe = .released ∧ t.dataOut = w ∧ t.trace = s.settledTrace ++ [.sel .data, .cyc .data w] ∧
      t.panel = s.settledPanel.data s.cfg.busWidth s.icfg.pixelFormat s.geom.width s.geom.height w := by
  rw [exec_busData_of_fits hw]
  exact cycleInstruction_ok .data w hk h

/-! ## The obligations -/

/-- Settles O53: each row is one Command cycle, which does to the panel what its opcode says. -/
theorem commandCyclesReachPanel : Obligations.CommandCyclesReachPanel := by
  intro s hk hd i op q hmem
  have hexec := exec_of_mem_namedCycles (p := s.settledPanel) hmem
  have hpanel := Panel.command_of_mem_namedCycles (p := s.settledPanel) hd hmem
  rw [hexec, ← hpanel]
  exact ⟨cycleInstruction_ok .command _ hk, cycleInstruction_fails .command _ hk⟩

/-- Settles O54: one Command cycle, of which the panel reads the low byte. -/
theorem busCmdReachesPanel : Obligations.BusCmdReachesPanel := by
  intro s w hk hw
  rw [exec_busCmd_of_fits hw]
  refine ⟨fun h => ?_, cycleInstruction_fails .command w hk⟩
  obtain ⟨t, ht, hB, hres, hq, hdc, hst, hdo, htr, hpa⟩ := cycleInstruction_ok .command w hk h
  refine ⟨t, ht, hB, hres, hq, hdc, hst, hdo, htr, fun hn => ?_, fun i op hmem hop => ?_⟩
  · exact hpa.trans (Panel.command_of_not_mem hn _)
  · obtain ⟨⟨i', op', q⟩, hrow, he⟩ :=
      List.mem_map.1 (show (i, op) ∈ (namedCycles s.cfg.opcodes s.settledPanel).map fun r => (r.1, r.2.1) from hmem)
    obtain ⟨rfl, rfl⟩ := Prod.mk.inj he
    obtain ⟨u, hu, -, -, -, -, -, -, -, hpu⟩ := cycleInstruction_ok .command (byteWord op') hk h
    refine ⟨u, (exec_of_mem_namedCycles hrow).trans hu, ?_⟩
    rw [hpa, hpu]
    exact Panel.command_congr (by simpa using hop) _ _

/-- Settles O55: one Data cycle, read in the panel's mode. -/
theorem dataCycleOutsidePixelData : Obligations.DataCycleOutsidePixelData := by
  intro s w hk hw
  refine ⟨fun h => ?_, by rw [exec_busData_of_fits hw]; exact cycleInstruction_fails .data w hk⟩
  obtain ⟨t, ht, hB, hres, hq, hdc, hst, hdo, htr, hpa⟩ := busData_ok w hk hw h
  refine ⟨t, ht, hB, hres, hq, hdc, hst, hdo, htr, ?_⟩
  rw [hpa]
  exact ⟨fun k h3 hm => Panel.data_caset h3 hm .., fun k h3 hm => Panel.data_raset h3 hm ..,
    fun hm => Panel.data_colmod hm .., fun hm => Panel.data_madctl hm .., fun hm => Panel.data_unasked hm ..⟩

/-- Settles O56: the fourth parameter of a range is a Data cycle. -/
theorem fourthParameterSetsRange : Obligations.FourthParameterSetsRange := by
  intro s w b0 b1 b2 hk h hw hb
  obtain ⟨t, ht, -, -, -, -, -, -, -, hpa⟩ := busData_ok w hk hw h
  refine ⟨fun hm => ⟨t, ht, ?_⟩, fun hm => ⟨t, ht, ?_⟩⟩
  · rw [hpa, Panel.data_caset_last hm hb]
    exact ⟨fun hle hlt => if_neg (by unfold pairValue; omega), fun hbad => if_pos hbad⟩
  · rw [hpa, Panel.data_raset_last hm hb]
    exact ⟨fun hle hlt => if_neg (by unfold pairValue; omega), fun hbad => if_pos hbad⟩

/-- Settles O57: one Data cycle in memory-write mode; a whole sample lands inside the window's area, past it, or with no window. -/
theorem dataCycleWritesPixel : Obligations.DataCycleWritesPixel := by
  intro s w hk h hw hm
  obtain ⟨t, ht, -, -, -, -, -, -, htr, hpa⟩ := busData_ok w hk hw h
  rw [Panel.data_ramWrite hm] at hpa
  refine ⟨t, ht, htr, fun hpart => hpa.trans (if_neg hpart), fun hwhole => ?_⟩
  rw [if_pos hwhole, Panel.writeSample_emptied] at hpa
  obtain ⟨hwin, hmode⟩ := s.settledPanel.writeSample_keeps
    (deserialize s.cfg.busWidth s.icfg.pixelFormat (s.settledPanel.bbuf ++ [w]))
  rw [hpa]
  refine ⟨rfl, hmode.trans hm, fun hn => ?_, fun xs ys xe ye hxy => ?_⟩
  · rw [Panel.writeSample_noWindow hn]
  · refine ⟨hwin.trans hxy, Panel.writeSample_count hxy _, fun hin => ?_, fun hpast => ?_⟩
    · rw [Panel.writeSample_inside hxy hin]
      refine ⟨Memory.read_write_same .., fun k hne => Memory.read_write_other _ _ hne, fun hx => ?_, fun hx => ?_⟩
      · simp only [nextCursor_in_row hx]
        exact ⟨trivial, fun hy => if_neg (by omega)⟩
      · simp only [nextCursor_new_row hx]
        exact ⟨trivial, fun hy => if_neg (by omega), fun hy => if_pos (by omega)⟩
    · rw [Panel.writeSample_past hxy hpast]
      exact ⟨rfl, rfl, fun x y hx => Memory.read_forget _ _ _ _ _ hx⟩

end Sys2Proof.Machine

/-! PROOFS, family 30_encoding: decoding and encoding (spec/30_encoding.md R71, R90, R91, R93). A bus row's line is a cycle word,
which `decode_cycleLine` reads back, and any other row's line is a rendered list of tokens, which `decode_render` hands to the
parser; what is left is `decodeCycle` against the bus rows, `parse` against the text rows, and the frames of a trace. -/

namespace Sys2Proof

/-! ## The bus rows -/

theorem byteWord_inj {a b : Byte} : Machine.byteWord a = Machine.byteWord b ↔ a = b :=
  ⟨fun h => by simpa using congrArg Machine.lowByte h, fun h => h ▸ rfl⟩

/-- Under different opcodes, a Command cycle with one of the seven opcodes is the row of that name (R80 to R87). -/
theorem decodeCycle_named {o : Opcodes} (hd : o.distinct) :
    decodeCycle o .command (Machine.byteWord o.slpout) = .slpout ∧
      decodeCycle o .command (Machine.byteWord o.colmod) = .colmod ∧
      decodeCycle o .command (Machine.byteWord o.caset) = .caset ∧
      decodeCycle o .command (Machine.byteWord o.raset) = .raset ∧
      decodeCycle o .command (Machine.byteWord o.ramwr) = .ramwr ∧
      decodeCycle o .command (Machine.byteWord o.madctl) = .madctl ∧
      decodeCycle o .command (Machine.byteWord o.dispon) = .dispon := by
  simp only [Opcodes.distinct, Opcodes.all, List.nodup_cons, List.mem_cons, List.not_mem_nil, or_false, not_or] at hd
  simp [decodeCycle, ← Machine.byteWord.eq_def, byteWord_inj, hd, eq_comm]

/-- A Command cycle with none of the seven opcodes is BUS_CMD (R89). -/
theorem decodeCycle_of_not_namedWord {o : Opcodes} {w : BusWord} (h : namedWord o w = false) :
    decodeCycle o .command w = .busCmd w := by
  simp only [namedWord, Opcodes.all, List.any_cons, List.any_nil, Bool.or_eq_false_iff, beq_eq_false_iff_ne] at h
  simp [decodeCycle, @eq_comm _ w, h]

/-- The row a bus cycle is spells that cycle's word, whatever the opcode values. -/
theorem spelled_decodeCycle (o : Opcodes) (p : Phase) (w : BusWord) :
    (decodeCycle o p w).spelled o = .inl (canonicalWord p w) := by
  cases p with
  | data => rfl
  | command => unfold decodeCycle; split_ifs <;> simp [Instr.spelled, *]

/-- A well-formed instruction that is spelled as a cycle word is the row that cycle is. -/
theorem decodeCycle_of_spelled {p : Params} {pf : PixelFormat} {i : Instr} {c : CycleWord} (hd : p.opcodes.distinct)
    (hw : i.wellFormed p pf = true) (h : i.spelled p.opcodes = .inl c) :
    ∃ ph w, c = canonicalWord ph w ∧ decodeCycle p.opcodes ph w = i := by
  obtain ⟨hslpout, hcolmod, hcaset, hraset, hramwr, hmadctl, hdispon⟩ := decodeCycle_named hd
  cases i with
  | slpout => cases h; exact ⟨_, _, rfl, hslpout⟩
  | colmod => cases h; exact ⟨_, _, rfl, hcolmod⟩
  | caset => cases h; exact ⟨_, _, rfl, hcaset⟩
  | raset => cases h; exact ⟨_, _, rfl, hraset⟩
  | ramwr => cases h; exact ⟨_, _, rfl, hramwr⟩
  | madctl => cases h; exact ⟨_, _, rfl, hmadctl⟩
  | dispon => cases h; exact ⟨_, _, rfl, hdispon⟩
  | busCmd w =>
    have hn : namedWord p.opcodes w = false := by simpa using (Bool.and_eq_true_iff.1 hw).2
    cases h
    exact ⟨_, _, rfl, decodeCycle_of_not_namedWord hn⟩
  | busData w => cases h; exact ⟨_, _, rfl, rfl⟩
  | select ph => cases ph <;> cases h
  | backlight on => cases on <;> cases h
  | _ => cases h

/-! ## The text rows -/

theorem readRotation_degrees (a : Rotation) : readRotation a.degrees = .ok a := by cases a <;> rfl

theorem readImageOptions_toks (m : Bool) (c : ColorOrder) (f : PixelFormat) :
    readImageOptions [.kw (boolKw m), .punct .comma, .kw c.kw, .punct .comma, .kw f.kw] = .ok (m, c, f) := by
  cases m <;> cases c <;> cases f <;> rfl

theorem transportOperands_toks (w b s d : Nat) (q : Ratio) :
    transportOperands (numbersThen [w, b, s, d] q.toks) = .ok (.transportNew w b s d q) := by
  have hn : takeNumbers 4 (numbersThen [w, b, s, d] q.toks) = _ := takeNumbers_toks [w, b, s, d] q.toks
  simp [transportOperands, hn, readDivisor_toks, Except.bind, Except.map]

theorem driverOperands_toks (rst bl : Option PinId) (w h : Nat) (a : Rotation) (m : Bool) (c : ColorOrder)
    (f : PixelFormat) :
    driverOperands (pinToks .rst rst ++ pinToks .bl bl ++ numbersThen [w, h, a.degrees]
      [.kw (boolKw m), .punct .comma, .kw c.kw, .punct .comma, .kw f.kw]) = .ok (.driverNew rst bl w h a m c f) := by
  have hn : ∀ ts, takeNumbers 3 (numbersThen [w, h, a.degrees] ts) = _ := takeNumbers_toks [w, h, a.degrees]
  simp [driverOperands, readPin_toks, hn, readRotation_degrees, readImageOptions_toks, Except.bind, Except.map]

theorem fillOperands_toks (x0 y0 x1 y1 : Coord) (c : Color) :
    fillOperands (numbersThen [x0.toNat, y0.toNat, x1.toNat, y1.toNat] c.toks) = .ok (.fill x0 y0 x1 y1 c) := by
  have hn : takeNumbers 4 (numbersThen [x0.toNat, y0.toNat, x1.toNat, y1.toNat] c.toks) = _ :=
    takeNumbers_toks [x0.toNat, y0.toNat, x1.toNat, y1.toNat] c.toks
  simp [fillOperands, hn, readWindow_toks, readLastColor_toks, Except.bind, Except.map]

theorem cmdOperands_toks (op : Byte) (ps : List Byte) :
    cmdOperands (numberToks (op.toNat :: ps.map BitVec.toNat)) = .ok (.cmd op ps) := by
  have hb : readBytes (op.toNat :: ps.map BitVec.toNat) = .ok (op :: ps) := readBytes_map (op :: ps)
  simp [cmdOperands, readNumbers_toks, hb, Except.bind]

/-- The parser reads back the tokens of every text row (R93). -/
theorem parse_of_spelled {o : Opcodes} {i : Instr} {ts : List Tok} (h : i.spelled o = .inr ts) : parse ts = .ok i := by
  cases i with
  | slpout | colmod | caset | raset | ramwr | madctl | dispon | busCmd | busData => cases h
  | take | write | init | bbox | enginePull | engineEmit | delay | resetPulse => cases h; rfl
  | select p => cases p <;> cases h <;> rfl
  | backlight on => cases on <;> cases h <;> rfl
  | transportNew => cases h; exact transportOperands_toks ..
  | driverNew => cases h; exact driverOperands_toks ..
  | fill => cases h; exact fillOperands_toks ..
  | cmd => cases h; exact cmdOperands_toks ..
  | burst => cases h; simp [parse, operation, readNumbers_toks, Except.map]
  | setWindow => cases h; simp [parse, operation, readNumbers_toks, readWindow_toks, Except.bind, Except.map]
  | stream => cases h; simp [parse, operation, readSamples_toks, Except.map]
  | clear => cases h; simp [parse, operation, readLastColor_toks, Except.map]
  | draw => cases h; simp [parse, operation, readPixels_toks, Except.map]

/-! ## The frames of a trace -/

/-- The frame that begins with a cycle and goes on with the data words `ds`. -/
def Frame.startingWith (p : Phase) (w : BusWord) (ds : List BusWord) : Frame :=
  match p with
  | .command => ⟨some w, ds⟩
  | .data => ⟨none, w :: ds⟩

@[simp] theorem Frame.startingWith_cycles (p : Phase) (w : BusWord) (ds : List BusWord) :
    (Frame.startingWith p w ds).cycles = (p, w) :: Frame.cycles ⟨none, ds⟩ := by
  cases p <;> rfl

/-- A cycle before a trace joins the orphan words the trace begins with, or is a frame of its own where the trace begins with a
Command cycle or is empty (R91). -/
theorem splitFrames_cons (p : Phase) (w : BusWord) (cs : List (Phase × BusWord)) :
    (∃ ds fs, splitFrames cs = ⟨none, ds⟩ :: fs ∧ splitFrames ((p, w) :: cs) = Frame.startingWith p w ds :: fs) ∨
      ((∀ f ∈ (splitFrames cs).head?, f.opcode ≠ none) ∧
        splitFrames ((p, w) :: cs) = Frame.startingWith p w [] :: splitFrames cs) := by
  rcases hs : splitFrames cs with _ | ⟨⟨_ | v, ds⟩, fs⟩
  · exact .inr ⟨by simp, by cases p <;> simp [splitFrames, hs, Frame.startingWith]⟩
  · exact .inl ⟨ds, fs, rfl, by cases p <;> simp [splitFrames, hs, Frame.startingWith]⟩
  · exact .inr ⟨by simp, by cases p <;> simp [splitFrames, hs, Frame.startingWith]⟩

/-- The split loses no cycle (R91). -/
theorem splitFrames_cycles (cs : List (Phase × BusWord)) : (splitFrames cs).flatMap Frame.cycles = cs := by
  induction cs with
  | nil => rfl
  | cons c cs ih =>
    obtain ⟨p, w⟩ := c
    obtain ⟨ds, fs, hs, hc⟩ | ⟨-, hc⟩ := splitFrames_cons p w cs
    · rw [hs, List.flatMap_cons] at ih
      rw [hc, List.flatMap_cons, Frame.startingWith_cycles, List.cons_append, ih]
    · rw [hc, List.flatMap_cons, Frame.startingWith_cycles, ih]
      rfl

/-- Every frame after the first begins with a Command cycle (R91). -/
theorem splitFrames_tail_opcode (cs : List (Phase × BusWord)) : ∀ f ∈ (splitFrames cs).tail, f.opcode ≠ none := by
  induction cs with
  | nil => simp [splitFrames]
  | cons c cs ih =>
    obtain ⟨ds, fs, hs, hc⟩ | ⟨hhead, hc⟩ := splitFrames_cons c.1 c.2 cs
    · rw [hc]
      simpa [hs] using ih
    · rw [hc, List.tail_cons]
      intro f hf
      cases hs : splitFrames cs with
      | nil => simp [hs] at hf
      | cons g fs =>
        rw [hs] at hhead ih hf
        rcases List.mem_cons.1 hf with rfl | hf
        · exact hhead f rfl
        · exact ih f hf

/-! ## The obligations -/

/-- Settles O2: a bus row's line is read back as the cycle it is, a text row's line as the tokens it was rendered from. -/
theorem decodeInvertsEncode : Obligations.DecodeInvertsEncode := by
  intro p pf i hd hw
  unfold encode
  split
  next c hs =>
    obtain ⟨ph, w, rfl, hi⟩ := decodeCycle_of_spelled hd hw hs
    rw [decode_cycleLine, hi]
  next ts hs => rw [decode_render, parse_of_spelled hs]

/-- Settles O3: the instruction is the row `decodeCycle` names, which spells the same cycle. -/
theorem everyCycleIsAnInstruction : Obligations.EveryCycleIsAnInstruction := by
  intro o p w
  exact ⟨decodeCycle o p w, decode_cycleLine o p w, by simp only [encode, spelled_decodeCycle]⟩

/-- Settles O4, by induction on the trace. -/
theorem traceSplitsIntoFrames : Obligations.TraceSplitsIntoFrames :=
  fun cs => ⟨splitFrames_cycles cs, splitFrames_tail_opcode cs⟩

/-- Settles O1: each word and each line is decoded by evaluation. -/
theorem tableWordsDecode : Obligations.TableWordsDecode := by
  unfold Obligations.TableWordsDecode
  decide

end Sys2Proof

/-! PROOFS, family 40_transport: the Parallel Bus Engine (spec/40_transport.md R97 to R106). What each operation does where nothing
is queued without a phase stands in Laws/Engine.lean; what is added here is the engine's step by its phase, the hold on a full FIFO,
and the run after HOST's last operation, which is a run of the engine. -/

namespace Sys2Proof.Machine

/-! ## Calls of the transport's owner -/

theorem asTransport_of_owner {s : State} (h : s.owner = .transport) (f : State → Flow) :
    asTransport f s = (f s).finish .unit := by simp [asTransport, h]

theorem exec_select_of_owner {s : State} (p : Phase) (h : s.owner = .transport) :
    exec (.select p) s = (selectPhase p s).finish .unit := asTransport_of_owner h _

theorem exec_write_of_fits {s : State} {w : Nat} (h : s.owner = .transport) (hw : wordFits s.cfg.busWidth w = true) :
    exec (.write w) s = (writeWord (BitVec.ofNat 16 w) s).finish .unit :=
  (if_pos hw).trans (asTransport_of_owner h _)

theorem exec_write_of_wide {s : State} {w : Nat} (hw : wordFits s.cfg.busWidth w = false) :
    exec (.write w) s = .refused (.wordTooWide { s with refused := true }) :=
  if_neg (by simpa [wordsFit] using hw)

theorem exec_burst_of_fits {s : State} {ws : List Nat} (h : s.owner = .transport)
    (hw : ∀ w ∈ ws, wordFits s.cfg.busWidth w = true) :
    exec (.burst ws) s = (writeWords (ws.map (BitVec.ofNat 16)) s).finish .unit :=
  (if_pos (List.all_eq_true.2 hw)).trans (asTransport_of_owner h _)

theorem exec_burst_of_wide {s : State} {ws : List Nat} (hw : ∃ w ∈ ws, wordFits s.cfg.busWidth w = false) :
    exec (.burst ws) s = .refused (.wordTooWide { s with refused := true }) :=
  if_neg (by simpa [wordsFit] using hw)

/-- DC's level is told by its phase, so where the phase is known and the same, DC is the same (R21). -/
theorem dc_eq_of_phase? {s t : State} {p : Phase} (hs : s.phase? = some p) (ht : t.phase? = some p) : t.dc = s.dc :=
  (dc_of_phase? ht).trans (dc_of_phase? hs).symm

theorem phase?_of_unset {s : State} (h : s.dc = .unset) : s.phase? = none := by simp [State.phase?, h, pinPhase]

/-! ## The engine's phase and its step -/

theorem enginePhase_eq_readyToPull_iff (s : State) :
    s.enginePhase = .readyToPull ↔ s.cfg.engineKind = .fifo ∧ s.osr = none ∧ s.fifo ≠ [] := by
  unfold State.enginePhase
  cases s.cfg.engineKind with
  | direct => simp
  | fifo =>
    cases s.osr with
    | some w => simp
    | none => cases s.fifo <;> simp

theorem enginePhase_eq_busy_iff (s : State) :
    s.enginePhase = .busy ↔ s.cfg.engineKind = .fifo ∧ ∃ w, s.osr = some w := by
  unfold State.enginePhase
  cases s.cfg.engineKind with
  | direct => simp
  | fifo =>
    cases s.osr with
    | some w => simp
    | none => cases s.fifo <;> simp

theorem enginePhase_of_idle {s : State} (h : s.pending = []) : s.enginePhase = .stalled := by
  unfold State.pending at h
  unfold State.enginePhase
  cases hk : s.cfg.engineKind with
  | direct => rfl
  | fifo =>
    simp only [hk, List.append_eq_nil_iff, Option.toList_eq_nil_iff] at h
    simp [h]

theorem engineStep_of_idle {s : State} (h : s.pending = []) : engineStep s = .ok s := by
  simp [engineStep, enginePhase_of_idle h]

theorem pull_of_cons {s : State} {w : BusWord} {ws : List BusWord} (hf : s.fifo = w :: ws) :
    pull s = { s with osr := some w, fifo := ws } := by simp [pull, hf]

theorem emitWord_of_phase? {s : State} {w : BusWord} {p : Phase} (ho : s.osr = some w) (hp : s.phase? = some p) :
    emitWord s = .ok { busCycle p w s with osr := none } := by simp [emitWord, strobeWord, ho, hp]

theorem emitWord_of_unset {s : State} {w : BusWord} (ho : s.osr = some w) (hd : s.dc = .unset) :
    emitWord s = phaseUnset s := by simp [emitWord, strobeWord, ho, phase?_of_unset hd, phaseUnset]

/-- ENGINE_PULL's effect, where it is the enabled step (R102). -/
theorem engineStep_of_queued {s : State} {w : BusWord} {ws : List BusWord} (hk : s.cfg.engineKind = .fifo) (ho : s.osr = none)
    (hf : s.fifo = w :: ws) : engineStep s = .ok { s with osr := some w, fifo := ws } := by
  have hr : s.enginePhase = .readyToPull := (enginePhase_eq_readyToPull_iff s).2 ⟨hk, ho, by simp [hf]⟩
  simp [engineStep, hr, pull_of_cons hf]

/-- ENGINE_EMIT's effect, where it is the enabled step (R103). -/
theorem engineStep_of_inFlight {s : State} {w : BusWord} {p : Phase} (hk : s.cfg.engineKind = .fifo) (ho : s.osr = some w)
    (hp : s.phase? = some p) : engineStep s = .ok { busCycle p w s with osr := none } := by
  have hb : s.enginePhase = .busy := (enginePhase_eq_busy_iff s).2 ⟨hk, w, ho⟩
  simp [engineStep, hb, emitWord_of_phase? ho hp]

theorem exec_enginePull_of_ready {s : State} (h : s.enginePhase = .readyToPull) : exec .enginePull s = .next (pull s) := by
  simp [exec, execEnginePull, h]

theorem exec_enginePull_of_disabled {s : State} (h : s.enginePhase ≠ .readyToPull) : exec .enginePull s = .next s := by
  cases hp : s.enginePhase with
  | readyToPull => exact absurd hp h
  | stalled => simp [exec, execEnginePull, hp]
  | busy => simp [exec, execEnginePull, hp]

theorem exec_engineEmit_of_busy {s : State} (h : s.enginePhase = .busy) : exec .engineEmit s = (emitWord s).silent := by
  simp [exec, execEngineEmit, h]

theorem exec_engineEmit_of_disabled {s : State} (h : s.enginePhase ≠ .busy) : exec .engineEmit s = .next s := by
  cases hp : s.enginePhase with
  | busy => exact absurd hp h
  | stalled => simp [exec, execEngineEmit, hp]
  | readyToPull => simp [exec, execEngineEmit, hp]

/-! ## TRANSPORT_NEW -/

theorem exec_transportNew_of_handle {s : State} (width : Nat) (pb sp dp : PinId) (q : Ratio) (h : s.handle = true) :
    exec (.transportNew width pb sp dp q) s = (buildTransport width pb sp dp q { s with handle := false }).finish .unit :=
  if_pos h

theorem buildTransport_wrongWidth {s : State} {width : Nat} (pb sp dp : PinId) (q : Ratio)
    (hw : width ≠ s.cfg.busWidth.bits) :
    buildTransport width pb sp dp q s = .err (.configuration .widthMismatch) s := if_pos hw

theorem buildTransport_notInstalled {s : State} {width : Nat} (pb sp dp : PinId) (q : Ratio)
    (hw : width = s.cfg.busWidth.bits) (hi : s.installAnswer = true) :
    buildTransport width pb sp dp q s = .err (.configuration .installFailed) s.installDrawn :=
  (if_neg (not_not_intro hw)).trans (if_pos hi)

theorem buildTransport_ok {s : State} {width : Nat} (pb sp dp : PinId) (q : Ratio) (hw : width = s.cfg.busWidth.bits)
    (hi : s.installAnswer = false) :
    buildTransport width pb sp dp q s = .ok (newTransport width pb sp dp q s.installDrawn) :=
  (if_neg (not_not_intro hw)).trans (if_neg (by simp [hi]))

/-- An empty FIFO with no word in flight reads TXEMPTY = 1, TXFULL = 0, IDLE = 1, in either kind (R24; FIFO_DEPTH ≥ 1 by R7). -/
theorem flags_of_empty {s : State} (hf : s.fifo = []) (ho : s.osr = none) :
    s.txEmpty = true ∧ s.txFull = false ∧ s.idle = true := by
  cases hk : s.cfg.engineKind <;> simp [State.txEmpty, State.txFull, State.idle, hk, hf, ho, Params.fifoDepth]

/-! ## SELECT -/

/-- SELECT where no word is queued without a phase: the drain ends in IDLE, and what is left is the drive of DC (R99). -/
theorem selectPhase_drained (p : Phase) {s : State} (hk : s.phaseKnown) :
    ∃ d, selectPhase p s = setPin .dc (phaseLevel p) (.sel p) d ∧ EngineOnly s d ∧ d.pending = [] ∧
      d.trace = s.settledTrace ∧ d.panel = s.settledPanel := by
  obtain ⟨d, hd, hE, -, hp, htr, hpa⟩ := drain_spec hk
  exact ⟨d, by simp [selectPhase, hd], hE, hp, htr, hpa⟩

/-- A drive that does not fail: the pin is at the level, and the drive is an event (R9); `setPin_fails` is the other answer. -/
theorem setPin_holds {s : State} (p : Pin) (l : Level) (e : Event) (h : s.pinAnswer 0 = false) :
    setPin p l e s = .ok ((s.pinDrawn.withPin p l.pin).emit e) := if_neg (by simp [h])

/-- What a drive of DC after a drain has changed of the state before it is the bus's. -/
theorem busOnly_of_driven {s d : State} (hE : EngineOnly s d) (l : PinLevel) (e : Event) :
    BusOnly s ((d.pinDrawn.withPin .dc l).emit e) :=
  hE.bus.trans (by simp [BusOnly, State.emit, State.withPin, State.pinDrawn])

theorem env_of_driven {s d : State} (hE : EngineOnly s d) (l : PinLevel) (e : Event) :
    ((d.pinDrawn.withPin .dc l).emit e).env = s.pinDrawn.env := by
  simp [State.pinDrawn, hE.env]

/-! ## WRITE -/

theorem txFull_iff {s : State} (hk : s.cfg.engineKind = .fifo) : s.txFull = true ↔ s.fifo.length = s.cfg.fifoDepth := by
  simp [State.txFull, hk]

theorem writeWord_fifo {s t : State} (w : BusWord) (hk : s.cfg.engineKind = .fifo)
    (h : (engineTurns s).andThen holdWhileFull = .ok t) : writeWord w s = .ok { t with fifo := t.fifo ++ [w] } := by
  simp [writeWord, hk, h]

theorem writeWord_direct {s : State} (w : BusWord) (hk : s.cfg.engineKind = .direct) : writeWord w s = strobeWord w s := by
  simp [writeWord, hk]

/-- Where ENGINE cannot move, or its draw is of no step, only that draw is made before the push. -/
theorem engineTurns_of_none {s : State} (h : s.pending = [] ∨ s.turnsAnswer = 0) :
    ∃ e, engineTurns s = .ok { s with env := e } := by
  unfold engineTurns
  by_cases hp : s.pending = []
  · exact ⟨s.env, if_neg (by simp [hp])⟩
  · have h0 : s.turnsAnswer = 0 := h.resolve_left hp
    exact ⟨s.turnsDrawn.env, by simp [hp, h0, runEngine, State.turnsDrawn]⟩

theorem holdWhileFull_of_room {s : State} (h : s.txFull = false) : holdWhileFull s = .ok s := if_neg (by simp [h])

/-- The hold on a full FIFO ends with its head in flight; the word that was in flight, where there was one, is strobed (R100). -/
theorem holdWhileFull_of_full {s : State} {p : Phase} {h : BusWord} {rest : List BusWord} (hk : s.cfg.engineKind = .fifo)
    (hfull : s.txFull = true) (hp : s.phase? = some p) (hf : s.fifo = h :: rest) :
    ∃ t, holdWhileFull s = .ok t ∧ BusOnly s t ∧ t.dc = s.dc ∧ t.fifo = rest ∧ t.osr = some h ∧
      t.trace = s.trace ++ s.osr.toList.map (fun v => .cyc p v) := by
  rw [holdWhileFull, if_pos hfull]
  cases ho : s.osr with
  | none =>
    have hroom : State.txFull { s with osr := some h, fifo := rest } = false := by
      have hlen := (txFull_iff hk).1 hfull
      simp only [hf, List.length_cons] at hlen
      simp [State.txFull, hk]
      omega
    refine ⟨{ s with osr := some h, fifo := rest }, ?_, rfl, rfl, rfl, rfl, by simp⟩
    rw [engineStep_of_queued hk ho hf, andThen_ok, hroom]
    rfl
  | some v =>
    have hstill : State.txFull { busCycle p v s with osr := none } = true := hfull
    refine ⟨{ busCycle p v s with osr := some h, fifo := rest }, ?_, rfl, rfl, rfl, rfl, by simp⟩
    rw [engineStep_of_inFlight hk ho hp, andThen_ok, if_pos hstill]
    exact engineStep_of_queued hk rfl hf

/-! ## After HOST's last operation -/

/-- HOST has returned from its last operation, no line is placed, and no mark is set: only ENGINE can move (R106). -/
def State.hostDone (s : State) : Prop :=
  s.probe = none ∧ s.prog.length ≤ s.idx ∧ s.faultedModel = false ∧ s.refused = false

theorem EngineOnly.hostDone {s t : State} (h : EngineOnly s t) (hs : s.hostDone) : t.hostDone := by
  have hb := h.bus
  simpa [State.hostDone, hb.probe, hb.prog, hb.idx, hb.faultedModel, hb.refused] using hs

theorem State.hostDone.normalEnd {s : State} (h : s.hostDone) (hp : s.pending = []) : s.normalEnd := by
  obtain ⟨hpr, hh, hf, hr⟩ := h
  exact ⟨hpr, hh, (idle_iff s).2 hp, hf, hr⟩

theorem nextAgent_none_of_idle {s : State} (hh : s.prog.length ≤ s.idx) (hp : s.pending = []) :
    nextAgent s = (none, s) := by
  simp [nextAgent, hostEnabled_iff, hh, hp]

/-- After HOST's last operation a step is the engine's, which is no change where the engine is stalled (R105). -/
theorem step_of_hostDone {s : State} (h : s.hostDone) : step s = (engineStep s).silent := by
  obtain ⟨hpr, hh, hf, hr⟩ := h
  by_cases hp : s.pending = []
  · simp [step, hf, hr, hpr, nextAgent_none_of_idle hh hp, engineStep_of_idle hp]
  · simp [step, hf, hr, hpr, nextAgent_engine_alone hh hp, exec_engineInstr]

/-- After HOST's last operation a run is a run of the engine. -/
theorem run_of_hostDone (n : Nat) {s : State} (h : s.hostDone) (hk : s.phaseKnown) :
    Sys2Proof.core.run n s = (runEngine n s).silent := by
  induction n generalizing s with
  | zero => rfl
  | succ n ih =>
    obtain ⟨t, ht, hE, -, hkt, -, -⟩ := engineStep_spec hk
    have hstep : step s = .next t := by rw [step_of_hostDone h, ht]; rfl
    rw [run_succ hstep, ih (hE.hostDone h) hkt, runEngine, ht, andThen_ok]

/-! ## The obligations -/

/-- Settles O8: a run of the engine, long enough to strobe every pending word. -/
theorem runReachesNormalEnd : Obligations.RunReachesNormalEnd := by
  intro s hpr hh hf hr hk
  have hs : s.hostDone := ⟨hpr, hh, hf, hr⟩
  obtain ⟨t, ht, hE, ⟨htr, hpa⟩, -, hdone, -⟩ := runEngine_spec (2 * s.fifo.length + s.osr.toList.length) hk
  have hp : t.pending = [] := hdone (le_refl _)
  have htd : t.hostDone := hE.hostDone hs
  refine ⟨t, by rw [run_of_hostDone _ hs hk, ht]; rfl, htd.normalEnd hp, ?_, ?_, ?_⟩
  · rw [← settledTrace_of_idle hp]; simpa using htr
  · rw [← settledPanel_of_idle hp]; simpa using hpa
  · rw [step_of_hostDone htd, engineStep_of_idle hp]; rfl

/-- Settles O16: the width check, then the install draw, then the construction. -/
theorem transportNewOutcomes : Obligations.TransportNewOutcomes := by
  intro s width pb sp dp q hh
  rw [exec_transportNew_of_handle width pb sp dp q hh]
  refine ⟨fun hw => ?_, fun hw hi => ?_, fun hw hi => ?_⟩
  · rw [buildTransport_wrongWidth (s := { s with handle := false }) pb sp dp q hw]; rfl
  · rw [buildTransport_notInstalled (s := { s with handle := false }) pb sp dp q hw hi]; rfl
  · rw [buildTransport_ok (s := { s with handle := false }) pb sp dp q hw hi]
    exact ⟨_, rfl, rfl, onBus_fits _ _, flags_of_empty rfl rfl⟩

/-- Settles O17: after the drain, the one pin drive answers either way. -/
theorem selectDrainsThenDrives : Obligations.SelectDrainsThenDrives := by
  intro s p ho hk
  obtain ⟨d, hd, hE, hp, htr, hpa⟩ := selectPhase_drained p hk
  have hans : d.pinAnswer 0 = s.pinAnswer 0 := by simp [State.pinAnswer, hE.env]
  rw [exec_select_of_owner p ho, hd]
  cases ha : s.pinAnswer 0 with
  | false =>
    rw [setPin_holds _ _ _ (hans.trans ha)]
    refine ⟨_, rfl, (busOnly_of_driven hE _ _).withResult _, hp, hpa, env_of_driven hE (phaseLevel p).pin (.sel p),
      fun _ => ⟨rfl, ?_, ?_⟩, nofun⟩
    · cases p <;> rfl
    · simp [htr]
  | true =>
    rw [setPin_fails _ _ _ (hans.trans ha)]
    refine ⟨_, rfl, (busOnly_of_driven hE _ _).withResult _, hp, hpa, env_of_driven hE .unset (.pinFault .dc),
      nofun, fun _ => ⟨rfl, rfl, ?_⟩⟩
    simp [htr]

/-- Settles O18: a push, before which the engine has made room. -/
theorem writeAddsOneCycle : Obligations.WriteAddsOneCycle := by
  intro s w p ho hk hw hp hlen
  obtain ⟨t, ht, hB, hM, hpt, -⟩ := writeWord_ok (BitVec.ofNat 16 w) hp
  obtain ⟨b, hb, -, -, -, -, -, hroom⟩ := beforePush_spec (phaseKnown_of_phase? hp) hk
  obtain rfl : { b with fifo := b.fifo ++ [BitVec.ofNat 16 w] } = t := by
    rw [writeWord_fifo _ hk hb] at ht
    cases ht
    rfl
  rw [exec_write_of_fits ho hw, ht]
  refine ⟨_, rfl, hB.withResult _, rfl, hM.withResult _, dc_eq_of_phase? hp hpt, ?_, by simp⟩
  simpa using hroom hlen

/-- Settles O19: there is room, and the push follows at once; or there is none, and the hold pulls one word. -/
theorem writePushesOrHolds : Obligations.WritePushesOrHolds := by
  intro s w ho hk hw hturns
  obtain ⟨e, he⟩ := engineTurns_of_none hturns
  rw [exec_write_of_fits ho hw]
  refine ⟨fun hroom => ?_, fun p h rest hfull hp hf => ?_⟩
  · have hbefore : (engineTurns s).andThen holdWhileFull = .ok { s with env := e } := by
      rw [he, andThen_ok]; exact holdWhileFull_of_room hroom
    rw [writeWord_fifo _ hk hbefore]
    exact ⟨_, rfl, by simp [State.txEmpty, hk], rfl⟩
  · obtain ⟨t, ht, hB, hdc, hft, hot, htr⟩ := holdWhileFull_of_full (s := { s with env := e }) hk hfull hp hf
    have hbefore : (engineTurns s).andThen holdWhileFull = .ok t := by rw [he, andThen_ok, ht]
    have hBs : BusOnly s { t with fifo := t.fifo ++ [BitVec.ofNat 16 w] } := hB.trans rfl
    rw [writeWord_fifo _ hk hbefore]
    exact ⟨_, rfl, hBs.withResult _, rfl, hdc, by simp [hft], hot, htr⟩

/-- Settles O21: the whole list is checked first; then each word is one cycle. -/
theorem burstWritesInOrder : Obligations.BurstWritesInOrder := by
  intro s ws ho
  refine ⟨exec_burst_of_wide, ?_, fun p hw hp => ?_⟩
  · rintro rfl
    rw [exec_burst_of_fits ho (by simp)]
    rfl
  · obtain ⟨t, ht, hB, hM, hpt, -⟩ := writeWords_ok (ws.map (BitVec.ofNat 16)) hp
    rw [exec_burst_of_fits ho hw, ht]
    rw [List.map_map] at hM
    exact ⟨_, rfl, hB.withResult _, rfl, hM.withResult _, dc_eq_of_phase? hp hpt⟩

/-- Settles O15: TAKEN tells the first call from the others. -/
theorem takeGivesHandleOnce : Obligations.TakeGivesHandleOnce :=
  fun _ => ⟨fun h => if_neg (by simp [h]), fun h => if_pos h⟩

/-- Settles O20: the width check, then the strobe with the phase DC has. -/
theorem writeDirectStrobes : Obligations.WriteDirectStrobes := by
  intro s w ho hk
  refine ⟨exec_write_of_wide, fun hw hd => ?_, fun p hw hp => ?_⟩
  · rw [exec_write_of_fits ho hw, writeWord_direct _ hk, strobeWord, phase?_of_unset hd]
    rfl
  · rw [exec_write_of_fits ho hw, writeWord_direct _ hk, strobeWord, hp]
    exact ⟨_, rfl, by simp [State.idle, hk], rfl⟩

/-- Settles O22: the enabled pull is `pull`, after which a word is in flight. -/
theorem enginePullTakesHead : Obligations.EnginePullTakesHead := by
  intro s hk
  have hready := enginePhase_eq_readyToPull_iff s
  refine ⟨by simpa [hk] using hready, fun w ws ho hf => ?_⟩
  rw [exec_enginePull_of_ready (hready.2 ⟨hk, ho, by simp [hf]⟩), pull_of_cons hf]
  exact ⟨_, rfl, rfl, by simp [State.idle, hk]⟩

/-- Settles O23: the enabled emit is `emitWord`, with the phase DC has. -/
theorem engineEmitStrobesOnce : Obligations.EngineEmitStrobesOnce := by
  intro s hk
  have hbusy := enginePhase_eq_busy_iff s
  refine ⟨by simpa [hk] using hbusy, fun w p ho hp => ?_, fun w ho hd => ?_⟩
  · rw [exec_engineEmit_of_busy (hbusy.2 ⟨hk, w, ho⟩), emitWord_of_phase? ho hp]
    rfl
  · rw [exec_engineEmit_of_busy (hbusy.2 ⟨hk, w, ho⟩), emitWord_of_unset ho hd]
    rfl

/-- Settles O24: the engine's phase is not the one the step needs. -/
theorem disabledEngineStepChangesNothing : Obligations.DisabledEngineStepChangesNothing := by
  intro s
  refine ⟨fun h => exec_enginePull_of_disabled fun hr => ?_, fun h => exec_engineEmit_of_disabled fun hb => ?_⟩
  · obtain ⟨hk, ho, hf⟩ := (enginePhase_eq_readyToPull_iff s).1 hr
    simp [hk, ho, hf] at h
  · obtain ⟨hk, w, ho⟩ := (enginePhase_eq_busy_iff s).1 hb
    simp [hk, ho] at h

end Sys2Proof.Machine

/-! PROOFS, family 41_sequencer_init: the Panel Sequencer's construction and initialization (spec/41_sequencer_init.md R109 to R119).
What CMD, DELAY, RESET_PULSE and the initialization list do where no pin drive fails stands in Laws/Engine.lean and
Laws/Sequencer.lean, and how INIT can end in Laws/NoFault.lean; what is added here is the drive that fails, INIT as a whole, the
frame of each bus operation, and which instruction moves CTRL. -/

namespace Sys2Proof.Machine

/-! ## Calls that are accepted -/

theorem asDriver_of_owner {s : State} (h : s.owner = .driver) (v : Value) (f : State → Flow) :
    asDriver v f s = (f s).finish v := by simp [asDriver, h]

theorem exec_init_of_owner {s : State} (ho : s.owner = .driver) (hc : s.ctrl ≠ .faulted) :
    exec .init s = (runInit s).finish .unit := by
  rw [← show initPanel s = runInit s from if_neg hc]
  exact asDriver_of_owner ho _ _

theorem exec_cmd_of_owner {s : State} (ho : s.owner ≠ .none) (op : Byte) (ps : List Byte) :
    exec (.cmd op ps) s = (sendCommand op ps s).finish .unit := by
  cases h : s.owner with
  | none => exact absurd h ho
  | transport => simp [exec, execCmd, h]
  | driver => simp [exec, execCmd, h]

theorem exec_resetPulse_of_owner {s : State} (ho : s.owner = .driver) (hr : s.rstPin ≠ none) :
    exec .resetPulse s = (pulseReset s).finish .unit := by
  simp [exec, execResetPulse, ho, Option.isSome_iff_ne_none, hr]

theorem exec_backlight_of_owner {s : State} (ho : s.owner = .driver) (hb : s.blPin ≠ none) (on : Bool) :
    exec (.backlight on) s =
      (setPin .bl (if on then .high else .low) (.bl (if on then .high else .low)) s).finish .unit := by
  simp [exec, execBacklight, ho, Option.isSome_iff_ne_none, hb]

theorem exec_driverNew_of_owner {s : State} (ho : s.owner = .transport) (rst bl : Option PinId) (width height : Nat)
    (rot : Rotation) (mirror : Bool) (order : ColorOrder) (pf : PixelFormat) :
    exec (.driverNew rst bl width height rot mirror order pf) s =
      (buildDriver rst bl ⟨width, height, rot⟩ ⟨mirror, order, pf⟩ { s with owner := .none }).finish .unit := by
  simp [exec, execDriverNew, ho]

/-! ## DRIVER_NEW -/

theorem geometryOk_iff (width height : Nat) :
    geometryOk width height = true ↔ 1 ≤ width ∧ width ≤ 65535 ∧ 1 ≤ height ∧ height ≤ 65535 := by
  simp [geometryOk, and_assoc]

theorem formatOk_iff (bw : BusWidth) (pf : PixelFormat) : formatOk bw pf = true ↔ (bw = .w16 → pf = .pf16) := by
  cases bw <;> cases pf <;> decide

section

variable {s : State} (rst bl : Option PinId) {g : PanelGeometry} {c : InitConfig}

theorem buildDriver_badGeometry (hg : geometryOk g.width g.height = false) :
    buildDriver rst bl g c s = .err (.configuration .badGeometry) s := if_pos (by simp [hg])

theorem buildDriver_unsupportedFormat (hg : geometryOk g.width g.height = true)
    (hf : formatOk s.cfg.busWidth c.pixelFormat = false) :
    buildDriver rst bl g c s = .err (.configuration .unsupportedFormat) s :=
  (if_neg (by simp [hg])).trans (if_pos (by simp [hf]))

theorem buildDriver_ok (hg : geometryOk g.width g.height = true) (hf : formatOk s.cfg.busWidth c.pixelFormat = true) :
    buildDriver rst bl g c s = .ok (newDriver rst bl g c s) :=
  (if_neg (by simp [hg])).trans (if_neg (by simp [hf]))

end

/-! ## What moves CTRL -/

/-- Under a driver, whose handle is gone, only INIT moves CTRL; it leaves Faulted as it is and else ends Ready or Faulted (R110,
R117). -/
theorem exec_ctrl_of_driven {i : Instr} {s t : State} (h : s.driven) (he : exec i s = .next t) :
    t.ctrl = s.ctrl ∨ (i = .init ∧ s.ctrl ≠ .faulted ∧ (t.ctrl = .ready ∨ t.ctrl = .faulted)) := by
  obtain ⟨ho, -, hh⟩ := h
  cases hc : constructs i with
  | false => exact (exec_kept hc he).ctrl
  | true =>
    obtain rfl | ⟨_, _, _, _, _, rfl⟩ | ⟨_, _, _, _, _, _, _, _, rfl⟩ := constructs_eq_true hc
    · obtain ⟨-, rfl⟩ | ⟨-, rfl⟩ := exec_take_next he
      · exact .inl rfl
      · exact .inl rfl
    · exact absurd (exec_transportNew_next he).1 (by simp [hh])
    · exact absurd (exec_driverNew_next he).1 (by simp [ho])

/-- Under a driver, a step that moves CTRL is the step of a line that spells INIT (R110). -/
theorem step_ctrl_of_driven {s u : State} (h : s.driven) (hs : step s = .next u) :
    u.ctrl = s.ctrl ∨ (fetch s = .ok .init ∧ s.ctrl ≠ .faulted ∧ (u.ctrl = .ready ∨ u.ctrl = .faulted)) := by
  obtain ⟨-, -, ⟨l, i, hl, hd, he⟩ | ⟨-, rfl | ⟨t, ht, -, he⟩ | ⟨t, i, v, ht, hf, -, -, he, rfl⟩⟩⟩ := step_cases hs
  · obtain hc | ⟨rfl, hc⟩ := exec_ctrl_of_driven (s := { s with probe := none }) h he
    · exact .inl hc
    · exact .inr ⟨by simp [fetch, State.line?, hl, hd], hc⟩
  · exact .inl rfl
  · have hc : u.ctrl = t.ctrl := (kept_of_silent (i := .enginePull) (engineStep_sound t) he).ctrl.resolve_right (by simp)
    rcases ht with rfl | rfl
    · exact .inl hc
    · exact .inl hc
  · have hc : v.ctrl = t.ctrl ∨ (i = .init ∧ t.ctrl ≠ .faulted ∧ (v.ctrl = .ready ∨ v.ctrl = .faulted)) := by
      rcases ht with rfl | rfl
      · exact exec_ctrl_of_driven h he
      · exact exec_ctrl_of_driven (s := s.scheduleDrawn) h he
    have hts : t.ctrl = s.ctrl := by rcases ht with rfl | rfl <;> rfl
    rw [hts] at hc
    exact hc.imp id fun ⟨hi, h'⟩ => ⟨hi ▸ hf, h'⟩

/-! ## The frame of the bus operations -/

/-- An operation on the bus that returns has changed the bus side and the result. -/
theorem busAndResult_of_finish {f : Flow} {v : Value} {s t : State} (h : f.Keeps (BusSound s)) (he : f.finish v = .next t) :
    BusAndResult s t := by
  cases f with
  | ok u => cases he; exact h.1.withResult _
  | err e u => cases he; exact h.1.withResult _
  | fault x => cases he

theorem busAndResult_of_asTransport {f : State → Flow} {s t : State} (h : (f s).Keeps (BusSound s))
    (he : asTransport f s = .next t) : BusAndResult s t := by
  unfold asTransport at he
  split at he
  · cases he
  · cases he
  · exact busAndResult_of_finish h he

theorem busAndResult_of_asDriver {f : State → Flow} {v : Value} {s t : State} (h : (f s).Keeps (BusSound s))
    (he : asDriver v f s = .next t) : BusAndResult s t := by
  unfold asDriver at he
  split at he
  · exact busAndResult_of_finish h he
  · cases he
  · cases he

/-- What is refused unless a check holds has passed the check where it answers a next state. -/
theorem next_of_guarded {b : Bool} {o : Host.Outcome State Fault Refusal} {r : State → Refusal} {s t : State}
    (h : (if b then o else refuse r s) = .next t) : b = true ∧ o = .next t := by
  cases b with
  | true => exact ⟨rfl, h⟩
  | false => cases h

theorem draw_busAndResult {s t : State} {i : Instr} (hd : drawsPanel i = true) (he : exec i s = .next t) :
    BusAndResult s t := by
  unfold drawsPanel at hd
  split at hd
  · exact busAndResult_of_asDriver (setWindow_sound _ _ _ _ s) he
  · exact busAndResult_of_asDriver (streamSamples_sound _ s) (next_of_guarded he).2
  · exact busAndResult_of_asDriver (fillWindow_sound _ _ _ _ _ s) (next_of_guarded he).2
  · next c => exact busAndResult_of_asDriver (f := clearPanel c) (fillWindow_sound _ _ _ _ _ s) (next_of_guarded he).2
  · exact busAndResult_of_asDriver (whenReady_sound (drawPixels_sound _ s)) (next_of_guarded he).2
  · cases hd

theorem write_busAndResult {s t : State} {w : Nat} (he : exec (.write w) s = .next t) : BusAndResult s t := by
  obtain ⟨hw, he⟩ := next_of_guarded he
  exact busAndResult_of_asTransport (writeWord_sound s (wordFits_ofNat hw)) he

theorem burst_busAndResult {s t : State} {ws : List Nat} (he : exec (.burst ws) s = .next t) : BusAndResult s t := by
  obtain ⟨hw, he⟩ := next_of_guarded he
  refine busAndResult_of_asTransport (writeWords_sound _ s fun x hx => ?_) he
  obtain ⟨w, hmem, rfl⟩ := List.mem_map.1 hx
  exact wordFits_ofNat (List.all_eq_true.1 hw w hmem)

theorem cmd_busAndResult {s t : State} {op : Byte} {ps : List Byte} (he : exec (.cmd op ps) s = .next t) :
    BusAndResult s t := by
  have ho : s.owner ≠ .none := fun h => by simp [exec, execCmd, h, refuse] at he
  rw [exec_cmd_of_owner ho] at he
  exact busAndResult_of_finish (sendCommand_sound op ps s) he

theorem cycleInstruction_busAndResult {p : Phase} {w : BusWord} {s t : State} (hw : wordFits s.cfg.busWidth w.toNat = true)
    (he : cycleInstruction p w s = .next t) : BusAndResult s t := busAndResult_of_finish (cycle_sound p s hw) he

/-! ## A pin drive that fails -/

theorem pinsHold_one {s : State} (h : s.pinAnswer 0 = false) : s.pinsHold 1 := fun k hk => by rwa [Nat.lt_one_iff.1 hk]

/-- SELECT whose drive fails (R99, R138). -/
theorem selectPhase_fails (p : Phase) {s : State} (hk : s.phaseKnown) (h : s.pinAnswer 0 = true) :
    ∃ t, selectPhase p s = .err (.busFault .dc) t ∧ BusOnly s t ∧ t.dc = .unset ∧ t.pending = [] ∧
      t.trace = s.settledTrace ++ [.pinFault .dc] := by
  obtain ⟨d, hd, hE, hp, htr, -⟩ := selectPhase_drained p hk
  have ha : d.pinAnswer 0 = true := by rw [← h]; simp [State.pinAnswer, hE.env]
  exact ⟨_, hd.trans (setPin_fails _ _ _ ha), busOnly_of_driven hE _ _, rfl, hp, by simp [htr]⟩

/-- CMD whose first SELECT fails (R111). -/
theorem sendCommand_fails_first (op : Byte) (ps : List Byte) {s : State} (hk : s.phaseKnown) (h : s.pinAnswer 0 = true) :
    ∃ t, sendCommand op ps s = .err (.busFault .dc) t ∧ BusOnly s t ∧ t.dc = .unset ∧ t.pending = [] ∧
      t.trace = s.settledTrace ++ [.pinFault .dc] := by
  obtain ⟨t, ht, hrest⟩ := selectPhase_fails .command hk h
  exact ⟨t, by simp [sendCommand, ht], hrest⟩

/-- CMD whose second SELECT fails: the opcode is on the bus (R111). -/
theorem sendCommand_fails_second (op : Byte) {ps : List Byte} (hps : ps ≠ []) {s : State} (hk : s.phaseKnown)
    (h0 : s.pinAnswer 0 = false) (h1 : s.pinAnswer 1 = true) :
    ∃ t, sendCommand op ps s = .err (.busFault .dc) t ∧ BusOnly s t ∧ t.dc = .unset ∧ t.pending = [] ∧
      t.trace = s.settledTrace ++ [.sel .command, .cyc .command (byteWord op), .pinFault .dc] := by
  obtain ⟨a, ha, hBa, ⟨hta, -⟩, -, hpa, -, -, haa⟩ := selectPhase_ok .command hk (pinsHold_one h0)
  obtain ⟨b, hb, hBb, ⟨htb, -⟩, hpb, hab⟩ := writeWord_ok (byteWord op) hpa
  have hb1 : b.pinAnswer 0 = true := by rw [hab, haa]; exact h1
  obtain ⟨t, ht, hBt, hdc, hpt, htr⟩ := selectPhase_fails .data (phaseKnown_of_phase? hpb) hb1
  refine ⟨t, by simp [sendCommand, ha, hb, hps, ht], (hBa.trans hBb).trans hBt, hdc, hpt, ?_⟩
  simp [htr, htb, hta]

/-- A drive of RST that fails: only RST, TRACE, the panel and the draws change (R138). -/
theorem setPin_rst_fails {s : State} (l : Level) (h : s.pinAnswer 0 = true) :
    ∃ t, setPin .rst l (.rst l) s = .err (.busFault .rst) t ∧ SequencerOnly s t ∧ t.ctrl = s.ctrl ∧ t.dc = s.dc ∧
      t.rst = .unset ∧ t.pending = s.pending ∧ t.trace = s.trace ++ [.pinFault .rst] :=
  ⟨_, setPin_fails _ _ _ h, by simp [SequencerOnly, State.emit, State.withPin, State.pinDrawn], rfl, rfl, rfl, rfl, rfl⟩

/-- RESET_PULSE whose drive to Low fails (R113). -/
theorem pulseReset_fails_low {s : State} (hk : s.phaseKnown) (h : s.pinAnswer 0 = true) :
    ∃ t, pulseReset s = .err (.busFault .rst) t ∧ SequencerOnly s t ∧ t.ctrl = s.ctrl ∧ t.dc = s.dc ∧ t.rst = .unset ∧
      t.pending = [] ∧ t.trace = s.settledTrace ++ [.pinFault .rst] := by
  obtain ⟨d, hd, hE, -, hp, htr, -⟩ := drain_spec hk
  have ha : d.pinAnswer 0 = true := by rw [← h]; simp [State.pinAnswer, hE.env]
  obtain ⟨t, ht, hS, hc, hdc, hr, hpt, htt⟩ := setPin_rst_fails .low ha
  exact ⟨t, by simp [pulseReset, hd, ht], hE.bus.sequencer.trans hS, hc.trans hE.bus.ctrl, hdc.trans hE.dc, hr,
    hpt.trans hp, by rw [htt, htr]⟩

/-- RESET_PULSE whose drive to High fails: the pulse width is over (R113). -/
theorem pulseReset_fails_high {s : State} (hk : s.phaseKnown) (h0 : s.pinAnswer 0 = false) (h1 : s.pinAnswer 1 = true) :
    ∃ t, pulseReset s = .err (.busFault .rst) t ∧ SequencerOnly s t ∧ t.ctrl = s.ctrl ∧ t.dc = s.dc ∧ t.rst = .unset ∧
      t.pending = [] ∧ t.trace = s.settledTrace ++ [.rst .low] ++ delayEvents s.cfg.tRstLowUs ++ [.pinFault .rst] := by
  obtain ⟨a, ha, hE, -, hpa, hta, -⟩ := drain_spec hk
  have haa : ∀ k, a.pinAnswer k = s.pinAnswer k := fun k => by simp [State.pinAnswer, hE.env]
  obtain ⟨b, hb, hBb, hpb, hab⟩ := setPin_rst_ok .low ((haa 0).trans h0) hpa
  have hSb : SequencerOnly a b := by rw [hBb]; simp [SequencerOnly]
  have hcb : b.ctrl = a.ctrl := by rw [hBb]
  have hdb : b.dc = a.dc := by rw [hBb]
  have htb : b.trace = a.trace ++ [.rst .low] := by rw [hBb]
  obtain ⟨c, hc, hBc, hpc, hdc, hec, htc, -⟩ := waitUs_trace b.cfg.tRstLowUs (.inl hpb)
  have hca : c.pinAnswer 0 = true := by
    rw [← h1, ← haa, ← hab]; simp [State.pinAnswer, hec]
  obtain ⟨t, ht, hS, hct, hdt, hr, hpt, htt⟩ := setPin_rst_fails .high hca
  have hSac : SequencerOnly s b := hE.bus.sequencer.trans hSb
  refine ⟨t, by simp [pulseReset, ha, hb, hc, ht], (hSac.trans hBc.sequencer).trans hS, ?_, ?_, hr, hpt.trans hpc, ?_⟩
  · rw [hct, hBc.ctrl, hcb, hE.bus.ctrl]
  · rw [hdt, hdc, hdb, hE.dc]
  · rw [htt, htc, settledTrace_of_idle hpb, htb, hta, hSac.cfg]

/-! ## INIT where no drive fails -/

theorem Emits.trans_sequencer {s t u : State} {a b : List Event} (hs : SequencerOnly s t) (h : Emits s a t)
    (k : Emits t b u) : Emits s (a ++ b) u := by
  obtain ⟨htr, hpa⟩ := h
  obtain ⟨htr', hpa'⟩ := k
  refine ⟨by rw [htr', htr, List.append_assoc], ?_⟩
  rw [hpa', hpa, hs.cfg, hs.geom, hs.icfg, List.foldl_append]

/-- The panel does not see a delay. -/
theorem take_delayEvents (cfg : Params) (g : PanelGeometry) (c : InitConfig) (us : Nat) (p : Panel) :
    (delayEvents us).foldl (Panel.take cfg g c) p = p := by
  unfold delayEvents
  split <;> rfl

/-- A reset pulse resets the panel (R66, R113). -/
theorem take_resetPulseEvents (cfg : Params) (g : PanelGeometry) (c : InitConfig) (p : Panel) :
    (resetPulseEvents cfg).foldl (Panel.take cfg g c) p = p.hardReset := by
  simp [resetPulseEvents, take_delayEvents, Panel.take]

/-- The events of INIT's reset phase: the pulse where there is a reset pin, else the settle delay alone (R117). -/
def resetEvents (cfg : Params) (hasRst : Bool) : List Event :=
  if hasRst then resetPulseEvents cfg else delayEvents cfg.tRstSettleUs

/-- The pin drives of INIT's reset phase (R113, R117). -/
def resetDrives (s : State) : Nat := if s.rstPin.isSome then 2 else 0

theorem initEvents_eq (cfg : Params) (g : PanelGeometry) (c : InitConfig) (hasRst : Bool) :
    initEvents cfg g c hasRst = resetEvents cfg hasRst ++ initListEvents (initSeq cfg g c) :=
  (initListEvents_initSeq cfg g c hasRst).symm

theorem initDrives_eq (s : State) :
    initDrives s =
      resetDrives s + ((initSeq s.cfg s.geom s.icfg).map (fun e => commandDrives e.params)).sum := by
  rw [initSeq_drives, ← Nat.add_assoc]
  rfl

/-- The reset phase of INIT, where no drive fails (R117). -/
theorem resetPhase_ok {s : State} (hk : s.phaseKnown) (h : s.pinsHold (resetDrives s)) :
    ∃ t, resetPhase s = .ok t ∧ SequencerOnly s t ∧ Emits s (resetEvents s.cfg s.rstPin.isSome) t ∧ t.pending = [] ∧
      t.rst = (if s.rstPin.isSome then .high else s.rst) ∧ ∀ k, t.pinAnswer k = s.pinAnswer (k + resetDrives s) := by
  cases hr : s.rstPin.isSome with
  | true =>
    have hd : resetDrives s = 2 := if_pos hr
    rw [hd] at h ⊢
    obtain ⟨t, ht, hS, -, -, -, hrst, hp, htr, hpa, ha⟩ := pulseReset_ok hk h
    refine ⟨t, (if_pos hr).trans ht, hS, ⟨?_, ?_⟩, hp, hrst, ha⟩
    · rw [settledTrace_of_idle hp]; exact htr
    · rw [settledPanel_of_idle hp, hpa]; exact (take_resetPulseEvents _ _ _ _).symm
  | false =>
    have hr' : ¬s.rstPin.isSome = true := by simp [hr]
    have hd : resetDrives s = 0 := if_neg hr'
    obtain ⟨t, ht, hB, hM, hp, -, ha⟩ := waitUs_ok s.cfg.tRstSettleUs hk
    exact ⟨t, (if_neg hr').trans ht, hB.sequencer, hM, hp, hB.rst, by rw [hd]; exact ha⟩

/-- INIT where no drive fails (R117, R118). -/
theorem runInit_ok {s : State} (hk : s.phaseKnown) (h : s.pinsHold (initDrives s)) :
    ∃ t, runInit s = .ok t ∧ SequencerOnly s t ∧ t.ctrl = .ready ∧ t.pending = [] ∧
      t.rst = (if s.rstPin.isSome then .high else s.rst) ∧ Emits s (initEvents s.cfg s.geom s.icfg s.rstPin.isSome) t := by
  rw [initDrives_eq] at h
  obtain ⟨a, ha, hSa, hMa, hpa, hra, haa⟩ :=
    resetPhase_ok (s := s.withCtrl .resetting) hk (pinsHold.mono h (Nat.le_add_right _ _))
  have hS : SequencerOnly s a := (withCtrl_sound s .resetting).1.trans hSa
  have hseq : initSeq a.cfg a.geom a.icfg = initSeq s.cfg s.geom s.icfg := by rw [hS.cfg, hS.geom, hS.icfg]
  obtain ⟨b, hb, hBb, hMb, -, hpb, -⟩ := sendInitList_ok (s := a.withCtrl .configuring) (initSeq s.cfg s.geom s.icfg)
    (.inl hpa) (pinsHold.shift h haa)
  refine ⟨b.withCtrl .ready, ?_, ?_, rfl, hpb (by simp [initSeq]), hBb.rst.trans hra, ?_⟩
  · simp only [runInit, ha, andThen_ok, hseq, hb, onError_ok]
  · exact ((hS.trans (withCtrl_sound a _).1).trans hBb.sequencer).trans (withCtrl_sound b _).1
  · rw [initEvents_eq]
    exact Emits.trans_sequencer hS hMa hMb

/-! ## INIT's trace under the default opcodes and bytes -/

/-- The list's events entry by entry. -/
theorem initListEvents_eq_flatMap (es : List InitEntry) :
    initListEvents es = es.flatMap (fun e => commandEvents e.opcode e.params ++ delayEvents e.delayUs) := by
  induction es with
  | nil => rfl
  | cons e es ih => rw [initListEvents, ih, List.flatMap_cons]

theorem delayEvents_zero : delayEvents 0 = [] := rfl

theorem delayEvents_of_pos {us : Nat} (h : 0 < us) : delayEvents us = [.delay us] := if_neg (Nat.ne_of_gt h)

theorem byteWord_colmodByte_default (pf : PixelFormat) :
    byteWord (colmodByte ColmodTable.default pf) = match pf with | .pf16 => 0x55 | .pf18 => 0x66 | .pf24 => 0x77 := by
  cases pf <;> rfl

theorem byteWord_madctlByte_default (rot : Rotation) (mirror : Bool) (order : ColorOrder) :
    byteWord (madctlByte MadctlTable.default rot mirror order) =
      ((match rot with | .r0 => 0x00 | .r90 => 0x60 | .r180 => 0xC0 | .r270 => 0xA0) ^^^ (if mirror then 0x40 else 0)) |||
        (match order with | .bgr => 0x08 | .rgb => 0) := by
  cases rot <;> cases mirror <;> cases order <;> rfl

/-- INIT's list under the default opcodes, with a reset pin and non-zero delays (R117). -/
theorem initEvents_of_defaults {cfg : Params} (g : PanelGeometry) (c : InitConfig) (ho : cfg.opcodes = Opcodes.default)
    (hl : 0 < cfg.tRstLowUs) (hs : 0 < cfg.tRstSettleUs) (hw : 0 < cfg.tSlpoutUs) (hd : 0 < cfg.tDisponUs) :
    initEvents cfg g c true =
      [.rst .low, .delay cfg.tRstLowUs, .rst .high, .delay cfg.tRstSettleUs] ++ initListEvents cfg.extraInit ++
        [.sel .command, .cyc .command 0x11, .delay cfg.tSlpoutUs,
         .sel .command, .cyc .command 0x3A, .sel .data, .cyc .data (byteWord (colmodByte cfg.colmodOf c.pixelFormat)),
         .sel .command, .cyc .command 0x36, .sel .data,
         .cyc .data (byteWord (madctlByte cfg.madctlOf g.rotation c.mirror c.colorOrder)),
         .sel .command, .cyc .command 0x29, .delay cfg.tDisponUs] := by
  rw [initEvents_eq, initSeq, initListEvents_append, ← List.append_assoc]
  simp [resetEvents, resetPulseEvents, initListEvents, commandEvents, delayEvents_of_pos hl, delayEvents_of_pos hs,
    delayEvents_of_pos hw, delayEvents_of_pos hd, delayEvents_zero, ho, Opcodes.default, byteWord]

/-! ## The obligations -/

/-- Settles O13: what moves CTRL is INIT, which leaves Faulted as it is. -/
theorem controllerTransitions : Obligations.ControllerTransitions := by
  intro s t h hs
  obtain hc | ⟨hf, hn, hend⟩ := step_ctrl_of_driven h hs
  · exact ⟨hc.trans, fun hne => absurd hc hne⟩
  · exact ⟨fun h => absurd h hn, fun _ => ⟨hf, hend⟩⟩

/-- Settles O30: the frame is sent, or the first or the second SELECT fails. -/
theorem cmdSendsFrame : Obligations.CmdSendsFrame := by
  intro s op ps ho hk
  rw [exec_cmd_of_owner ho]
  refine ⟨fun h => ?_, fun h => ?_, fun hps h0 h1 => ?_⟩
  · obtain ⟨t, ht, hB, hM, hp, -⟩ := sendCommand_ok op ps hk h
    rw [ht]
    refine ⟨_, rfl, hB.withResult _, rfl, hM.withResult _, (dc_of_phase? hp).trans ?_⟩
    split <;> rfl
  · obtain ⟨t, ht, hB, hrest⟩ := sendCommand_fails_first op ps hk h
    rw [ht]
    exact ⟨_, rfl, hB.withResult _, rfl, hrest⟩
  · obtain ⟨t, ht, hB, hrest⟩ := sendCommand_fails_second op hps hk h0 h1
    rw [ht]
    exact ⟨_, rfl, hB.withResult _, rfl, hrest⟩

/-- Settles O31: the drain, and then the delay's event where there is one. -/
theorem delayDrainsThenRecords : Obligations.DelayDrainsThenRecords := by
  intro s us hk
  obtain ⟨t, ht, hB, hrest⟩ := waitUs_trace us hk
  exact ⟨_, congrArg (Flow.finish .unit) ht, hB.withResult _, rfl, hrest⟩

/-- Settles O32: the pulse is whole, or it ends at its first or its second drive. -/
theorem resetPulseDrivesLowThenHigh : Obligations.ResetPulseDrivesLowThenHigh := by
  intro s ho hr hk
  rw [exec_resetPulse_of_owner ho hr]
  refine ⟨fun h => ?_, fun h => ?_, fun h0 h1 => ?_⟩
  · obtain ⟨t, ht, hS, hc, -, hdc, hrst, hp, htr, hpa, -⟩ := pulseReset_ok hk h
    rw [ht]
    refine ⟨_, rfl, hS.trans rfl, hc, hdc, rfl, hrst, hp, htr.trans ?_, hpa⟩
    simp [resetPulseEvents, delayEvents]
  · obtain ⟨t, ht, hS, hc, hdc, hrest⟩ := pulseReset_fails_low hk h
    rw [ht]
    exact ⟨_, rfl, hS.trans rfl, hc, hdc, rfl, hrest⟩
  · obtain ⟨t, ht, hS, hc, hdc, hrest⟩ := pulseReset_fails_high hk h0 h1
    rw [ht]
    exact ⟨_, rfl, hS.trans rfl, hc, hdc, rfl, hrest⟩

/-- Settles O33: the reset phase and then the initialization list, after which nothing is queued. -/
theorem initRunsSequence : Obligations.InitRunsSequence := by
  intro s ho hc hk h
  obtain ⟨t, ht, hS, hct, hp, hrst, htr, hpa⟩ := runInit_ok hk h
  rw [settledTrace_of_idle hp] at htr
  rw [settledPanel_of_idle hp] at hpa
  rw [exec_init_of_owner ho hc, ht]
  refine ⟨_, rfl, hS.trans rfl, rfl, hct, hp, hrst.trans ?_, htr, hS.bl, hpa⟩
  cases s.rstPin <;> rfl

/-- Settles O34: INIT's events, read under the default opcodes and bytes. -/
theorem initTraceOfDefaults : Obligations.InitTraceOfDefaults := by
  intro s ho hc hk h hr hop hcol hmad hl hset hslp hdis
  obtain ⟨t, ht, -, hres, hct, -, -, htr, -⟩ := initRunsSequence s ho hc hk h
  refine ⟨t, ht, hct, hres, ?_⟩
  rw [htr, Option.isSome_iff_ne_none.2 hr, initEvents_of_defaults _ _ hop hl hset hslp hdis, hcol, hmad,
    byteWord_colmodByte_default, byteWord_madctlByte_default, initListEvents_eq_flatMap, ← List.append_assoc,
    ← List.append_assoc]
  rfl

/-- Settles O35: the two ends of INIT. -/
theorem initEndsReadyOrFaulted : Obligations.InitEndsReadyOrFaulted := by
  intro s t ho hc hk he
  rw [exec_init_of_owner ho hc] at he
  obtain ⟨u, hu, -, hcu⟩ | ⟨p, u, hu, -, hcu, hp, hlast, hpin⟩ := runInit_tame hk
  · rw [hu] at he
    cases he
    exact .inl ⟨hcu, rfl⟩
  · rw [hu] at he
    cases he
    exact .inr ⟨p, hcu, rfl, hlast, hp, hpin⟩

/-- Settles O48: each operation is one on the bus, whose frame its own lemma gives. -/
theorem busOperationsFrame : Obligations.BusOperationsFrame := by
  rintro s t i (hd | ⟨p, rfl⟩ | ⟨w, rfl⟩ | ⟨ws, rfl⟩ | ⟨op, ps, rfl⟩ | ⟨us, rfl⟩ | hmem | ⟨w, rfl | rfl⟩) he
  · exact draw_busAndResult hd he
  · exact busAndResult_of_asTransport (selectPhase_sound p s) he
  · exact write_busAndResult he
  · exact burst_busAndResult he
  · exact cmd_busAndResult he
  · exact busAndResult_of_finish (waitUs_sound us s) he
  · obtain ⟨⟨i', op, q⟩, hrow, rfl⟩ :=
      List.mem_map.1 (show i ∈ (namedCycles s.cfg.opcodes s.panel).map (·.1) from hmem)
    rw [exec_of_mem_namedCycles hrow] at he
    exact cycleInstruction_busAndResult (byteWord_fits _ _) he
  · obtain ⟨hw, he⟩ := next_of_guarded he
    exact cycleInstruction_busAndResult hw he
  · obtain ⟨hw, he⟩ := next_of_guarded he
    exact cycleInstruction_busAndResult hw he

/-- Settles O29: the geometry check, then the format check, then the construction. -/
theorem driverNewOutcomes : Obligations.DriverNewOutcomes := by
  intro s rst bl width height rot mirror order pf
  refine ⟨fun ho => ?_, fun ho hg => ?_, fun ho hg hw hpf => ?_, fun ho hg hf => ?_⟩
  · cases h : s.owner with
    | transport => exact absurd h ho
    | none => simp [exec, execDriverNew, h, refuse]
    | driver => simp [exec, execDriverNew, h, refuse]
  · have hg' : geometryOk width height = false := Bool.eq_false_iff.2 (mt (geometryOk_iff _ _).1 hg)
    rw [exec_driverNew_of_owner ho, buildDriver_badGeometry rst bl hg']
    rfl
  · have hf' : formatOk s.cfg.busWidth pf = false := by rw [hw]; rcases hpf with rfl | rfl <;> rfl
    rw [exec_driverNew_of_owner ho, buildDriver_unsupportedFormat rst bl ((geometryOk_iff _ _).2 hg) hf']
    rfl
  · rw [exec_driverNew_of_owner ho, buildDriver_ok rst bl ((geometryOk_iff _ _).2 hg) ((formatOk_iff _ _).2 hf)]
    cases rst <;> cases bl <;> rfl

/-- Settles O36: no drain, and the one drive answers either way. -/
theorem backlightDrivesWithoutDrain : Obligations.BacklightDrivesWithoutDrain := by
  intro s on
  refine ⟨fun ho => ?_, fun ho hb => ?_, fun ho hb h => ?_, fun ho hb h => ?_⟩
  · cases h : s.owner with
    | driver => exact absurd h ho
    | none => simp [exec, execBacklight, h, refuse]
    | transport => simp [exec, execBacklight, h, refuse]
  · simp [exec, execBacklight, ho, hb, refuse]
  · rw [exec_backlight_of_owner ho hb, setPin_holds _ _ _ h]
    cases on <;> rfl
  · rw [exec_backlight_of_owner ho hb, setPin_fails _ _ _ h]
    rfl

/-- Settles O37: each byte of the two tables. -/
theorem defaultParameterBytes : Obligations.DefaultParameterBytes := by
  refine ⟨fun pf => ?_, fun rot mirror order => ?_⟩
  · cases pf <;> rfl
  · cases rot <;> cases mirror <;> cases order <;> rfl

end Sys2Proof.Machine

/-! PROOFS, family 42_sequencer_draw: the Panel Sequencer's addressing and pixel streaming (spec/42_sequencer_draw.md R121 to R135).
What the window, the stream, the fill and the pixels of DRAW send stands in Laws/Sequencer.lean, and what the panel makes of a FILL
in Laws/Panel.lean; what is added here is each call at HOST's side, the words of colours and samples, the call that changes nothing,
and the frame's content after CLEAR and DRAW. -/

namespace Sys2Proof.Machine

/-! ## Calls that are accepted -/

theorem exec_setWindow_of_owner {s : State} (h : s.owner = .driver) (x0 y0 x1 y1 : Coord) :
    exec (.setWindow x0 y0 x1 y1) s = (setWindow x0 y0 x1 y1 s).finish .unit := asDriver_of_owner h _ _

theorem exec_stream_of_fits {s : State} {ss : List Nat} (h : s.owner = .driver)
    (hf : ∀ x ∈ ss, sampleFits s.icfg.pixelFormat x = true) :
    exec (.stream ss) s = (streamSamples (ss.map (BitVec.ofNat 24)) s).finish .unit :=
  (if_pos (List.all_eq_true.2 hf)).trans (asDriver_of_owner h _ _)

theorem exec_fill_of_fits {s : State} {c : Color} (h : s.owner = .driver) (hf : c.fits s.icfg.pixelFormat = true)
    (x0 y0 x1 y1 : Coord) : exec (.fill x0 y0 x1 y1 c) s = (fillWindow x0 y0 x1 y1 c s).finish .unit :=
  (if_pos hf).trans (asDriver_of_owner h _ _)

theorem exec_draw_of_fits {s : State} {ps : List Pixel} (h : s.owner = .driver) (hc : s.ctrl = .ready)
    (hf : ∀ q ∈ ps, q.color.fits s.icfg.pixelFormat = true) : exec (.draw ps) s = (drawPixels ps s).finish .unit := by
  rw [← show whenReady (drawPixels ps) s = drawPixels ps s from if_pos hc]
  exact (if_pos (List.all_eq_true.2 hf)).trans (asDriver_of_owner h _ _)

/-- CLEAR is FILL of the full panel (R130). -/
theorem exec_clear_eq_fill (s : State) (c : Color) :
    exec (.clear c) s =
      exec (.fill 0 0 (BitVec.ofNat 16 (s.geom.width - 1)) (BitVec.ofNat 16 (s.geom.height - 1)) c) s := rfl

/-- Every drawing operation begins with the check that CTRL is Ready (R121). -/
theorem exec_of_drawsPanel {s : State} {i : Instr} (hd : drawsPanel i = true)
    (hf : samplesFit s.icfg.pixelFormat i = true) : ∃ f, exec i s = asDriver .unit (whenReady f) s := by
  unfold drawsPanel at hd
  split at hd
  · exact ⟨_, rfl⟩
  · exact ⟨_, if_pos hf⟩
  · exact ⟨_, if_pos hf⟩
  · exact ⟨_, (exec_clear_eq_fill s _).trans (if_pos hf)⟩
  · exact ⟨_, if_pos hf⟩
  · cases hd

theorem asDriver_of_other {s : State} (h : s.owner ≠ .driver) (v : Value) (f : State → Flow) :
    asDriver v f s = .refused (.noDriver { s with refused := true }) := by
  cases ho : s.owner with
  | driver => exact absurd ho h
  | none => simp [asDriver, ho, refuse]
  | transport => simp [asDriver, ho, refuse]

theorem whenReady_of_ne {s : State} (h : s.ctrl ≠ .ready) (f : State → Flow) :
    whenReady f s = .err .notInitialized s := if_neg h

/-! ## Windows -/

theorem outOfBounds_eq_false_iff (g : PanelGeometry) (x0 y0 x1 y1 : Coord) :
    outOfBounds g x0 y0 x1 y1 = false ↔
      x0.toNat ≤ x1.toNat ∧ x1.toNat < g.width ∧ y0.toNat ≤ y1.toNat ∧ y1.toNat < g.height := by
  simp only [outOfBounds, Bool.or_eq_false_iff, decide_eq_false_iff_not]
  omega

theorem outOfBounds_eq_true_iff (g : PanelGeometry) (x0 y0 x1 y1 : Coord) :
    outOfBounds g x0 y0 x1 y1 = true ↔
      g.width ≤ x1.toNat ∨ g.height ≤ y1.toNat ∨ x1.toNat < x0.toNat ∨ y1.toNat < y0.toNat := by
  simp [outOfBounds, or_assoc]

/-- SET_WINDOW of an illegal window raises OutOfBounds before any bus write (R127). -/
theorem setWindow_illegal {s : State} {x0 y0 x1 y1 : Coord} (hc : s.ctrl = .ready)
    (hw : outOfBounds s.geom x0 y0 x1 y1 = true) :
    setWindow x0 y0 x1 y1 s = .err (.outOfBoundsWindow x0 y0 x1 y1) s := (if_pos hc).trans (if_pos hw)

/-- FILL of an illegal window ends with its SET_WINDOW (R129). -/
theorem fillWindow_illegal {s : State} {x0 y0 x1 y1 : Coord} (c : Color) (hc : s.ctrl = .ready)
    (hw : outOfBounds s.geom x0 y0 x1 y1 = true) :
    fillWindow x0 y0 x1 y1 c s = .err (.outOfBoundsWindow x0 y0 x1 y1) s := by
  simp [fillWindow, whenReady, hc, setWindow_illegal hc hw]

theorem byteWord_hiByte (v : Coord) : byteWord (hiByte v) = BitVec.ofNat 16 (v.toNat / 256) := by
  apply BitVec.eq_of_toNat_eq
  have := v.isLt
  simp only [byteWord, hiByte, BitVec.toNat_setWidth, BitVec.extractLsb'_toNat, Nat.shiftRight_eq_div_pow,
    BitVec.toNat_ofNat]
  omega

theorem byteWord_loByte (v : Coord) : byteWord (loByte v) = BitVec.ofNat 16 (v.toNat % 256) := by
  apply BitVec.eq_of_toNat_eq
  simp only [byteWord, loByte, BitVec.toNat_setWidth, BitVec.extractLsb'_toNat, Nat.shiftRight_eq_div_pow,
    BitVec.toNat_ofNat]
  omega

/-- The last column or row of a panel, as a window boundary (R130). -/
theorem toNat_lastCoord {n : Nat} (h : n ≤ 65535) : (BitVec.ofNat 16 (n - 1) : Coord).toNat = n - 1 := by
  rw [BitVec.toNat_ofNat, Nat.mod_eq_of_lt (by omega)]

/-- The full panel is a legal window (R130). -/
theorem fullPanel_legal {g : PanelGeometry} (hw : 1 ≤ g.width) (hw' : g.width ≤ 65535) (hh : 1 ≤ g.height)
    (hh' : g.height ≤ 65535) :
    outOfBounds g 0 0 (BitVec.ofNat 16 (g.width - 1)) (BitVec.ofNat 16 (g.height - 1)) = false := by
  rw [outOfBounds_eq_false_iff, toNat_lastCoord hw', toNat_lastCoord hh']
  simp
  omega

/-! ## Colours and samples -/

theorem toNat_convert_pf16 (r g b : Byte) :
    (convert .pf16 (.rgb888 r g b)).toNat = r.toNat / 8 * 2048 + g.toNat / 4 * 32 + b.toNat / 8 := by
  have := r.isLt
  have := g.isLt
  have := b.isLt
  simp only [convert, BitVec.toNat_setWidth, toNat_append_add, BitVec.extractLsb'_toNat, Nat.shiftRight_eq_div_pow]
  omega

theorem toNat_convert_pf18 (r g b : Byte) :
    (convert .pf18 (.rgb888 r g b)).toNat = r.toNat / 4 * 4096 + g.toNat / 4 * 64 + b.toNat / 4 := by
  have := r.isLt
  have := g.isLt
  have := b.isLt
  simp only [convert, BitVec.toNat_setWidth, toNat_append_add, BitVec.extractLsb'_toNat, Nat.shiftRight_eq_div_pow]
  omega

theorem toNat_convert_pf24 (r g b : Byte) :
    (convert .pf24 (.rgb888 r g b)).toNat = r.toNat * 65536 + g.toNat * 256 + b.toNat := by
  simp only [convert, toNat_append_add]
  omega

theorem sampleFits_iff (pf : PixelFormat) (x : Nat) : sampleFits pf x = true ↔ x < 2 ^ pf.bits := by simp [sampleFits]

theorem toNat_convert_native {pf : PixelFormat} {x : Nat} (h : sampleFits pf x = true) :
    (convert pf (.native x)).toNat = x := by
  have hx := (sampleFits_iff pf x).1 h
  rw [convert, BitVec.toNat_ofNat, Nat.mod_eq_of_lt]
  cases pf <;> simp only [PixelFormat.bits] at hx <;> omega

/-- A converted colour is a sample of the pixel format (R78, R122). -/
theorem convert_fits {pf : PixelFormat} {c : Color} (h : c.fits pf = true) : sampleFits pf (convert pf c).toNat = true := by
  cases c with
  | native x => rw [toNat_convert_native h]; exact h
  | rgb888 r g b =>
    have := r.isLt
    have := g.isLt
    have := b.isLt
    rw [sampleFits_iff]
    cases pf with
    | pf16 => rw [toNat_convert_pf16]; simp only [PixelFormat.bits]; omega
    | pf18 => rw [toNat_convert_pf18]; simp only [PixelFormat.bits]; omega
    | pf24 => exact (convert .pf24 _).isLt

theorem toNat_byteWord (b : Byte) : (byteWord b).toNat = b.toNat :=
  BitVec.toNat_setWidth_of_le (by omega)

/-- A byte of a sample, as its bus word. -/
theorem toNat_byteWord_extract (x : Sample) (n : Nat) :
    (byteWord (x.extractLsb' n 8)).toNat = x.toNat / 2 ^ n % 256 := by
  rw [toNat_byteWord, BitVec.extractLsb'_toNat, Nat.shiftRight_eq_div_pow]

/-- A 6-bit field of a sample, in the upper six bits of its bus word. -/
theorem toNat_byteWord_field (x : Sample) (n : Nat) :
    (byteWord (x.extractLsb' n 6 ++ 0#2)).toNat = x.toNat / 2 ^ n % 64 * 4 := by
  rw [toNat_byteWord, toNat_append_add, BitVec.extractLsb'_toNat, Nat.shiftRight_eq_div_pow]
  rfl

/-! ## STREAM whose selection fails -/

/-- Where the one SELECT of STREAM fails, that ends it (R128, R138). -/
theorem streamSamples_fails (ss : List Sample) {s : State} (hc : s.ctrl = .ready) (hk : s.phaseKnown)
    (h : s.pinAnswer 0 = true) :
    ∃ t, streamSamples ss s = .err (.busFault .dc) t ∧ BusOnly s t ∧ t.dc = .unset ∧ t.pending = [] ∧
      t.trace = s.settledTrace ++ [.pinFault .dc] := by
  obtain ⟨t, ht, hrest⟩ := selectPhase_fails .data hk h
  exact ⟨t, by simp [streamSamples, whenReady, hc, ht], hrest⟩

/-! ## DRAW -/

theorem drawEvents_append (s : State) (ps qs : List Pixel) : drawEvents s (ps ++ qs) = drawEvents s ps ++ drawEvents s qs := by
  simp [drawEvents]

theorem drawEvents_cons_on {s : State} {q : Pixel} (h : onPanel s.geom q.x q.y = true) (qs : List Pixel) :
    drawEvents s (q :: qs) = pixelEvents s q ++ drawEvents s qs := by simp [drawEvents, h]

theorem drawEvents_cons_off {s : State} {q : Pixel} (h : ¬onPanel s.geom q.x q.y = true) (qs : List Pixel) :
    drawEvents s (q :: qs) = drawEvents s qs := by simp [drawEvents, h]

section

variable {s : State} {ps : List Pixel} (h : ∀ q ∈ ps, onPanel s.geom q.x q.y = true)
include h

theorem drawEvents_of_onPanel : drawEvents s ps = ps.flatMap (pixelEvents s) := by
  rw [drawEvents, List.filter_eq_self.2 h]

theorem drawDrives_of_onPanel : drawDrives s ps = 6 * ps.length := by
  rw [drawDrives, List.filter_eq_self.2 h]

end

/-- DRAW under CLIP_POLICY = Error stops at a pixel off the panel (R131). -/
theorem drawPixels_off {s : State} {q : Pixel} (hcl : s.cfg.clipPolicy = .error) (hq : onPanel s.geom q.x q.y = false)
    (qs : List Pixel) : drawPixels (q :: qs) s = .err (.outOfBoundsPoint q.x q.y) s := by
  simp [drawPixels, hq, hcl, raise]

/-- DRAW whose pixels are all drawn or dropped (R131, R132). -/
theorem exec_draw_ok {s : State} {ps : List Pixel} (ho : s.owner = .driver) (hc : s.ctrl = .ready) (hk : s.phaseKnown)
    (hcl : s.cfg.clipPolicy = .skip ∨ ∀ q ∈ ps, onPanel s.geom q.x q.y = true) (hw : s.geom.width ≤ 65535)
    (hh : s.geom.height ≤ 65535) (hf : ∀ q ∈ ps, q.color.fits s.icfg.pixelFormat = true)
    (h : s.pinsHold (drawDrives s ps)) :
    ∃ t, exec (.draw ps) s = .next t ∧ BusAndResult s t ∧ t.result = some (.ok .unit) ∧ Emits s (drawEvents s ps) t := by
  obtain ⟨t, ht, hB, hM, -⟩ := drawPixels_ok ps [] hc hcl hw hh hk h
  rw [List.append_nil] at ht
  rw [exec_draw_of_fits ho hc hf, ht]
  exact ⟨_, rfl, hB.withResult _, rfl, hM.withResult _⟩

/-- FILL of a legal window (R129). -/
theorem exec_fill_ok {s : State} {x0 y0 x1 y1 : Coord} {c : Color} (ho : s.owner = .driver) (hc : s.ctrl = .ready)
    (hk : s.phaseKnown) (h : s.pinsHold 6) (hf : c.fits s.icfg.pixelFormat = true)
    (hw : outOfBounds s.geom x0 y0 x1 y1 = false) :
    ∃ t, exec (.fill x0 y0 x1 y1 c) s = .next t ∧ BusAndResult s t ∧ t.result = some (.ok .unit) ∧
      Emits s (fillEvents s x0 y0 x1 y1 c) t := by
  obtain ⟨t, ht, hB, hM, -⟩ := fillWindow_ok c hc hw hk h
  rw [exec_fill_of_fits ho hf, ht]
  exact ⟨_, rfl, hB.withResult _, rfl, hM.withResult _⟩

/-! ## The frame's content -/

section

variable {s : State} (hd : s.cfg.opcodes.distinct) (hl : s.cfg.busWidth = .w16 → s.icfg.pixelFormat = .pf16)
include hd hl

/-- After a FILL of a legal window, once the engine is idle, the window holds the colour and no other pixel has changed (R63,
R129). -/
theorem exec_fill_content {x0 y0 x1 y1 : Coord} {c : Color} (ho : s.owner = .driver) (hc : s.ctrl = .ready)
    (hk : s.phaseKnown) (h : s.pinsHold 6) (hf : c.fits s.icfg.pixelFormat = true)
    (hw : outOfBounds s.geom x0 y0 x1 y1 = false) :
    ∃ t, exec (.fill x0 y0 x1 y1 c) s = .next t ∧ t.result = some (.ok .unit) ∧
      ∀ x y, x < 65536 → t.settledPanel.pixel x y =
        if x0.toNat ≤ x ∧ x ≤ x1.toNat ∧ y0.toNat ≤ y ∧ y ≤ y1.toNat then some (convert s.icfg.pixelFormat c)
        else s.settledPanel.pixel x y := by
  obtain ⟨t, ht, -, hr, -, hp⟩ := exec_fill_ok ho hc hk h hf hw
  refine ⟨t, ht, hr, fun x y hx => ?_⟩
  rw [hp]
  exact take_fillEvents _ hd hl (convert_fits hf) hw hx

section

variable (hw : s.geom.width ≤ 65535) (hh : s.geom.height ≤ 65535)
include hw hh

/-- One pixel of DRAW is a FILL of its 1×1 window: that pixel holds the colour and no other has changed (R131). -/
theorem take_pixelEvents {q : Pixel} (p : Panel) (hf : q.color.fits s.icfg.pixelFormat = true)
    (hq : onPanel s.geom q.x q.y = true) {x y : Nat} (hx : x < 65536) :
    ((pixelEvents s q).foldl (Panel.take s.cfg s.geom s.icfg) p).pixel x y =
      if q.x = (x : Int) ∧ q.y = (y : Int) then some (convert s.icfg.pixelFormat q.color) else p.pixel x y := by
  obtain ⟨hlegal, hqx, hqy⟩ := onPanel_legal hq hw hh
  have hfill := take_fillEvents p hd hl (convert_fits hf) hlegal (b := y) hx
  have hiff : (q.x.toNat ≤ x ∧ x ≤ q.x.toNat ∧ q.y.toNat ≤ y ∧ y ≤ q.y.toNat) ↔ (q.x = (x : Int) ∧ q.y = (y : Int)) := by
    simp only [onPanel, Bool.and_eq_true, decide_eq_true_eq] at hq
    omega
  simpa only [pixelEvents, hqx, hqy, hiff, Nat.sub_self, Nat.zero_add, Nat.mul_one, List.replicate_one] using hfill

/-- A pixel that no pair on the panel names is as before (R131, R132). -/
theorem take_drawEvents_unnamed {ps : List Pixel} (p : Panel)
    (hf : ∀ q ∈ ps, q.color.fits s.icfg.pixelFormat = true) {x y : Nat} (hx : x < 65536)
    (hn : ∀ q ∈ ps, onPanel s.geom q.x q.y = true → ¬(q.x = (x : Int) ∧ q.y = (y : Int))) :
    ((drawEvents s ps).foldl (Panel.take s.cfg s.geom s.icfg) p).pixel x y = p.pixel x y := by
  induction ps generalizing p with
  | nil => rfl
  | cons q qs ih =>
    obtain ⟨hfq, hfqs⟩ := List.forall_mem_cons.1 hf
    obtain ⟨hnq, hnqs⟩ := List.forall_mem_cons.1 hn
    by_cases hq : onPanel s.geom q.x q.y = true
    · rw [drawEvents_cons_on hq, List.foldl_append, ih _ hfqs hnqs, take_pixelEvents hd hl hw hh p hfq hq hx,
        if_neg (hnq hq)]
    · rw [drawEvents_cons_off hq]
      exact ih p hfqs hnqs

/-- The last pair on the panel that names a pixel gives its colour (R131, R132). -/
theorem take_drawEvents_last {before after : List Pixel} {q : Pixel} (p : Panel)
    (hf : ∀ r ∈ before ++ q :: after, r.color.fits s.icfg.pixelFormat = true) (hq : onPanel s.geom q.x q.y = true)
    {x y : Nat} (hx : x < 65536) (hqx : q.x = (x : Int)) (hqy : q.y = (y : Int))
    (hn : ∀ r ∈ after, ¬(r.x = (x : Int) ∧ r.y = (y : Int))) :
    ((drawEvents s (before ++ q :: after)).foldl (Panel.take s.cfg s.geom s.icfg) p).pixel x y =
      some (convert s.icfg.pixelFormat q.color) := by
  obtain ⟨-, hfr⟩ := List.forall_mem_append.1 hf
  obtain ⟨hfq, hfa⟩ := List.forall_mem_cons.1 hfr
  rw [drawEvents_append, drawEvents_cons_on hq, List.foldl_append, List.foldl_append,
    take_drawEvents_unnamed hd hl hw hh _ hfa hx fun r hr _ => hn r hr, take_pixelEvents hd hl hw hh _ hfq hq hx,
    if_pos ⟨hqx, hqy⟩]

end

end

/-! ## The obligations -/

/-- Settles O39: the three commands of the window, their parameters read as quotient and remainder by 256. -/
theorem setWindowAddresses : Obligations.SetWindowAddresses := by
  intro s x0 y0 x1 y1 ho hc hk h hx hx1 hy hy1
  obtain ⟨t, ht, hB, hM, hp, -⟩ := setWindow_ok hc ((outOfBounds_eq_false_iff ..).2 ⟨hx, hx1, hy, hy1⟩) hk h
  rw [exec_setWindow_of_owner ho, ht]
  refine ⟨_, rfl, hB.withResult _, rfl, dc_of_phase? hp, Emits.withResult ?_ _⟩
  simpa [windowEvents, commandEvents, byteWord_hiByte, byteWord_loByte] using hM

/-- Settles O41: the one SELECT answers either way. -/
theorem streamSelectsOnce : Obligations.StreamSelectsOnce := by
  intro s ss ho hc hk hf
  rw [exec_stream_of_fits ho hf]
  refine ⟨fun h => ?_, fun h => ?_⟩
  · obtain ⟨t, ht, hB, hM, hp, -⟩ := streamSamples_ok (ss.map (BitVec.ofNat 24)) hc hk h
    rw [ht]
    refine ⟨_, rfl, hB.withResult _, rfl, dc_of_phase? hp, Emits.withResult ?_ _⟩
    simpa only [streamEvents, List.flatMap_map] using hM
  · obtain ⟨t, ht, hB, hrest⟩ := streamSamples_fails (ss.map (BitVec.ofNat 24)) hc hk h
    rw [ht]
    exact ⟨_, rfl, hB.withResult _, rfl, hrest⟩

/-- Settles O42: FILL's events are the window's and the stream's. -/
theorem fillSendsArea : Obligations.FillSendsArea := by
  intro s x0 y0 x1 y1 c ho hc hk h hf hx hx1 hy hy1
  exact exec_fill_ok ho hc hk h hf ((outOfBounds_eq_false_iff ..).2 ⟨hx, hx1, hy, hy1⟩)

/-- Settles O43: CLEAR is that FILL, and the full panel's area is WIDTH times HEIGHT. -/
theorem clearIsFullFill : Obligations.ClearIsFullFill := by
  intro s c
  refine ⟨exec_clear_eq_fill s c, fun ho hc hk h hf hw hw' hh hh' => ?_⟩
  obtain ⟨t, ht, hB, hr, hM⟩ := exec_fill_ok ho hc hk h hf (fullPanel_legal hw hw' hh hh')
  refine ⟨t, (exec_clear_eq_fill s c).trans ht, hB, hr, ?_⟩
  simpa [fillEvents, toNat_lastCoord hw', toNat_lastCoord hh', Nat.sub_add_cancel hw, Nat.sub_add_cancel hh] using hM

/-- Settles O44: the pixels in list order, none left to do. -/
theorem drawSendsPixelsOnPanel : Obligations.DrawSendsPixelsOnPanel := by
  intro s ps ho hc hk hcl hw hh hf h
  exact exec_draw_ok ho hc hk hcl hw hh hf h

/-- Settles O45: the pixels before the point are drawn, and the point is the next one. -/
theorem drawErrorPolicyStopsAtPoint : Obligations.DrawErrorPolicyStopsAtPoint := by
  intro s before after q ho hc hk hcl hw hh hf hon hoff h
  rw [← drawDrives_of_onPanel hon] at h
  obtain ⟨t, ht, hB, hM, -⟩ := drawPixels_ok before (q :: after) hc (.inr hon) hw hh hk h
  rw [drawPixels_off (by rw [hB.cfg]; exact hcl) (by rw [hB.geom]; exact hoff)] at ht
  rw [exec_draw_of_fits ho hc hf, ht, ← drawEvents_of_onPanel hon]
  exact ⟨_, rfl, hB.withResult _, rfl, hM.withResult _⟩

/-- Settles O51: the three truncated channels are the digits of the converted colour. -/
theorem convertMergesTruncated : Obligations.ConvertMergesTruncated := by
  intro r g b r' g' b'
  have := b.isLt
  have := b'.isLt
  have := g.isLt
  have := g'.isLt
  rw [← BitVec.toNat_inj, toNat_convert_pf16, toNat_convert_pf16]
  omega

/-- Settles O52: each word is a byte or a 6-bit field of the sample. -/
theorem serializeRoundTrips : Obligations.SerializeRoundTrips := by
  refine ⟨fun x hx => ?_, fun x hx => ?_, fun x => ?_, fun bw pf x hbw hx => ?_⟩
  · have hx : x.toNat < 65536 := (sampleFits_iff _ _).1 hx
    simp only [serialize, List.map_cons, List.map_nil, BitVec.toNat_setWidth, toNat_byteWord_extract, List.cons.injEq, and_true]
    omega
  · have hx : x.toNat < 262144 := (sampleFits_iff _ _).1 hx
    simp only [serialize, List.map_cons, List.map_nil, toNat_byteWord_field, List.cons.injEq, and_true]
    omega
  · have := x.isLt
    simp only [serialize, List.map_cons, List.map_nil, toNat_byteWord_extract, List.cons.injEq, and_true]
    omega
  · refine ⟨?_, serialize_fits bw pf x, deserialize_serialize hbw hx⟩
    cases bw with
    | w16 => cases hbw rfl; rfl
    | w8 => cases pf <;> rfl

/-- Settles O58: the panel reads FILL's events in raster order. -/
theorem fillSetsWindowContent : Obligations.FillSetsWindowContent := by
  intro s x0 y0 x1 y1 c ho hc hk h hd hf hl hx hx1 hy hy1
  obtain ⟨t, ht, -, hp⟩ := exec_fill_content hd hl ho hc hk h hf ((outOfBounds_eq_false_iff ..).2 ⟨hx, hx1, hy, hy1⟩)
  exact ⟨t, ht, hp⟩

/-- Settles O59: the content of a FILL whose window is the whole panel. -/
theorem clearSetsEveryPixel : Obligations.ClearSetsEveryPixel := by
  intro s c ho hc hk h hd hf hl hw hw' hh hh'
  obtain ⟨t, ht, hr, hp⟩ := exec_fill_content hd hl ho hc hk h hf (fullPanel_legal hw hw' hh hh')
  refine ⟨t, (exec_clear_eq_fill s c).trans ht, hr, fun x y hx hy => ?_⟩
  rw [hp x y (by omega), toNat_lastCoord hw', toNat_lastCoord hh']
  exact if_pos ⟨Nat.zero_le _, Nat.le_sub_one_of_lt hx, Nat.zero_le _, Nat.le_sub_one_of_lt hy⟩

/-- Settles O60: the panel reads DRAW's pixels in list order, each one a 1×1 window. -/
theorem drawSetsListedPixels : Obligations.DrawSetsListedPixels := by
  intro s ps ho hc hk hcl h hd hf hl hw hh
  obtain ⟨t, ht, -, hr, -, hp⟩ := exec_draw_ok ho hc hk hcl hw hh hf h
  refine ⟨t, ht, hr, fun x y hx => ⟨?_, fun hn => ?_⟩⟩
  · rintro before q after rfl hq hqx hqy hn
    rw [hp]
    exact take_drawEvents_last hd hl hw hh _ hf hq hx hqx hqy hn
  · rw [hp]
    exact take_drawEvents_unnamed hd hl hw hh _ hf hx hn

/-- Settles O38: every drawing operation is a call of the driver's owner that begins with the check of CTRL. -/
theorem notReadyChangesNothing : Obligations.NotReadyChangesNothing := by
  intro s i
  refine ⟨fun hd hf ho => ?_, fun hd hf ho hc => ?_, fun ho hc => ?_⟩
  · obtain ⟨f, he⟩ := exec_of_drawsPanel hd hf
    rw [he, asDriver_of_other ho]
  · obtain ⟨f, he⟩ := exec_of_drawsPanel hd hf
    rw [he, asDriver_of_owner ho, whenReady_of_ne hc]
    rfl
  · have he : initPanel s = .err .notInitialized s := if_pos hc
    exact (asDriver_of_owner ho _ _).trans (by rw [he]; rfl)

/-- Settles O40: the geometry check comes before any bus write. -/
theorem illegalWindowChangesNothing : Obligations.IllegalWindowChangesNothing := by
  intro s x0 y0 x1 y1 c ho hc hbad hf
  have hw := (outOfBounds_eq_true_iff s.geom x0 y0 x1 y1).2 hbad
  rw [exec_setWindow_of_owner ho, exec_fill_of_fits ho hf, setWindow_illegal hc hw, fillWindow_illegal c hc hw]
  exact ⟨rfl, rfl⟩

/-- Settles O46: a call of the driver's owner that goes on at once. -/
theorem bboxReturnsRectangle : Obligations.BboxReturnsRectangle :=
  fun _ ho => asDriver_of_owner ho _ _

/-- Settles O50: each format's packing, and the native colour. -/
theorem convertTruncates : Obligations.ConvertTruncates :=
  ⟨fun r g b => ⟨toNat_convert_pf16 r g b, toNat_convert_pf18 r g b, toNat_convert_pf24 r g b⟩,
    fun _ _ h => toNat_convert_native h⟩

end Sys2Proof.Machine

/-! PROOFS, family 60_exceptions: results, faults and refusals (spec/60_exceptions.md R136 to R145). What a drain of a word queued
under an unset DC does stands in Laws/Engine.lean, and how a drawing operation ends in Laws/NoFault.lean; what is added here is that
the fault of the first drain is the fault of the whole operation, each refusal of `exec` by its name, and HOST's step where its line
is refused. -/

namespace Sys2Proof.Machine

/-! ## The first drain faults -/

/-- The flow is the model fault PhaseUnset, with nothing strobed since `s` and DC Unset (R139, R161). -/
def Flow.UnsetFault (s : State) (f : Flow) : Prop :=
  ∃ u, f = .fault (.phaseUnset u) ∧ u.faultedModel = true ∧ u.trace = s.trace ∧ u.panel = s.panel ∧ u.dc = .unset

theorem Flow.UnsetFault.andThen {s : State} {f : Flow} (h : f.UnsetFault s) (k : State → Flow) :
    (f.andThen k).UnsetFault s := by
  obtain ⟨u, rfl, hu⟩ := h
  exact ⟨u, rfl, hu⟩

theorem Flow.UnsetFault.onError {s : State} {f : Flow} (h : f.UnsetFault s) (k : State → State) :
    (f.onError k).UnsetFault s := by
  obtain ⟨u, rfl, hu⟩ := h
  exact ⟨u, rfl, hu⟩

/-- An instruction that is a faulting flow faults. -/
theorem Flow.UnsetFault.finish {s : State} {f : Flow} (h : f.UnsetFault s) {o : Host.Outcome State Fault Refusal} {v : Value}
    (ho : o = f.finish v) :
    ∃ u, o = .fault (.phaseUnset u) ∧ u.faultedModel = true ∧ u.trace = s.trace ∧ u.panel = s.panel ∧ u.dc = .unset := by
  obtain ⟨u, rfl, hu⟩ := h
  exact ⟨u, ho, hu⟩

/-- DRAW under CLIP_POLICY = Skip drops the pixels off the panel (R132). -/
theorem drawPixels_dropped {s : State} {before : List Pixel} (rest : List Pixel)
    (hcl : before = [] ∨ s.cfg.clipPolicy = .skip) (hoff : ∀ r ∈ before, onPanel s.geom r.x r.y = false) :
    drawPixels (before ++ rest) s = drawPixels rest s := by
  obtain rfl | hskip := hcl
  · rfl
  · induction before with
    | nil => rfl
    | cons r rs ih =>
      obtain ⟨hr, hrs⟩ := List.forall_mem_cons.1 hoff
      rw [← ih hrs]
      simp [drawPixels, hr, hskip]

section

variable {s : State} (hp : s.pending ≠ []) (hd : s.dc = .unset)
include hp hd

theorem drain_unsetFault : (drain s).UnsetFault s := drain_unset hp hd

theorem selectPhase_unsetFault (p : Phase) : (selectPhase p s).UnsetFault s := (drain_unsetFault hp hd).andThen _

theorem sendCommand_unsetFault (op : Byte) (ps : List Byte) : (sendCommand op ps s).UnsetFault s :=
  (selectPhase_unsetFault hp hd _).andThen _

theorem waitUs_unsetFault (us : Nat) : (waitUs us s).UnsetFault s := (drain_unsetFault hp hd).andThen _

theorem pulseReset_unsetFault : (pulseReset s).UnsetFault s := ((drain_unsetFault hp hd).andThen _).andThen _

theorem resetPhase_unsetFault : (resetPhase s).UnsetFault s := by
  unfold resetPhase
  split
  · exact pulseReset_unsetFault hp hd
  · exact waitUs_unsetFault hp hd _

/-- INIT begins with its reset phase; moving CTRL to Resetting touches nothing of the bus (R117). -/
theorem runInit_unsetFault : (runInit s).UnsetFault s :=
  ((resetPhase_unsetFault (s := s.withCtrl .resetting) hp hd).andThen _).onError _

/-- A bus-cycle row on its own begins with the SELECT of its phase. -/
theorem cycle_unsetFault (p : Phase) (w : BusWord) :
    (((selectPhase p s).andThen (writeWord w)).andThen drain).UnsetFault s :=
  ((selectPhase_unsetFault hp hd p).andThen _).andThen _

variable (hc : s.ctrl = .ready)
include hc

theorem setWindow_unsetFault {x0 y0 x1 y1 : Coord} (hw : outOfBounds s.geom x0 y0 x1 y1 = false) :
    (setWindow x0 y0 x1 y1 s).UnsetFault s := by
  have hset : setWindow x0 y0 x1 y1 s = addressWindow x0 y0 x1 y1 s := (if_pos hc).trans (if_neg (by simp [hw]))
  rw [hset]
  exact (sendCommand_unsetFault hp hd _ _).andThen _

theorem streamSamples_unsetFault (ss : List Sample) : (streamSamples ss s).UnsetFault s := by
  rw [streamSamples, whenReady, if_pos hc]
  exact (selectPhase_unsetFault hp hd _).andThen _

theorem fillWindow_unsetFault {x0 y0 x1 y1 : Coord} (c : Color) (hw : outOfBounds s.geom x0 y0 x1 y1 = false) :
    (fillWindow x0 y0 x1 y1 c s).UnsetFault s := by
  rw [fillWindow, whenReady, if_pos hc]
  exact (setWindow_unsetFault hp hd hc hw).andThen _

/-- DRAW faults at the first pixel that lies on the panel. -/
theorem drawPixels_unsetFault {q : Pixel} (hq : onPanel s.geom q.x q.y = true) (hw : s.geom.width ≤ 65535)
    (hh : s.geom.height ≤ 65535) (after : List Pixel) : (drawPixels (q :: after) s).UnsetFault s := by
  rw [drawPixels, if_pos hq]
  exact ((setWindow_unsetFault hp hd hc (onPanel_legal hq hw hh).1).andThen _).andThen _

end

/-! ## How a drawing operation ends -/

theorem BusAndResult.ctrl {s t : State} (h : BusAndResult s t) : t.ctrl = s.ctrl := by rw [h]

/-- A drawing operation that answers a next state is a call of the driver's owner that begins with the check of CTRL, does not fault,
and returns no BusFault but DC's (R121, R144, R145). -/
theorem exec_draw_next {s t : State} {i : Instr} (hk : s.phaseKnown) (hd : drawsPanel i = true) (he : exec i s = .next t) :
    ∃ f, asDriver .unit (whenReady f) s = .next t ∧ (whenReady f s).Tame State.phaseKnown ∧
      (whenReady f s).Errs drawErr := by
  unfold drawsPanel at hd
  split at hd
  · exact ⟨_, he, setWindow_tame _ _ _ _ hk, setWindow_errs _ _ _ _ s⟩
  · exact ⟨_, (next_of_guarded he).2, streamSamples_tame _ hk, streamSamples_errs _ s⟩
  · exact ⟨_, (next_of_guarded he).2, fillWindow_tame _ _ _ _ _ hk, fillWindow_errs _ _ _ _ _ s⟩
  · rw [exec_clear_eq_fill] at he
    exact ⟨_, (next_of_guarded he).2, fillWindow_tame _ _ _ _ _ hk, fillWindow_errs _ _ _ _ _ s⟩
  · exact ⟨_, (next_of_guarded he).2, whenReady_tame hk (drawPixels_tame _ hk), whenReady_errs (drawPixels_errs _ s)⟩
  · cases hd

/-- A call that returns an error is a flow that ended with it. -/
theorem finish_next_err {f : Flow} {v : Value} {e : Error} {t : State} (h : f.finish v = .next t)
    (hr : t.result = some (.err e)) : ∃ u, f = .err e u ∧ t = { u with result := some (.err e) } := by
  cases f with
  | ok u => cases h; cases hr
  | err e' u => cases h; cases hr; exact ⟨u, rfl, rfl⟩
  | fault x => cases h

/-! ## Refusals by `exec` -/

theorem exec_busCmd_of_wide {s : State} {w : BusWord} (hw : wordFits s.cfg.busWidth w.toNat = false) :
    exec (.busCmd w) s = .refused (.wordTooWide { s with refused := true }) := if_neg (by simp [wordsFit, hw])

theorem exec_busData_of_wide {s : State} {w : BusWord} (hw : wordFits s.cfg.busWidth w.toNat = false) :
    exec (.busData w) s = .refused (.wordTooWide { s with refused := true }) := if_neg (by simp [wordsFit, hw])

/-- A drawing operation with a sample or a native colour too wide for the pixel format (R78, R140). -/
theorem exec_of_wideSamples {s : State} {i : Instr} (hf : samplesFit s.icfg.pixelFormat i = false) :
    exec i s = .refused (.sampleTooWide { s with refused := true }) := by
  have hn : ¬samplesFit s.icfg.pixelFormat i = true := by simp [hf]
  cases i with
  | stream ss => exact if_neg hn
  | fill x0 y0 x1 y1 c => exact if_neg hn
  | clear c => exact if_neg hn
  | draw ps => exact if_neg hn
  | _ => cases hf

theorem asTransport_of_none {s : State} (h : s.owner = .none) (f : State → Flow) :
    asTransport f s = .refused (.noTransport { s with refused := true }) := by simp [asTransport, h, refuse]

theorem asTransport_of_driver {s : State} (h : s.owner = .driver) (f : State → Flow) :
    asTransport f s = .refused (.rawAfterDriver { s with refused := true }) := by simp [asTransport, h, refuse]

theorem exec_backlight_of_other {s : State} (h : s.owner ≠ .driver) (on : Bool) :
    exec (.backlight on) s = .refused (.noDriver { s with refused := true }) := by
  cases ho : s.owner with
  | driver => exact absurd ho h
  | none => simp [exec, execBacklight, ho, refuse]
  | transport => simp [exec, execBacklight, ho, refuse]

theorem exec_resetPulse_of_other {s : State} (h : s.owner ≠ .driver) :
    exec .resetPulse s = .refused (.noDriver { s with refused := true }) := by
  cases ho : s.owner with
  | driver => exact absurd ho h
  | none => simp [exec, execResetPulse, ho, refuse]
  | transport => simp [exec, execResetPulse, ho, refuse]

theorem exec_resetPulse_of_noPin {s : State} (h : s.owner = .driver) (hr : s.rstPin = none) :
    exec .resetPulse s = .refused (.noResetPin { s with refused := true }) := by
  simp [exec, execResetPulse, h, hr, refuse]

/-! ## Refusals of HOST's line -/

/-- Where nothing is queued, the step is HOST's (R5). -/
theorem step_of_host_alone {s : State} {l : Line} (hf : s.faultedModel = false) (hr : s.refused = false) (hp : s.probe = none)
    (hq : s.pending = []) (hl : s.prog[s.idx]? = some l) : step s = hostStep s := by
  simp [step, hf, hr, hp, nextAgent_host_alone (List.getElem?_eq_some_iff.1 hl).1 hq]

theorem fetch_of_line {s : State} {l : Line} (hp : s.probe = none) (hl : s.prog[s.idx]? = some l) :
    fetch s = decode s.cfg.opcodes l := by simp [fetch, State.line?, hp, hl]

theorem hostStep_of_error {s : State} {e : DecodeError} (h : fetch s = .error e) :
    hostStep s = refuse (lineRefusal e) s := by simp [hostStep, h]

theorem hostStep_of_ok {s : State} {i : Instr} (h : fetch s = .ok i) : hostStep s = hostCall i s := by simp [hostStep, h]

theorem lineRefusal_of_ne {e : DecodeError} (h : e ≠ .infiniteSequence) (s : State) :
    lineRefusal e s = .undecodable e s := by
  unfold lineRefusal
  split
  · exact absurd rfl h
  · rfl

theorem hostCall_notCallable {i : Instr} {s : State} (h : hostMayCall i = false) :
    hostCall i s = .refused (.notCallable { s with refused := true }) := if_pos (by simp [h])

theorem hostCall_cmd_of_driver {s : State} (h : s.owner = .driver) (op : Byte) (ps : List Byte) :
    hostCall (.cmd op ps) s = .refused (.rawAfterDriver { s with refused := true }) := by
  simp [hostCall, hostMayCall, isCmd, h, refuse]

/-! ## The obligations -/

/-- Settles O25: in each case the operation begins with a drain, which faults. -/
theorem drainOfUnknownPhaseFaults : Obligations.DrainOfUnknownPhaseFaults := by
  rintro s i hp hd (⟨ho, p, rfl⟩ | ⟨ho, op, ps, rfl⟩ | ⟨us, rfl⟩ | hi | ⟨w, rfl | rfl, hw⟩ | ⟨ho, hr, rfl⟩ | ⟨ho, hc, rfl⟩ |
    ⟨ho, hc, hgw, hgh, hf, hi⟩)
  · exact (selectPhase_unsetFault hp hd p).finish (exec_select_of_owner p ho)
  · exact (sendCommand_unsetFault hp hd op ps).finish (exec_cmd_of_owner ho op ps)
  · exact (waitUs_unsetFault hp hd us).finish rfl
  · simp only [List.mem_cons, List.not_mem_nil, or_false] at hi
    obtain rfl | rfl | rfl | rfl | rfl | rfl | rfl := hi <;>
      exact (cycle_unsetFault hp hd _ _).finish rfl
  · exact (cycle_unsetFault hp hd _ w).finish (exec_busCmd_of_fits hw)
  · exact (cycle_unsetFault hp hd _ w).finish (exec_busData_of_fits hw)
  · exact (pulseReset_unsetFault hp hd).finish (exec_resetPulse_of_owner ho hr)
  · exact (runInit_unsetFault hp hd).finish (exec_init_of_owner ho hc)
  · obtain ⟨x0, y0, x1, y1, hx, hx1, hy, hy1, hi⟩ | ⟨ss, rfl⟩ | ⟨hw, hh, c, rfl⟩ | ⟨before, q, after, rfl, hq, hcl, hoff⟩ := hi
    · have hw : outOfBounds s.geom x0 y0 x1 y1 = false := (outOfBounds_eq_false_iff ..).2 ⟨hx, hx1, hy, hy1⟩
      obtain rfl | ⟨c, rfl⟩ := hi
      · exact (setWindow_unsetFault hp hd hc hw).finish (exec_setWindow_of_owner ho ..)
      · exact (fillWindow_unsetFault hp hd hc c hw).finish (exec_fill_of_fits ho hf ..)
    · exact (streamSamples_unsetFault hp hd hc _).finish (exec_stream_of_fits ho (List.all_eq_true.1 hf))
    · exact (fillWindow_unsetFault hp hd hc c (fullPanel_legal hw hgw hh hgh)).finish
        ((exec_clear_eq_fill s c).trans (exec_fill_of_fits ho hf ..))
    · refine (drawPixels_unsetFault hp hd hc hq hgw hgh after).finish (v := .unit) ?_
      rw [exec_draw_of_fits ho hc (List.all_eq_true.1 hf), drawPixels_dropped _ hcl hoff]

/-- Settles O49: the BusFault is DC's, the state is the one the failed drive left, and CTRL has not moved from Ready. -/
theorem drawingBusFault : Obligations.DrawingBusFault := by
  intro s t i p ho hk hd he hr
  have hctrl : t.ctrl = s.ctrl := (draw_busAndResult hd he).ctrl
  obtain ⟨f, hcall, htame, herrs⟩ := exec_draw_next hk hd he
  rw [asDriver_of_owner ho] at hcall
  obtain ⟨u, hu, rfl⟩ := finish_next_err hcall hr
  have hready : s.ctrl = .ready := by
    by_contra hc
    rw [whenReady_of_ne hc] at hu
    cases hu
  rw [hu] at htame herrs
  obtain rfl := herrs p rfl
  obtain ⟨hpend, hlast, ⟨-, hdc⟩ | ⟨hrst, -⟩⟩ := htame.2 _ rfl
  · exact ⟨rfl, hdc, hctrl.trans hready, hpend, hlast⟩
  · cases hrst

/-- Settles O7: a step looks at the two marks before anything else. -/
theorem markedStateTakesNoStep : Obligations.MarkedStateTakesNoStep :=
  fun _ => ⟨fun hf => if_pos hf, fun hf hr => (if_neg (by simp [hf])).trans (if_pos hr)⟩

/-- Settles O26: the check of widths comes before the call. -/
theorem tooWideOperandsRefused : Obligations.TooWideOperandsRefused := by
  intro s i
  refine ⟨?_, fun h => exec_of_wideSamples ?_⟩
  · rintro (⟨w, rfl, hw⟩ | ⟨w, rfl, hw⟩ | ⟨w, rfl, hw⟩ | ⟨ws, rfl, hw⟩)
    · exact exec_busCmd_of_wide hw
    · exact exec_busData_of_wide hw
    · exact exec_write_of_wide hw
    · exact exec_burst_of_wide hw
  · obtain ⟨ss, rfl, hx⟩ | ⟨x0, y0, x1, y1, x, rfl, hx⟩ | ⟨x, rfl, hx⟩ | ⟨ps, rfl, q, hq, x, hcol, hx⟩ := h
    · exact List.all_eq_false.2 (by simpa using hx)
    · exact hx
    · exact hx
    · exact List.all_eq_false.2 ⟨q, hq, by simp [hcol, Color.fits, hx]⟩

/-- Settles O27: which owner a call asks for, and what CMD, TRANSPORT_NEW and RESET_PULSE ask for beside it. -/
theorem ownershipRefusals : Obligations.OwnershipRefusals := by
  intro s i
  refine ⟨fun hi => ?_, ?_, ?_, ?_, ?_⟩
  · have hraw : ∃ f, exec i s = asTransport f s := by
      obtain ⟨p, rfl⟩ | ⟨w, rfl, hw⟩ | ⟨ws, rfl, hw⟩ := hi
      · exact ⟨_, rfl⟩
      · exact ⟨_, if_pos hw⟩
      · exact ⟨_, if_pos (List.all_eq_true.2 hw)⟩
    obtain ⟨f, he⟩ := hraw
    rw [he]
    exact ⟨fun ho => asTransport_of_none ho f, fun ho => asTransport_of_driver ho f⟩
  · rintro ⟨op, ps, rfl⟩ ho
    simp [exec, execCmd, ho, refuse]
  · rintro ⟨w, a, b, c, d, rfl⟩ hh
    exact if_neg (by simp [hh])
  · rintro ho (rfl | rfl | ⟨on, rfl⟩ | rfl | ⟨hd, hf⟩)
    · exact asDriver_of_other ho _ _
    · exact asDriver_of_other ho _ _
    · exact exec_backlight_of_other ho on
    · exact exec_resetPulse_of_other ho
    · obtain ⟨f, he⟩ := exec_of_drawsPanel hd hf
      rw [he, asDriver_of_other ho]
  · rintro ho hr rfl
    exact exec_resetPulse_of_noPin ho hr

/-- Settles O28: the step is HOST's, whose line is refused before `exec` is called. -/
theorem undecodableLineRefused : Obligations.UndecodableLineRefused := by
  intro s l hf hr hp hq hl
  rw [step_of_host_alone hf hr hp hq hl, ← fetch_of_line hp hl]
  refine ⟨fun hd => hostStep_of_error hd, fun e hd he => ?_, fun i hd hi => ?_, fun op ps hd ho => ?_⟩
  · rw [hostStep_of_error hd, refuse, lineRefusal_of_ne he]
  · have hm : hostMayCall i = false := by
      simp only [List.mem_cons, List.not_mem_nil, or_false] at hi
      obtain (rfl | rfl | rfl | rfl | rfl | rfl | rfl | rfl | rfl | rfl) | ⟨w, rfl⟩ | ⟨w, rfl⟩ | ⟨us, rfl⟩ := hi <;> rfl
    rw [hostStep_of_ok hd, hostCall_notCallable hm]
  · rw [hostStep_of_ok hd, hostCall_cmd_of_driver ho]

/-- Settles O47: the table of codes, row by row. -/
theorem errorCodes : Obligations.ErrorCodes :=
  ⟨fun _ => rfl, fun _ => rfl, rfl, fun _ _ _ _ => rfl, fun _ _ => rfl, fun _ => rfl, rfl, rfl, rfl, rfl⟩

end Sys2Proof.Machine

/-! PROOFS, family 70_reset_and_hazards: the state at power-on, and the one hazard of the bus, a word strobed with an unknown phase
(spec/70_reset_and_hazards.md R154, R161). That the sequencer's operations do not fault stands in Laws/NoFault.lean; what is added
here is that no other instruction faults under a driver, and that a driver stays. -/

namespace Sys2Proof.Machine

/-! ## Outcomes without the phase fault -/

/-- The step does not fault, and no word lacks a phase in the state it leaves (R139, R161). -/
def PhaseSafe : Host.Outcome State Fault Refusal → Prop
  | .next t => t.phaseKnown
  | .fault _ => False
  | .refused _ => True

theorem Flow.Tame.phaseSafe {Q : State → Prop} {f : Flow} (h : f.Tame Q) (hQ : ∀ t, Q t → t.phaseKnown) (v : Value) :
    PhaseSafe (f.finish v) := by
  cases f with
  | ok t => exact hQ t h
  | err e t => exact h.1
  | fault x => exact h

/-- An operation of the driver's, called while there is a driver. -/
theorem Flow.Tame.asDriver_phaseSafe {f : State → Flow} {s : State} (h : (f s).Tame State.phaseKnown) (ho : s.owner = .driver)
    (v : Value) : PhaseSafe (asDriver v f s) := by
  rw [asDriver_of_owner ho]
  exact h.phaseSafe (fun _ => id) v

/-- A check before an operation only adds a refusal. -/
theorem PhaseSafe.guarded {o : Host.Outcome State Fault Refusal} (h : PhaseSafe o) (b : Bool) (r : State → Refusal) (s : State) :
    PhaseSafe (if b then o else refuse r s) := by
  cases b with
  | true => exact h
  | false => trivial

/-! ## Each instruction under a driver -/

section

variable {s : State} (hk : s.phaseKnown)

include hk

/-- One bus cycle on its own: it selects its phase before it writes (R89, R99). -/
theorem cycleInstruction_phaseSafe (p : Phase) (w : BusWord) : PhaseSafe (cycleInstruction p w s) :=
  (((selectPhase_tame p hk).andThen fun _ ht => writeWord_tame w ht).andThen fun _ ht => drain_tame ht.phaseKnown).phaseSafe
    (fun _ => .inl) .unit

theorem initPanel_tame : (initPanel s).Tame State.phaseKnown := by
  unfold initPanel
  split
  · exact ⟨hk, fun p hp => by cases hp⟩
  · obtain ⟨t, ht, hkt, -⟩ | ⟨p, t, ht, hkt, -, hf⟩ := runInit_tame hk
    · rw [ht]; exact hkt
    · rw [ht]; exact ⟨hkt, fun q hq => by cases hq; exact hf⟩

/-- A drive of BL, which neither drains nor touches DC, whether it fails or not (R119). -/
theorem setPin_bl_phaseSafe (l : Level) (v : Value) : PhaseSafe ((setPin .bl l (.bl l) s).finish v) := by
  unfold setPin
  split
  · exact hk
  · exact hk

theorem enginePull_phaseSafe : PhaseSafe (exec .enginePull s) := by
  by_cases h : s.enginePhase = .readyToPull
  · obtain ⟨t, ht, -, -, hkt, -⟩ := engineStep_spec hk
    have hpull : engineStep s = .ok (pull s) := by simp [engineStep, h]
    cases hpull.symm.trans ht
    rw [exec_enginePull_of_ready h]
    exact hkt
  · rw [exec_enginePull_of_disabled h]
    exact hk

theorem engineEmit_phaseSafe : PhaseSafe (exec .engineEmit s) := by
  by_cases h : s.enginePhase = .busy
  · obtain ⟨t, ht, -, -, hkt, -⟩ := engineStep_spec hk
    have hemit : emitWord s = .ok t := by simpa [engineStep, h] using ht
    rw [exec_engineEmit_of_busy h, hemit]
    exact hkt
  · rw [exec_engineEmit_of_disabled h]
    exact hk

theorem backlight_phaseSafe (ho : s.owner = .driver) (on : Bool) : PhaseSafe (exec (.backlight on) s) := by
  simp only [exec, execBacklight, ho]
  exact (setPin_bl_phaseSafe hk _ .unit).guarded s.blPin.isSome .noBacklightPin s

theorem resetPulse_phaseSafe (ho : s.owner = .driver) : PhaseSafe (exec .resetPulse s) := by
  simp only [exec, execResetPulse, ho]
  exact ((pulseReset_tame hk).phaseSafe (fun _ => .inl) .unit).guarded s.rstPin.isSome .noResetPin s

/-- Under a driver no instruction faults or leaves a word without a phase: the raw operations, which could, are refused, and every
operation that pushes selects first (R140, R161). -/
theorem exec_phaseSafe (h : s.driven) (i : Instr) : PhaseSafe (exec i s) := by
  obtain ⟨ho, ht, hh⟩ := h
  have raw : ∀ f, PhaseSafe (asTransport f s) := fun f => by rw [asTransport_of_driver ho]; trivial
  cases i with
  | slpout => exact cycleInstruction_phaseSafe hk _ _
  | colmod => exact cycleInstruction_phaseSafe hk _ _
  | caset => exact cycleInstruction_phaseSafe hk _ _
  | raset => exact cycleInstruction_phaseSafe hk _ _
  | ramwr => exact cycleInstruction_phaseSafe hk _ _
  | madctl => exact cycleInstruction_phaseSafe hk _ _
  | dispon => exact cycleInstruction_phaseSafe hk _ _
  | busCmd w => exact (cycleInstruction_phaseSafe hk _ _).guarded _ _ _
  | busData w => exact (cycleInstruction_phaseSafe hk _ _).guarded _ _ _
  | take =>
    rw [show exec .take s = .next { s with result := some (.ok (.handle false)) } from if_pos ht]
    exact hk
  | transportNew width pb sp dp q =>
    rw [show exec (.transportNew width pb sp dp q) s = refuse .noHandle s from if_neg (by simp [hh])]
    trivial
  | select p => exact raw _
  | write w => exact (raw _).guarded _ _ _
  | burst ws => exact (raw _).guarded _ _ _
  | driverNew rst bl width height rot mirror order pf =>
    simp only [exec, execDriverNew, ho]
    trivial
  | init => exact (initPanel_tame hk).asDriver_phaseSafe ho .unit
  | backlight on => exact backlight_phaseSafe hk ho on
  | setWindow x0 y0 x1 y1 => exact (setWindow_tame x0 y0 x1 y1 hk).asDriver_phaseSafe ho .unit
  | stream ss => exact ((streamSamples_tame _ hk).asDriver_phaseSafe ho .unit).guarded _ _ _
  | fill x0 y0 x1 y1 c => exact ((fillWindow_tame x0 y0 x1 y1 c hk).asDriver_phaseSafe ho .unit).guarded _ _ _
  | clear c =>
    have hc : (clearPanel c s).Tame State.phaseKnown := fillWindow_tame _ _ _ _ c hk
    exact (hc.asDriver_phaseSafe ho .unit).guarded _ _ _
  | draw ps => exact ((whenReady_tame hk (drawPixels_tame ps hk)).asDriver_phaseSafe ho .unit).guarded _ _ _
  | bbox =>
    have hb : (Flow.ok s).Tame State.phaseKnown := hk
    exact hb.asDriver_phaseSafe (f := .ok) ho _
  | enginePull => exact enginePull_phaseSafe hk
  | engineEmit => exact engineEmit_phaseSafe hk
  | cmd op ps =>
    rw [exec_cmd_of_owner (by simp [ho])]
    exact (sendCommand_tame op ps hk).phaseSafe (fun _ => State.dcKnown.phaseKnown) .unit
  | delay us => exact (waitUs_tame us hk).phaseSafe (fun _ => .inl) .unit
  | resetPulse => exact resetPulse_phaseSafe hk ho

end

/-! ## A driver stays -/

/-- Under a driver, TAKE too has only the bus side, the pins, CTRL and the result to change: the other constructions are refused
(R97, R98, R109). -/
theorem exec_pinsOnly_of_driven {i : Instr} {s t : State} (h : s.driven) (he : exec i s = .next t) : PinsOnly s t := by
  obtain ⟨ho, ht, hh⟩ := h
  cases hc : constructs i with
  | false => exact (exec_kept hc he).frame
  | true =>
    obtain rfl | ⟨_, _, _, _, _, rfl⟩ | ⟨_, _, _, _, _, _, _, _, rfl⟩ := constructs_eq_true hc
    · obtain ⟨-, rfl⟩ | ⟨hf, -⟩ := exec_take_next he
      · rfl
      · exact absurd ht (by simp [hf])
    · exact absurd (exec_transportNew_next he).1 (by simp [hh])
    · exact absurd (exec_driverNew_next he).1 (by simp [ho])

theorem PinsOnly.driven {s t : State} (h : PinsOnly s t) (hd : s.driven) : t.driven := by
  obtain ⟨ho, ht, hh⟩ := hd
  exact ⟨h.owner.trans ho, h.taken.trans ht, h.handle.trans hh⟩

/-! ## A step that faults -/

theorem hostStep_fault {s : State} {f : Fault} (h : hostStep s = .fault f) : ∃ i, exec i s = .fault f := by
  cases hd : fetch s with
  | error e => rw [hostStep_of_error hd] at h; cases h
  | ok i =>
    rw [hostStep_of_ok hd, hostCall] at h
    split at h
    · cases h
    · split at h
      · cases h
      · cases he : exec i s with
        | next v => rw [he] at h; cases h
        | refused r => rw [he] at h; cases h
        | fault g => rw [he] at h; cases h; exact ⟨i, he⟩

theorem probeStep_fault {s : State} {f : Fault} (h : probeStep s = .fault f) : ∃ i, exec i { s with probe := none } = .fault f := by
  unfold probeStep at h
  split at h
  · exact ⟨_, h⟩
  · cases h

/-- A step that faults in a state that carries no fault mark is `exec` of an instruction that faults: before it only the placed line
or the scheduling draw is gone (R5, R139); `step_is_exec` says the same of a step that answers a next state. -/
theorem step_fault_is_exec {s : State} {f : Fault} (hf : s.faultedModel = false) (h : step s = .fault f) :
    ∃ i p e, exec i { s with probe := p, env := e } = .fault f := by
  simp only [step, hf, Bool.false_eq_true, if_false] at h
  split at h
  · cases h
  · split at h
    · obtain ⟨i, hi⟩ := probeStep_fault h
      exact ⟨i, none, s.env, hi⟩
    · split at h
      · cases h
      · next t ha =>
        obtain ⟨rfl | rfl, -⟩ := nextAgent_engine ha
        · exact ⟨_, _, _, h⟩
        · exact ⟨_, s.probe, _, h⟩
      · next t ha =>
        obtain ⟨i, hi⟩ := hostStep_fault h
        obtain ⟨-, ⟨rfl, -⟩ | ⟨rfl, -⟩⟩ := nextAgent_host ha
        · exact ⟨i, _, _, hi⟩
        · exact ⟨i, s.probe, _, hi⟩

/-! ## The obligations -/

/-- Settles O12: a step is `exec` of an instruction, and under a driver none faults, leaves a word without a phase, or takes the
driver away. -/
theorem driverNeverFaults : Obligations.DriverNeverFaults := by
  intro s hd hk hf
  have safe : ∀ i p e, PhaseSafe (exec i { s with probe := p, env := e }) := fun i p e =>
    exec_phaseSafe (s := { s with probe := p, env := e }) hk hd i
  refine ⟨fun f h => ?_, fun u h => ?_⟩
  · obtain ⟨i, p, e, he⟩ := step_fault_is_exec hf h
    have hfault : PhaseSafe (.fault f) := he ▸ safe i p e
    exact hfault
  · obtain rfl | ⟨i, p, e, v, n, he, rfl⟩ := step_is_exec h
    · exact ⟨hd, hk, hf⟩
    · have hv : PhaseSafe (.next v) := he ▸ safe i p e
      have hp : PinsOnly { s with probe := p, env := e } v := exec_pinsOnly_of_driven hd he
      exact ⟨hp.driven hd, hv, hp.faultedModel.trans hf⟩

/-- Settles O14: the fields of the state at power-on, read off (R154, R32, R58). -/
theorem powerOnState : Obligations.PowerOnState := by
  unfold Obligations.PowerOnState
  decide

end Sys2Proof.Machine
